-- ==== Sys2Proof/Word.lean ====
section
/-! DEFINITION. The byte and the word of the CORE (00_scope.md R9, R13): 8 and 16 bits, arithmetic modulo their width. -/

namespace Sys2Proof

/-- A byte, 8 bits (R13). Sums and differences wrap modulo 256, which is `u8` of R14. -/
abbrev Byte := BitVec 8

/-- A word, 16 bits (R13). Sums and differences wrap modulo 65536, which is `u16` of R14. -/
abbrev Word := BitVec 16

end Sys2Proof
end

