-- ==== Sys2Proof/Machine/Bits.lean ====
section
/-! DEFINITION. The byte and word helpers of the pseudocode: concatenation, the two halves, extension (00_scope.md R13, R14)
and the page of an address (R19). -/

namespace Sys2Proof.Machine

/-- The word whose upper byte is `hi` and lower byte is `lo` (R13). -/
def wordOf (hi lo : Byte) : Word := hi ++ lo

/-- Bits 15..8 of a word. -/
def hiByte (w : Word) : Byte := w.extractLsb' 8 8

/-- Bits 7..0 of a word. -/
def loByte (w : Word) : Byte := w.extractLsb' 0 8

/-- `zext_16` (R14). -/
def zext (b : Byte) : Word := b.setWidth 16

/-- `sext_8` of R14, as a word. -/
def sext (b : Byte) : Word := b.signExtend 16

/-- Two addresses lie in different pages (R19: "the page of address a" is its upper byte). -/
def pagesDiffer (a b : Word) : Bool := hiByte a != hiByte b

/-- The byte of value 1 or 0 of a carry. -/
def carryByte (c : Bool) : Byte := if c then 1 else 0

end Sys2Proof.Machine
end

