-- ==== Sys2Proof/Syntax.lean ====
section
/-! DEFINITION. The instructions, decoded: one constructor per operation of the opcode table (30_encoding.md R104, "the
semantic tag, one per mnemonic"), with the operand its addressing mode assembles (R101). The rows of one mnemonic in
spec/opcode_table.json are the forms of that operand (log 1). -/

namespace Sys2Proof

/-- The thirteen addressing modes (41_addressing_modes.md R140). -/
inductive Mode where
  | implied | accumulator | immediate | zeroPage | zeroPageX | zeroPageY | absolute | absoluteX | absoluteY
  | indirect | indexedIndirect | indirectIndexed | relative
deriving DecidableEq, Repr, Inhabited

/-- An operand that is a byte of memory, with its operand bytes assembled (R101). -/
inductive MemOperand where
  /-- zero page (R144) -/
  | zp (b : Byte)
  /-- zero page,X (R145) -/
  | zpx (b : Byte)
  /-- zero page,Y (R146) -/
  | zpy (b : Byte)
  /-- absolute (R147) -/
  | abs (w : Word)
  /-- absolute,X (R148) -/
  | absx (w : Word)
  /-- absolute,Y (R149) -/
  | absy (w : Word)
  /-- (zero page,X) (R151) -/
  | indx (b : Byte)
  /-- (zero page),Y (R152) -/
  | indy (b : Byte)
deriving DecidableEq, Repr, Inhabited

/-- An operand that is read: an immediate byte (R143) or a byte of memory. -/
inductive ReadOperand where
  | imm (v : Byte)
  | mem (m : MemOperand)
deriving DecidableEq, Repr, Inhabited

/-- An operand that a shift or rotate modifies: the accumulator (R142) or a byte of memory. -/
inductive ShiftOperand where
  | acc
  | mem (m : MemOperand)
deriving DecidableEq, Repr, Inhabited

/-- A jump's operand: the absolute target (R147) or the indirect pointer (R150). -/
inductive JumpOperand where
  | abs (w : Word)
  | ind (p : Word)
deriving DecidableEq, Repr, Inhabited

/-- The instructions. -/
inductive Instr where
  -- 43_arith_logic.md
  | adc (o : ReadOperand)
  | sbc (o : ReadOperand)
  | and (o : ReadOperand)
  | ora (o : ReadOperand)
  | eor (o : ReadOperand)
  | bit (m : MemOperand)
  -- 44_shift_rotate.md
  | asl (o : ShiftOperand)
  | lsr (o : ShiftOperand)
  | rol (o : ShiftOperand)
  | ror (o : ShiftOperand)
  -- 45_load_store_transfer.md
  | lda (o : ReadOperand)
  | ldx (o : ReadOperand)
  | ldy (o : ReadOperand)
  | sta (m : MemOperand)
  | stx (m : MemOperand)
  | sty (m : MemOperand)
  | tax
  | tay
  | txa
  | tya
  | tsx
  | txs
  -- 46_compare_incdec.md
  | cmp (o : ReadOperand)
  | cpx (o : ReadOperand)
  | cpy (o : ReadOperand)
  | inc (m : MemOperand)
  | dec (m : MemOperand)
  | inx
  | iny
  | dex
  | dey
  -- 47_branch_jump_call.md; a branch carries its offset byte
  | bpl (off : Byte)
  | bmi (off : Byte)
  | bvc (off : Byte)
  | bvs (off : Byte)
  | bcc (off : Byte)
  | bcs (off : Byte)
  | bne (off : Byte)
  | beq (off : Byte)
  | jmp (o : JumpOperand)
  | jsr (w : Word)
  | rts
  -- 48_stack_flags.md
  | pha
  | php
  | pla
  | plp
  | clc
  | sec
  | cli
  | sei
  | clv
  | cld
  | sed
  -- 49_brk_rti_nop_undefined.md
  | brk
  | rti
  | nop
  /-- One of the 105 undefined bytes (R252), by its opcode byte. -/
  | undefined (op : Byte)
deriving DecidableEq, Repr, Inhabited

/-- The mode of a memory operand. -/
def MemOperand.mode : MemOperand → Mode
  | .zp _ => .zeroPage
  | .zpx _ => .zeroPageX
  | .zpy _ => .zeroPageY
  | .abs _ => .absolute
  | .absx _ => .absoluteX
  | .absy _ => .absoluteY
  | .indx _ => .indexedIndirect
  | .indy _ => .indirectIndexed

/-- The mode of a read operand. -/
def ReadOperand.mode : ReadOperand → Mode
  | .imm _ => .immediate
  | .mem m => m.mode

/-- The mode of a shift operand. -/
def ShiftOperand.mode : ShiftOperand → Mode
  | .acc => .accumulator
  | .mem m => m.mode

/-- The mode of a jump operand. -/
def JumpOperand.mode : JumpOperand → Mode
  | .abs _ => .absolute
  | .ind _ => .indirect

end Sys2Proof
end

