-- ==== Sys2Proof/WellFormed.lean ====
section
/-! DEFINITION. Which instruction terms the base set has: the pairings of operation and addressing mode that
43_arith_logic.md to 49_brk_rti_nop_undefined.md list under "Encoding" (41_addressing_modes.md R159: "A decode entry never
pairs an instruction with a mode outside that table"), and the undefined bytes of 30_encoding.md R110, R111. -/

namespace Sys2Proof

/-- The 105 undefined bytes, in the order of R111. -/
def undefinedBytes : List Byte :=
  ([0x02, 0x03, 0x04, 0x07, 0x0B, 0x0C, 0x0F]
    ++ [0x12, 0x13, 0x14, 0x17, 0x1A, 0x1B, 0x1C, 0x1F]
    ++ [0x22, 0x23, 0x27, 0x2B, 0x2F]
    ++ [0x32, 0x33, 0x34, 0x37, 0x3A, 0x3B, 0x3C, 0x3F]
    ++ [0x42, 0x43, 0x44, 0x47, 0x4B, 0x4F]
    ++ [0x52, 0x53, 0x54, 0x57, 0x5A, 0x5B, 0x5C, 0x5F]
    ++ [0x62, 0x63, 0x64, 0x67, 0x6B, 0x6F]
    ++ [0x72, 0x73, 0x74, 0x77, 0x7A, 0x7B, 0x7C, 0x7F]
    ++ [0x80, 0x82, 0x83, 0x87, 0x89, 0x8B, 0x8F]
    ++ [0x92, 0x93, 0x97, 0x9B, 0x9C, 0x9E, 0x9F]
    ++ [0xA3, 0xA7, 0xAB, 0xAF]
    ++ [0xB2, 0xB3, 0xB7, 0xBB, 0xBF]
    ++ [0xC2, 0xC3, 0xC7, 0xCB, 0xCF]
    ++ [0xD2, 0xD3, 0xD4, 0xD7, 0xDA, 0xDB, 0xDC, 0xDF]
    ++ [0xE2, 0xE3, 0xE7, 0xEB, 0xEF]
    ++ [0xF2, 0xF3, 0xF4, 0xF7, 0xFA, 0xFB, 0xFC, 0xFF])

/-- zero page, zero page,X, absolute, absolute,X, absolute,Y, (zero page,X), (zero page),Y: the memory forms of the
accumulator's instructions (R180 to R184, R195, R198, R210). -/
def MemOperand.isAccForm : MemOperand → Bool
  | .zpy _ => false
  | _ => true

/-- zero page, zero page,X, absolute, absolute,X: the memory forms of the shifts, INC and DEC (R190 to R193, R213, R214). -/
def MemOperand.isModifyForm : MemOperand → Bool
  | .zp _ | .zpx _ | .abs _ | .absx _ => true
  | _ => false

/-- zero page and absolute: the memory forms of BIT, CPX and CPY (R185, R211, R212). -/
def MemOperand.isPlainForm : MemOperand → Bool
  | .zp _ | .abs _ => true
  | _ => false

/-- zero page, zero page,Y, absolute: the forms of STX (R199). -/
def MemOperand.isStxForm : MemOperand → Bool
  | .zp _ | .zpy _ | .abs _ => true
  | _ => false

/-- zero page, zero page,X, absolute: the forms of STY (R200). -/
def MemOperand.isStyForm : MemOperand → Bool
  | .zp _ | .zpx _ | .abs _ => true
  | _ => false

/-- zero page, zero page,Y, absolute, absolute,Y: the memory forms of LDX (R196). -/
def MemOperand.isLdxForm : MemOperand → Bool
  | .zp _ | .zpy _ | .abs _ | .absy _ => true
  | _ => false

/-- A read operand is well-formed when it is immediate or its memory form is allowed. -/
def ReadOperand.wf (allowed : MemOperand → Bool) : ReadOperand → Bool
  | .imm _ => true
  | .mem m => allowed m

/-- A shift operand is well-formed when it is the accumulator or one of the modify forms. -/
def ShiftOperand.wf : ShiftOperand → Bool
  | .acc => true
  | .mem m => m.isModifyForm

/-- The instruction has an opcode byte. LDY's memory forms are those of the shifts (R197). -/
def Instr.wf : Instr → Bool
  | .adc o | .sbc o | .and o | .ora o | .eor o | .lda o | .cmp o => o.wf MemOperand.isAccForm
  | .bit m => m.isPlainForm
  | .asl o | .lsr o | .rol o | .ror o => o.wf
  | .ldx o => o.wf MemOperand.isLdxForm
  | .ldy o => o.wf MemOperand.isModifyForm
  | .sta m => m.isAccForm
  | .stx m => m.isStxForm
  | .sty m => m.isStyForm
  | .cpx o | .cpy o => o.wf MemOperand.isPlainForm
  | .inc m | .dec m => m.isModifyForm
  | .undefined op => undefinedBytes.contains op
  | .tax | .tay | .txa | .tya | .tsx | .txs | .inx | .iny | .dex | .dey => true
  | .bpl _ | .bmi _ | .bvc _ | .bvs _ | .bcc _ | .bcs _ | .bne _ | .beq _ => true
  | .jmp _ | .jsr _ | .rts | .pha | .php | .pla | .plp => true
  | .clc | .sec | .cli | .sei | .clv | .cld | .sed | .brk | .rti | .nop => true

end Sys2Proof
end

