-- ==== Sys2Proof/Decode.lean ====
section
/-! DEFINITION. 6502_decoder: the constant table of 256 entries (30_encoding.md R104, R105, R108, R109, R111), the decoder over
bytes, total and rejecting by name, and after it the encoder, written from the "Encoding" line of each instruction's own rule. -/

namespace Sys2Proof

open Sys2Proof.Machine (wordOf hiByte loByte)

/-- The `operation` of an entry (R104), with the kind of operand that its mode assembles for it. -/
inductive OperandForm where
  | implied (i : Instr)
  | read (k : ReadOperand → Instr)
  | memory (k : MemOperand → Instr)
  | shift (k : ShiftOperand → Instr)
  | jump (k : JumpOperand → Instr)
  | call (k : Word → Instr)
  | branch (k : Byte → Instr)
  | undefined

/-- A decode entry, with the fields R104 gives it. The mnemonic is for tracing only (R106). -/
structure DecodeEntry where
  defined : Bool
  mnemonic : String
  operation : OperandForm
  mode : Mode
  length : Nat
  baseCycles : Nat
  pagePenalty : Bool

/-- The entry of an official opcode byte (R109). -/
def official (mnemonic : String) (operation : OperandForm) (mode : Mode) (length baseCycles : Nat)
    (pagePenalty : Bool) : DecodeEntry :=
  { defined := true, mnemonic, operation, mode, length, baseCycles, pagePenalty }

/-- The entry of an undefined byte: its nominal mode and length (R111). It has no cycle count of its own (R254). -/
def undefinedEntry (mode : Mode) (length : Nat) : DecodeEntry :=
  { defined := false, mnemonic := "UNDEFINED", operation := .undefined, mode, length, baseCycles := 0, pagePenalty := false }

/-- Opcode bytes 0x00 to 0x0F. -/
def decodeRow0 : List DecodeEntry :=
  [official "BRK" (.implied .brk) .implied 2 7 false,
   official "ORA" (.read .ora) .indexedIndirect 2 6 false,
   undefinedEntry .implied 1,
   undefinedEntry .indexedIndirect 2,
   undefinedEntry .zeroPage 2,
   official "ORA" (.read .ora) .zeroPage 2 3 false,
   official "ASL" (.shift .asl) .zeroPage 2 5 false,
   undefinedEntry .zeroPage 2,
   official "PHP" (.implied .php) .implied 1 3 false,
   official "ORA" (.read .ora) .immediate 2 2 false,
   official "ASL" (.shift .asl) .accumulator 1 2 false,
   undefinedEntry .immediate 2,
   undefinedEntry .absolute 3,
   official "ORA" (.read .ora) .absolute 3 4 false,
   official "ASL" (.shift .asl) .absolute 3 6 false,
   undefinedEntry .absolute 3]

/-- Opcode bytes 0x10 to 0x1F. -/
def decodeRow1 : List DecodeEntry :=
  [official "BPL" (.branch .bpl) .relative 2 2 false,
   official "ORA" (.read .ora) .indirectIndexed 2 5 true,
   undefinedEntry .implied 1,
   undefinedEntry .indirectIndexed 2,
   undefinedEntry .zeroPageX 2,
   official "ORA" (.read .ora) .zeroPageX 2 4 false,
   official "ASL" (.shift .asl) .zeroPageX 2 6 false,
   undefinedEntry .zeroPageX 2,
   official "CLC" (.implied .clc) .implied 1 2 false,
   official "ORA" (.read .ora) .absoluteY 3 4 true,
   undefinedEntry .implied 1,
   undefinedEntry .absoluteY 3,
   undefinedEntry .absoluteX 3,
   official "ORA" (.read .ora) .absoluteX 3 4 true,
   official "ASL" (.shift .asl) .absoluteX 3 7 false,
   undefinedEntry .absoluteX 3]

/-- Opcode bytes 0x20 to 0x2F. -/
def decodeRow2 : List DecodeEntry :=
  [official "JSR" (.call .jsr) .absolute 3 6 false,
   official "AND" (.read .and) .indexedIndirect 2 6 false,
   undefinedEntry .implied 1,
   undefinedEntry .indexedIndirect 2,
   official "BIT" (.memory .bit) .zeroPage 2 3 false,
   official "AND" (.read .and) .zeroPage 2 3 false,
   official "ROL" (.shift .rol) .zeroPage 2 5 false,
   undefinedEntry .zeroPage 2,
   official "PLP" (.implied .plp) .implied 1 4 false,
   official "AND" (.read .and) .immediate 2 2 false,
   official "ROL" (.shift .rol) .accumulator 1 2 false,
   undefinedEntry .immediate 2,
   official "BIT" (.memory .bit) .absolute 3 4 false,
   official "AND" (.read .and) .absolute 3 4 false,
   official "ROL" (.shift .rol) .absolute 3 6 false,
   undefinedEntry .absolute 3]

/-- Opcode bytes 0x30 to 0x3F. -/
def decodeRow3 : List DecodeEntry :=
  [official "BMI" (.branch .bmi) .relative 2 2 false,
   official "AND" (.read .and) .indirectIndexed 2 5 true,
   undefinedEntry .implied 1,
   undefinedEntry .indirectIndexed 2,
   undefinedEntry .zeroPageX 2,
   official "AND" (.read .and) .zeroPageX 2 4 false,
   official "ROL" (.shift .rol) .zeroPageX 2 6 false,
   undefinedEntry .zeroPageX 2,
   official "SEC" (.implied .sec) .implied 1 2 false,
   official "AND" (.read .and) .absoluteY 3 4 true,
   undefinedEntry .implied 1,
   undefinedEntry .absoluteY 3,
   undefinedEntry .absoluteX 3,
   official "AND" (.read .and) .absoluteX 3 4 true,
   official "ROL" (.shift .rol) .absoluteX 3 7 false,
   undefinedEntry .absoluteX 3]

/-- Opcode bytes 0x40 to 0x4F. -/
def decodeRow4 : List DecodeEntry :=
  [official "RTI" (.implied .rti) .implied 1 6 false,
   official "EOR" (.read .eor) .indexedIndirect 2 6 false,
   undefinedEntry .implied 1,
   undefinedEntry .indexedIndirect 2,
   undefinedEntry .zeroPage 2,
   official "EOR" (.read .eor) .zeroPage 2 3 false,
   official "LSR" (.shift .lsr) .zeroPage 2 5 false,
   undefinedEntry .zeroPage 2,
   official "PHA" (.implied .pha) .implied 1 3 false,
   official "EOR" (.read .eor) .immediate 2 2 false,
   official "LSR" (.shift .lsr) .accumulator 1 2 false,
   undefinedEntry .immediate 2,
   official "JMP" (.jump .jmp) .absolute 3 3 false,
   official "EOR" (.read .eor) .absolute 3 4 false,
   official "LSR" (.shift .lsr) .absolute 3 6 false,
   undefinedEntry .absolute 3]

/-- Opcode bytes 0x50 to 0x5F. -/
def decodeRow5 : List DecodeEntry :=
  [official "BVC" (.branch .bvc) .relative 2 2 false,
   official "EOR" (.read .eor) .indirectIndexed 2 5 true,
   undefinedEntry .implied 1,
   undefinedEntry .indirectIndexed 2,
   undefinedEntry .zeroPageX 2,
   official "EOR" (.read .eor) .zeroPageX 2 4 false,
   official "LSR" (.shift .lsr) .zeroPageX 2 6 false,
   undefinedEntry .zeroPageX 2,
   official "CLI" (.implied .cli) .implied 1 2 false,
   official "EOR" (.read .eor) .absoluteY 3 4 true,
   undefinedEntry .implied 1,
   undefinedEntry .absoluteY 3,
   undefinedEntry .absoluteX 3,
   official "EOR" (.read .eor) .absoluteX 3 4 true,
   official "LSR" (.shift .lsr) .absoluteX 3 7 false,
   undefinedEntry .absoluteX 3]

/-- Opcode bytes 0x60 to 0x6F. -/
def decodeRow6 : List DecodeEntry :=
  [official "RTS" (.implied .rts) .implied 1 6 false,
   official "ADC" (.read .adc) .indexedIndirect 2 6 false,
   undefinedEntry .implied 1,
   undefinedEntry .indexedIndirect 2,
   undefinedEntry .zeroPage 2,
   official "ADC" (.read .adc) .zeroPage 2 3 false,
   official "ROR" (.shift .ror) .zeroPage 2 5 false,
   undefinedEntry .zeroPage 2,
   official "PLA" (.implied .pla) .implied 1 4 false,
   official "ADC" (.read .adc) .immediate 2 2 false,
   official "ROR" (.shift .ror) .accumulator 1 2 false,
   undefinedEntry .immediate 2,
   official "JMP" (.jump .jmp) .indirect 3 5 false,
   official "ADC" (.read .adc) .absolute 3 4 false,
   official "ROR" (.shift .ror) .absolute 3 6 false,
   undefinedEntry .absolute 3]

/-- Opcode bytes 0x70 to 0x7F. -/
def decodeRow7 : List DecodeEntry :=
  [official "BVS" (.branch .bvs) .relative 2 2 false,
   official "ADC" (.read .adc) .indirectIndexed 2 5 true,
   undefinedEntry .implied 1,
   undefinedEntry .indirectIndexed 2,
   undefinedEntry .zeroPageX 2,
   official "ADC" (.read .adc) .zeroPageX 2 4 false,
   official "ROR" (.shift .ror) .zeroPageX 2 6 false,
   undefinedEntry .zeroPageX 2,
   official "SEI" (.implied .sei) .implied 1 2 false,
   official "ADC" (.read .adc) .absoluteY 3 4 true,
   undefinedEntry .implied 1,
   undefinedEntry .absoluteY 3,
   undefinedEntry .absoluteX 3,
   official "ADC" (.read .adc) .absoluteX 3 4 true,
   official "ROR" (.shift .ror) .absoluteX 3 7 false,
   undefinedEntry .absoluteX 3]

/-- Opcode bytes 0x80 to 0x8F. -/
def decodeRow8 : List DecodeEntry :=
  [undefinedEntry .immediate 2,
   official "STA" (.memory .sta) .indexedIndirect 2 6 false,
   undefinedEntry .immediate 2,
   undefinedEntry .indexedIndirect 2,
   official "STY" (.memory .sty) .zeroPage 2 3 false,
   official "STA" (.memory .sta) .zeroPage 2 3 false,
   official "STX" (.memory .stx) .zeroPage 2 3 false,
   undefinedEntry .zeroPage 2,
   official "DEY" (.implied .dey) .implied 1 2 false,
   undefinedEntry .immediate 2,
   official "TXA" (.implied .txa) .implied 1 2 false,
   undefinedEntry .immediate 2,
   official "STY" (.memory .sty) .absolute 3 4 false,
   official "STA" (.memory .sta) .absolute 3 4 false,
   official "STX" (.memory .stx) .absolute 3 4 false,
   undefinedEntry .absolute 3]

/-- Opcode bytes 0x90 to 0x9F. -/
def decodeRow9 : List DecodeEntry :=
  [official "BCC" (.branch .bcc) .relative 2 2 false,
   official "STA" (.memory .sta) .indirectIndexed 2 6 false,
   undefinedEntry .implied 1,
   undefinedEntry .indirectIndexed 2,
   official "STY" (.memory .sty) .zeroPageX 2 4 false,
   official "STA" (.memory .sta) .zeroPageX 2 4 false,
   official "STX" (.memory .stx) .zeroPageY 2 4 false,
   undefinedEntry .zeroPageY 2,
   official "TYA" (.implied .tya) .implied 1 2 false,
   official "STA" (.memory .sta) .absoluteY 3 5 false,
   official "TXS" (.implied .txs) .implied 1 2 false,
   undefinedEntry .absoluteY 3,
   undefinedEntry .absoluteX 3,
   official "STA" (.memory .sta) .absoluteX 3 5 false,
   undefinedEntry .absoluteY 3,
   undefinedEntry .absoluteY 3]

/-- Opcode bytes 0xA0 to 0xAF. -/
def decodeRowA : List DecodeEntry :=
  [official "LDY" (.read .ldy) .immediate 2 2 false,
   official "LDA" (.read .lda) .indexedIndirect 2 6 false,
   official "LDX" (.read .ldx) .immediate 2 2 false,
   undefinedEntry .indexedIndirect 2,
   official "LDY" (.read .ldy) .zeroPage 2 3 false,
   official "LDA" (.read .lda) .zeroPage 2 3 false,
   official "LDX" (.read .ldx) .zeroPage 2 3 false,
   undefinedEntry .zeroPage 2,
   official "TAY" (.implied .tay) .implied 1 2 false,
   official "LDA" (.read .lda) .immediate 2 2 false,
   official "TAX" (.implied .tax) .implied 1 2 false,
   undefinedEntry .immediate 2,
   official "LDY" (.read .ldy) .absolute 3 4 false,
   official "LDA" (.read .lda) .absolute 3 4 false,
   official "LDX" (.read .ldx) .absolute 3 4 false,
   undefinedEntry .absolute 3]

/-- Opcode bytes 0xB0 to 0xBF. -/
def decodeRowB : List DecodeEntry :=
  [official "BCS" (.branch .bcs) .relative 2 2 false,
   official "LDA" (.read .lda) .indirectIndexed 2 5 true,
   undefinedEntry .implied 1,
   undefinedEntry .indirectIndexed 2,
   official "LDY" (.read .ldy) .zeroPageX 2 4 false,
   official "LDA" (.read .lda) .zeroPageX 2 4 false,
   official "LDX" (.read .ldx) .zeroPageY 2 4 false,
   undefinedEntry .zeroPageY 2,
   official "CLV" (.implied .clv) .implied 1 2 false,
   official "LDA" (.read .lda) .absoluteY 3 4 true,
   official "TSX" (.implied .tsx) .implied 1 2 false,
   undefinedEntry .absoluteY 3,
   official "LDY" (.read .ldy) .absoluteX 3 4 true,
   official "LDA" (.read .lda) .absoluteX 3 4 true,
   official "LDX" (.read .ldx) .absoluteY 3 4 true,
   undefinedEntry .absoluteY 3]

/-- Opcode bytes 0xC0 to 0xCF. -/
def decodeRowC : List DecodeEntry :=
  [official "CPY" (.read .cpy) .immediate 2 2 false,
   official "CMP" (.read .cmp) .indexedIndirect 2 6 false,
   undefinedEntry .immediate 2,
   undefinedEntry .indexedIndirect 2,
   official "CPY" (.read .cpy) .zeroPage 2 3 false,
   official "CMP" (.read .cmp) .zeroPage 2 3 false,
   official "DEC" (.memory .dec) .zeroPage 2 5 false,
   undefinedEntry .zeroPage 2,
   official "INY" (.implied .iny) .implied 1 2 false,
   official "CMP" (.read .cmp) .immediate 2 2 false,
   official "DEX" (.implied .dex) .implied 1 2 false,
   undefinedEntry .immediate 2,
   official "CPY" (.read .cpy) .absolute 3 4 false,
   official "CMP" (.read .cmp) .absolute 3 4 false,
   official "DEC" (.memory .dec) .absolute 3 6 false,
   undefinedEntry .absolute 3]

/-- Opcode bytes 0xD0 to 0xDF. -/
def decodeRowD : List DecodeEntry :=
  [official "BNE" (.branch .bne) .relative 2 2 false,
   official "CMP" (.read .cmp) .indirectIndexed 2 5 true,
   undefinedEntry .implied 1,
   undefinedEntry .indirectIndexed 2,
   undefinedEntry .zeroPageX 2,
   official "CMP" (.read .cmp) .zeroPageX 2 4 false,
   official "DEC" (.memory .dec) .zeroPageX 2 6 false,
   undefinedEntry .zeroPageX 2,
   official "CLD" (.implied .cld) .implied 1 2 false,
   official "CMP" (.read .cmp) .absoluteY 3 4 true,
   undefinedEntry .implied 1,
   undefinedEntry .absoluteY 3,
   undefinedEntry .absoluteX 3,
   official "CMP" (.read .cmp) .absoluteX 3 4 true,
   official "DEC" (.memory .dec) .absoluteX 3 7 false,
   undefinedEntry .absoluteX 3]

/-- Opcode bytes 0xE0 to 0xEF. -/
def decodeRowE : List DecodeEntry :=
  [official "CPX" (.read .cpx) .immediate 2 2 false,
   official "SBC" (.read .sbc) .indexedIndirect 2 6 false,
   undefinedEntry .immediate 2,
   undefinedEntry .indexedIndirect 2,
   official "CPX" (.read .cpx) .zeroPage 2 3 false,
   official "SBC" (.read .sbc) .zeroPage 2 3 false,
   official "INC" (.memory .inc) .zeroPage 2 5 false,
   undefinedEntry .zeroPage 2,
   official "INX" (.implied .inx) .implied 1 2 false,
   official "SBC" (.read .sbc) .immediate 2 2 false,
   official "NOP" (.implied .nop) .implied 1 2 false,
   undefinedEntry .immediate 2,
   official "CPX" (.read .cpx) .absolute 3 4 false,
   official "SBC" (.read .sbc) .absolute 3 4 false,
   official "INC" (.memory .inc) .absolute 3 6 false,
   undefinedEntry .absolute 3]

/-- Opcode bytes 0xF0 to 0xFF. -/
def decodeRowF : List DecodeEntry :=
  [official "BEQ" (.branch .beq) .relative 2 2 false,
   official "SBC" (.read .sbc) .indirectIndexed 2 5 true,
   undefinedEntry .implied 1,
   undefinedEntry .indirectIndexed 2,
   undefinedEntry .zeroPageX 2,
   official "SBC" (.read .sbc) .zeroPageX 2 4 false,
   official "INC" (.memory .inc) .zeroPageX 2 6 false,
   undefinedEntry .zeroPageX 2,
   official "SED" (.implied .sed) .implied 1 2 false,
   official "SBC" (.read .sbc) .absoluteY 3 4 true,
   undefinedEntry .implied 1,
   undefinedEntry .absoluteY 3,
   undefinedEntry .absoluteX 3,
   official "SBC" (.read .sbc) .absoluteX 3 4 true,
   official "INC" (.memory .inc) .absoluteX 3 7 false,
   undefinedEntry .absoluteX 3]

/-- The decode table (R105), by opcode byte. -/
def decodeTable : List DecodeEntry :=
  decodeRow0 ++ (decodeRow1 ++ (decodeRow2 ++ (decodeRow3 ++ (decodeRow4 ++ (decodeRow5 ++ (decodeRow6 ++ (decodeRow7 ++
    (decodeRow8 ++ (decodeRow9 ++ (decodeRowA ++ (decodeRowB ++ (decodeRowC ++ (decodeRowD ++ (decodeRowE ++
      decodeRowF))))))))))))))

/-- `Decode(op)` of 40_execution_cycle.md R122: "a single indexed lookup" (R105). -/
def decodeEntry (op : Byte) : DecodeEntry :=
  (decodeTable[op.toNat]?).getD (undefinedEntry .implied 1)

/-- The memory operand a mode assembles from the operand bytes (R101, R102). -/
def memOperand (mode : Mode) (b1 b2 : Byte) : Option MemOperand :=
  match mode with
  | .zeroPage => some (.zp b1)
  | .zeroPageX => some (.zpx b1)
  | .zeroPageY => some (.zpy b1)
  | .absolute => some (.abs (wordOf b2 b1))
  | .absoluteX => some (.absx (wordOf b2 b1))
  | .absoluteY => some (.absy (wordOf b2 b1))
  | .indexedIndirect => some (.indx b1)
  | .indirectIndexed => some (.indy b1)
  | .implied | .accumulator | .immediate | .indirect | .relative => none

/-- The instruction an entry's operation and mode assemble from the opcode and operand bytes (R101); none for a pairing
that is in no table row (41_addressing_modes.md R159). -/
def assemble (e : DecodeEntry) (op b1 b2 : Byte) : Option Instr :=
  match e.operation, e.mode with
  | .implied i, .implied => some i
  | .read k, .immediate => some (k (.imm b1))
  | .read k, mode => (memOperand mode b1 b2).map fun m => k (.mem m)
  | .memory k, mode => (memOperand mode b1 b2).map k
  | .shift k, .accumulator => some (k .acc)
  | .shift k, mode => (memOperand mode b1 b2).map fun m => k (.mem m)
  | .jump k, .absolute => some (k (.abs (wordOf b2 b1)))
  | .jump k, .indirect => some (k (.ind (wordOf b2 b1)))
  | .call k, .absolute => some (k (wordOf b2 b1))
  | .branch k, .relative => some (k b1)
  | .undefined, _ => some (.undefined op)
  | .implied _, _ | .jump _, _ | .call _, _ | .branch _, _ => none

/-- How many of the entry's operand bytes carry an operand: none of BRK's, whose second byte "is skipped, not read"
(40_execution_cycle.md R124), and none of an undefined byte's. -/
def DecodeEntry.operandCount (e : DecodeEntry) : Nat :=
  match e.operation with
  | .implied _ | .undefined => 0
  | _ => e.length - 1

/-- Why bytes are no instruction. -/
inductive DecodeError where
  /-- there is no byte at all -/
  | noBytes
  /-- the bytes end before the operand of the opcode byte does -/
  | truncated (op : Byte)
  /-- the table pairs the opcode byte with a mode its operation does not have (no entry of the table does) -/
  | noSuchForm (op : Byte)
deriving DecidableEq, Repr

/-- The outcome of decoding: an instruction and the bytes after it, or a rejection. -/
inductive Decoded where
  | ok (i : Instr) (rest : List Byte)
  | rejected (e : DecodeError)
deriving DecidableEq, Repr

/-- The decoder over bytes (R100, R101, R107): the opcode byte alone gives the length. -/
def decode : List Byte → Decoded
  | [] => .rejected .noBytes
  | op :: bytes =>
    let e := decodeEntry op
    if bytes.length < e.operandCount then .rejected (.truncated op)
    else
      match assemble e op (bytes.getD 0 0) (bytes.getD 1 0) with
      | some i => .ok i (bytes.drop (e.length - 1))
      | none => .rejected (.noSuchForm op)

/-- The instruction decoded, if there is one. -/
def Decoded.instr? : Decoded → Option Instr
  | .ok i _ => some i
  | .rejected _ => none

/-- Byte `k` of an instruction whose `nbits` bits are `w`, the first byte the least significant; every bit above is 0. -/
def tableByte (nbits w k : Nat) : Byte :=
  BitVec.ofNat 8 ((w % 2 ^ nbits) >>> (8 * k))

/-- The decoder on an instruction whose bits are numbered as spec/opcode_table.json numbers them. -/
def decodeTableWord (nbits w : Nat) : Option Instr :=
  (decode [tableByte nbits w 0, tableByte nbits w 1, tableByte nbits w 2]).instr?

/-! ## The encoder -/

/-- The opcode byte of a memory form, from the bytes of the eight forms (none where the instruction lacks the form). -/
def memOpcode (zp zpx zpy abs absx absy indx indy : Option Byte) : MemOperand → Option Byte
  | .zp _ => zp
  | .zpx _ => zpx
  | .zpy _ => zpy
  | .abs _ => abs
  | .absx _ => absx
  | .absy _ => absy
  | .indx _ => indx
  | .indy _ => indy

/-- The opcode bytes of the eight-form accumulator instructions, in the order of their "Encoding" lines. -/
def accOpcode (imm zp zpx abs absx absy indx indy : Byte) : ReadOperand → Option Byte
  | .imm _ => some imm
  | .mem m => memOpcode (some zp) (some zpx) none (some abs) (some absx) (some absy) (some indx) (some indy) m

/-- The opcode bytes of immediate, zero page, absolute instructions (CPX, CPY). -/
def plainOpcode (imm zp abs : Byte) : ReadOperand → Option Byte
  | .imm _ => some imm
  | .mem m => memOpcode (some zp) none none (some abs) none none none none m

/-- The opcode bytes of zero page, zero page,X, absolute, absolute,X forms (INC, DEC and the shifts' memory forms). -/
def modifyOpcode (zp zpx abs absx : Byte) : MemOperand → Option Byte :=
  memOpcode (some zp) (some zpx) none (some abs) (some absx) none none none

/-- The opcode bytes of the shifts, accumulator form first (R190 to R193). -/
def shiftOpcode (acc zp zpx abs absx : Byte) : ShiftOperand → Option Byte
  | .acc => some acc
  | .mem m => modifyOpcode zp zpx abs absx m

/-- The opcode byte of an instruction, from the "Encoding" line of its rule (R180 to R255); none where it has none. -/
def opcodeOf : Instr → Option Byte
  | .adc o => accOpcode 0x69 0x65 0x75 0x6D 0x7D 0x79 0x61 0x71 o
  | .sbc o => accOpcode 0xE9 0xE5 0xF5 0xED 0xFD 0xF9 0xE1 0xF1 o
  | .and o => accOpcode 0x29 0x25 0x35 0x2D 0x3D 0x39 0x21 0x31 o
  | .ora o => accOpcode 0x09 0x05 0x15 0x0D 0x1D 0x19 0x01 0x11 o
  | .eor o => accOpcode 0x49 0x45 0x55 0x4D 0x5D 0x59 0x41 0x51 o
  | .bit m => memOpcode (some 0x24) none none (some 0x2C) none none none none m
  | .asl o => shiftOpcode 0x0A 0x06 0x16 0x0E 0x1E o
  | .lsr o => shiftOpcode 0x4A 0x46 0x56 0x4E 0x5E o
  | .rol o => shiftOpcode 0x2A 0x26 0x36 0x2E 0x3E o
  | .ror o => shiftOpcode 0x6A 0x66 0x76 0x6E 0x7E o
  | .lda o => accOpcode 0xA9 0xA5 0xB5 0xAD 0xBD 0xB9 0xA1 0xB1 o
  | .ldx (.imm _) => some 0xA2
  | .ldx (.mem m) => memOpcode (some 0xA6) none (some 0xB6) (some 0xAE) none (some 0xBE) none none m
  | .ldy (.imm _) => some 0xA0
  | .ldy (.mem m) => memOpcode (some 0xA4) (some 0xB4) none (some 0xAC) (some 0xBC) none none none m
  | .sta m => memOpcode (some 0x85) (some 0x95) none (some 0x8D) (some 0x9D) (some 0x99) (some 0x81) (some 0x91) m
  | .stx m => memOpcode (some 0x86) none (some 0x96) (some 0x8E) none none none none m
  | .sty m => memOpcode (some 0x84) (some 0x94) none (some 0x8C) none none none none m
  | .tax => some 0xAA
  | .tay => some 0xA8
  | .txa => some 0x8A
  | .tya => some 0x98
  | .tsx => some 0xBA
  | .txs => some 0x9A
  | .cmp o => accOpcode 0xC9 0xC5 0xD5 0xCD 0xDD 0xD9 0xC1 0xD1 o
  | .cpx o => plainOpcode 0xE0 0xE4 0xEC o
  | .cpy o => plainOpcode 0xC0 0xC4 0xCC o
  | .inc m => modifyOpcode 0xE6 0xF6 0xEE 0xFE m
  | .dec m => modifyOpcode 0xC6 0xD6 0xCE 0xDE m
  | .inx => some 0xE8
  | .iny => some 0xC8
  | .dex => some 0xCA
  | .dey => some 0x88
  | .bpl _ => some 0x10
  | .bmi _ => some 0x30
  | .bvc _ => some 0x50
  | .bvs _ => some 0x70
  | .bcc _ => some 0x90
  | .bcs _ => some 0xB0
  | .bne _ => some 0xD0
  | .beq _ => some 0xF0
  | .jmp (.abs _) => some 0x4C
  | .jmp (.ind _) => some 0x6C
  | .jsr _ => some 0x20
  | .rts => some 0x60
  | .pha => some 0x48
  | .php => some 0x08
  | .pla => some 0x68
  | .plp => some 0x28
  | .clc => some 0x18
  | .sec => some 0x38
  | .cli => some 0x58
  | .sei => some 0x78
  | .clv => some 0xB8
  | .cld => some 0xD8
  | .sed => some 0xF8
  | .brk => some 0x00
  | .rti => some 0x40
  | .nop => some 0xEA
  | .undefined op => if undefinedBytes.contains op then some op else none

/-- A word as operand bytes, low byte first (20_memory.md R79). -/
def wordBytes (w : Word) : List Byte := [loByte w, hiByte w]

/-- The operand bytes of a memory operand. -/
def MemOperand.bytes : MemOperand → List Byte
  | .zp b | .zpx b | .zpy b | .indx b | .indy b => [b]
  | .abs w | .absx w | .absy w => wordBytes w

/-- The operand bytes of a read operand. -/
def ReadOperand.bytes : ReadOperand → List Byte
  | .imm v => [v]
  | .mem m => m.bytes

/-- The operand bytes of a shift operand. -/
def ShiftOperand.bytes : ShiftOperand → List Byte
  | .acc => []
  | .mem m => m.bytes

/-- The operand bytes of a jump operand. -/
def JumpOperand.bytes : JumpOperand → List Byte
  | .abs w | .ind w => wordBytes w

/-- The bytes after the opcode byte. BRK's padding byte and the nominal operand bytes of an undefined byte carry nothing;
the encoder writes them as 0x00 (log 12). -/
def operandBytes : Instr → List Byte
  | .adc o | .sbc o | .and o | .ora o | .eor o | .lda o | .ldx o | .ldy o | .cmp o | .cpx o | .cpy o => o.bytes
  | .bit m | .sta m | .stx m | .sty m | .inc m | .dec m => m.bytes
  | .asl o | .lsr o | .rol o | .ror o => o.bytes
  | .bpl d | .bmi d | .bvc d | .bvs d | .bcc d | .bcs d | .bne d | .beq d => [d]
  | .jmp o => o.bytes
  | .jsr w => wordBytes w
  | .brk => [0x00]
  | .undefined op => List.replicate ((decodeEntry op).length - 1) 0x00
  | .tax | .tay | .txa | .tya | .tsx | .txs | .inx | .iny | .dex | .dey | .rts | .pha | .php | .pla | .plp => []
  | .clc | .sec | .cli | .sei | .clv | .cld | .sed | .rti | .nop => []

/-- The bytes of a well-formed instruction; none where the instruction has no opcode byte. -/
def encode (i : Instr) : Option (List Byte) :=
  (opcodeOf i).map fun op => op :: operandBytes i

/-! ## What the table says of an instruction -/

/-- The decode entry of an instruction that has an opcode byte. -/
def entryOf (i : Instr) : Option DecodeEntry :=
  (opcodeOf i).map decodeEntry

/-- The cycle count of 40_execution_cycle.md R128 before any branch extra: the entry's base count, plus 1 when the entry
takes the page penalty and the index addition crossed a page. 0 for a term that has no opcode byte (log 15). -/
def cyclesOf (i : Instr) (crossed : Bool) : Nat :=
  match entryOf i with
  | some e => e.baseCycles + (if e.pagePenalty && crossed then 1 else 0)
  | none => 0

end Sys2Proof
end

