-- ==== Sys2Proof/Config.lean ====
section
/-! DEFINITION. What the environment fixes: the named parameters of 00_scope.md R10, the shape of a bus event, and
the opaque constants that stand for what the spec leaves to the host (device handlers, UNDEF_NOP_CYCLES). -/

namespace Sys2Proof

/-- `UNDEFINED_POLICY` (49_brk_rti_nop_undefined.md R252): what a step at an undefined byte does. -/
inductive UndefinedPolicy where
  /-- The step returns `IllegalOpcode(op, pc)` and changes no register, flag or memory byte (R253); the default. -/
  | report
  /-- The step skips the instruction's nominal bytes (R254). -/
  | nop
deriving DecidableEq, Repr, Inhabited

/-- The parameters the model takes as arguments (R10). They are plain data that no step writes (log 7). -/
structure Params where
  undefinedPolicy : UndefinedPolicy
  /-- `NMI_VECTOR` (60_exceptions.md R263). -/
  nmiVector : Word
  /-- `INT_PUSH_B` (R265): bit 4 of the status byte an IRQ or NMI entry pushes. -/
  intPushB : Bool
deriving DecidableEq, Repr, Inhabited

/-- The defaults of R10: `Report`, 0xFFFE, 1. -/
def Params.default : Params :=
  { undefinedPolicy := .report, nmiVector := 0xFFFE, intPushB := true }

/-- One event of the access history (20_memory.md R71): a bus read with the byte it returned, or a bus write. -/
inductive BusEvent where
  | read (a : Word) (v : Byte)
  | write (a : Word) (v : Byte)
deriving DecidableEq, Repr, Inhabited

/-- The address an event accessed. -/
def BusEvent.addr : BusEvent → Word
  | .read a _ => a
  | .write a _ => a

/-- Memory behind the bus port (20_memory.md R70): the bytes that differ from what an unlisted address reads as, by
rising address. Machine/Memory.lean has its operations and its canonical form. -/
abbrev Memory := List Host.Cell

/-- What a device handler does for one read: the byte it supplies, if any, and the bytes of memory it writes
meanwhile (20_memory.md R72, R95). -/
structure DeviceAnswer where
  value : Option Byte
  writes : List (Word × Byte)
deriving DecidableEq, Repr, Inhabited

namespace Config

/-- A device handler's answer to a read (R72: "a host-supplied function of the access history"), for the handler's
number, the history before the read, the memory it may look at (R95) and the address. FREE: no body (log 4). -/
opaque deviceRead : Nat → List BusEvent → Memory → Word → DeviceAnswer

/-- The bytes of memory a device handler writes when a write is forwarded to it (R73, R95). FREE: no body (log 4). -/
opaque deviceWrite : Nat → List BusEvent → Memory → Word → Byte → List (Word × Byte)

/-- `UNDEF_NOP_CYCLES` (R254, OPEN in 92_eei_decisions.md D28). FREE: no body (log 8). -/
opaque undefNopCycles : Byte → Nat

end Config

end Sys2Proof
end

