-- ==== Sys2Proof/Machine/Memory.lean ====
section
/-! DEFINITION. The 65536 byte locations behind the bus port (20_memory.md R70), held as a list of (address, byte) pairs in
one canonical form: addresses rise strictly, and no pair holds what an unlisted address reads as. -/

namespace Sys2Proof.Machine

/-- What an address that is not listed reads as. The spec leaves power-on memory unspecified (10_state.md R58);
DESIGN CHOICE 0x00 (log 3), unsafe for claims about a run from `State.reset`. -/
def unlistedByte : Byte := 0x00

/-- The byte at an address. -/
def memRead (m : Memory) (a : Nat) : Byte :=
  match m with
  | [] => unlistedByte
  | c :: rest => if c.1 = a then c.2 else memRead rest a

/-- The pairs of every other address. -/
def memErase (m : Memory) (a : Nat) : Memory :=
  m.filter fun c => c.1 != a

/-- A pair put before the first higher address. -/
def memInsert (a : Nat) (v : Byte) (m : Memory) : Memory :=
  match m with
  | [] => [(a, v)]
  | c :: rest => if a < c.1 then (a, v) :: c :: rest else c :: memInsert a v rest

/-- `M[a] <- v` (R73). Writing what an unlisted address reads as removes the pair. -/
def memWrite (m : Memory) (a : Nat) (v : Byte) : Memory :=
  if v = unlistedByte then memErase m a else memInsert a v (memErase m a)

/-- Every address of the list is above `lo`. -/
def memAbove (lo : Nat) (m : Memory) : Bool :=
  m.all fun c => decide (lo < c.1)

/-- The canonical form: addresses below 65536 and strictly rising, no pair equal to what an unlisted address reads as. -/
def Memory.wf : Memory → Bool
  | [] => true
  | c :: rest => decide (c.1 < 65536) && c.2 != unlistedByte && memAbove c.1 rest && Memory.wf rest

/-- A list of byte writes, the first of the list first (the writes of a device handler, R95). -/
def memWriteAll (m : Memory) (ws : List (Word × Byte)) : Memory :=
  match ws with
  | [] => m
  | w :: rest => memWriteAll (memWrite m w.1.toNat w.2) rest

/-- What the CORE's own writes of a history, newest event first, make of a memory. -/
def memReplay (m : Memory) (es : List BusEvent) : Memory :=
  match es with
  | [] => m
  | .read _ _ :: older => memReplay m older
  | .write a v :: older => memWrite (memReplay m older) a.toNat v

end Sys2Proof.Machine
end

