-- ==== Sys2Proof/Machine/State.lean ====
section
/-! DEFINITION. The state of the CORE and of the memory behind its bus port (10_state.md), as plain data, the state after
reset, and the reasons a step can stop. -/

namespace Sys2Proof.Machine

/-- The stored flags of `P` (10_state.md R40). Bit 5, `U`, is hard-wired to 1 (R41) and is not stored. -/
structure Status where
  n : Bool
  v : Bool
  b : Bool
  d : Bool
  i : Bool
  z : Bool
  c : Bool
deriving DecidableEq, Repr, Inhabited

/-- The control FSM's boundary state (R52). -/
inductive Fsm where
  | powerOn
  | ready
deriving DecidableEq, Repr, Inhabited

/-- A device window: the addresses `first` to `last`, answered by the handler numbered `handler` (20_memory.md R72). -/
structure Window where
  first : Word
  last : Word
  handler : Nat
deriving DecidableEq, Repr, Inhabited

/-- The state (INVENTORY.md, "State"). -/
structure State where
  /-- accumulator (R34) -/
  a : Byte
  /-- index register X (R35) -/
  x : Byte
  /-- index register Y (R36) -/
  y : Byte
  /-- stack pointer (R37) -/
  s : Byte
  /-- program counter (R38) -/
  pc : Word
  /-- status register (R40) -/
  p : Status
  /-- the control FSM's boundary state (R52) -/
  fsm : Fsm
  /-- the NMI latch (R53) -/
  nmiPending : Bool
  /-- the IRQ level (R54) -/
  irqLine : Bool
  /-- the sum of the cycle counts of every step since power-on (R55) -/
  cycleTotal : Nat
  /-- the memory behind the bus port (20_memory.md R70) -/
  mem : Memory
  /-- the device windows the host registered (R72), the newest first -/
  windows : List Window
  /-- the access history of the bus port (R71), the newest event first (log 10) -/
  history : List BusEvent
  /-- the parameters of 00_scope.md R10; no step writes them (log 7) -/
  params : Params
deriving DecidableEq, Repr, Inhabited

/-- The machine after power-on and the host's `reset()` (70_reset_and_hazards.md R290, 10_state.md R59): `S`, `P.I`, `fsm`,
`nmi_pending`, `irq_line` and `cycle_total` as the spec gives them; `PC` the word at 0xFFFC of a memory that lists nothing;
the two vector reads in the history. `A`, `X`, `Y` and the other flags are unspecified at power-on (R58) and unchanged by
reset: DESIGN CHOICE zero (log 2). -/
def State.reset : State :=
  { a := 0x00, x := 0x00, y := 0x00, s := 0xFF, pc := 0x0000
    p := { n := false, v := false, b := false, d := false, i := true, z := false, c := false }
    fsm := .ready, nmiPending := false, irqLine := false, cycleTotal := 0
    mem := [], windows := []
    history := [.read 0xFFFD 0x00, .read 0xFFFC 0x00]
    params := Params.default }

/-- Why a step stops: the two reports of 60_exceptions.md R260 (93_implementation_defined.md U4, U9: treatment "fault"). -/
inductive Fault where
  /-- `NotReset` (40_execution_cycle.md R121): raised by `step` before the first `reset()`. Safe: the spec gives this
  outcome. -/
  | notReset
  /-- `IllegalOpcode(op, pc)` (49_brk_rti_nop_undefined.md R253): raised by an undefined byte under `Report`. `after` is the
  machine the report leaves: the one before the step with the one bus access R253 names, the opcode read, made (log 9). Safe:
  the spec gives this outcome. -/
  | illegalOpcode (op : Byte) (pc : Word) (after : State)
deriving DecidableEq, Repr

/-- Why the model has no meaning for an instruction. No arm of exec uses it. -/
inductive Refusal where
  /-- Raised by an arm of exec that has no meaning yet. Safe: nothing is claimed of the instruction. -/
  | notModelled (mnemonic : String)
deriving DecidableEq, Repr

/-- The outcome of a step or of an instruction's meaning. -/
abbrev Result := Host.Outcome State Fault Refusal

end Sys2Proof.Machine
end

