-- ==== Sys2Proof/Machine/Flags.lean ====
section
/-! DEFINITION. 6502_alu (42_alu.md): pure functions of bytes and a carry, each with its result and its flags; and the byte
form of `P` (10_state.md R42, R43). -/

namespace Sys2Proof.Machine

/-- The outputs of the ALU (R160). A function that the spec gives no `v` or no carry leaves the field false; no
instruction copies it. -/
structure AluResult where
  r : Byte
  n : Bool
  v : Bool
  z : Bool
  c : Bool
deriving DecidableEq, Repr, Inhabited

/-- Bit 7 of a byte. -/
def isNegative (v : Byte) : Bool := v.getLsbD 7

/-- A byte is zero. -/
def isZero (v : Byte) : Bool := v == 0

/-- The value 0 or 1 of a carry. -/
def carryNat (c : Bool) : Nat := if c then 1 else 0

/-- `AddBinary(a, b, c)` (R162). -/
def addBinary (a b : Byte) (c : Bool) : AluResult :=
  let sum := a.toNat + b.toNat + carryNat c
  let r : Byte := BitVec.ofNat 8 sum
  { r, n := isNegative r, v := ((a ^^^ r) &&& (b ^^^ r) &&& 0x80) != 0, z := isZero r, c := decide (0xFF < sum) }

/-- `SubBinary(a, b, c)` (R163): the carry in is "not borrow". -/
def subBinary (a b : Byte) (c : Bool) : AluResult :=
  addBinary a (b ^^^ 0xFF) c

/-- The low digit of a decimal sum with its carry into the high digit (R165, the first two lines). -/
def addDecimalLow (a b : Byte) (c : Bool) : Nat :=
  let lo := (a &&& 0x0F).toNat + (b &&& 0x0F).toNat + carryNat c
  if 0x0A ≤ lo then (lo + 0x06) % 16 + 0x10 else lo

/-- `AddDecimal(a, b, c)` (R165): the NMOS algorithm, invalid digits included (log 14). -/
def addDecimal (a b : Byte) (c : Bool) : AluResult :=
  let lo := addDecimalLow a b c
  let t := (a &&& 0xF0).toNat + (b &&& 0xF0).toNat + lo
  let ts : Int := (a &&& 0xF0).toInt + (b &&& 0xF0).toInt + lo
  let t' := if 0xA0 ≤ t then t + 0x60 else t
  { r := BitVec.ofNat 8 t', n := isNegative (BitVec.ofInt 8 ts), v := decide (ts < -128) || decide (127 < ts)
    z := isZero (BitVec.ofNat 8 (a.toNat + b.toNat + carryNat c)), c := decide (0x100 ≤ t') }

/-- The low digit of a decimal difference with its borrow from the high digit (R166). -/
def subDecimalLow (a b : Byte) (c : Bool) : Int :=
  let lo : Int := ((a &&& 0x0F).toNat : Int) - (b &&& 0x0F).toNat + carryNat c - 1
  if lo < 0 then (lo - 0x06) % 16 - 0x10 else lo

/-- The result byte of `SubDecimal(a, b, c)` (R166). -/
def subDecimalByte (a b : Byte) (c : Bool) : Byte :=
  let t : Int := ((a &&& 0xF0).toNat : Int) - (b &&& 0xF0).toNat + subDecimalLow a b c
  BitVec.ofInt 8 (if t < 0 then t - 0x60 else t)

/-- `SubDecimal(a, b, c)` (R166): the decimal result byte with the flags of the binary subtraction. -/
def subDecimal (a b : Byte) (c : Bool) : AluResult :=
  { subBinary a b c with r := subDecimalByte a b c }

/-- The addition of ADC, selected by `P.D` (R164, R180). -/
def adcResult (d : Bool) (a b : Byte) (c : Bool) : AluResult :=
  if d then addDecimal a b c else addBinary a b c

/-- The subtraction of SBC, selected by `P.D` (R164, R181). -/
def sbcResult (d : Bool) (a b : Byte) (c : Bool) : AluResult :=
  if d then subDecimal a b c else subBinary a b c

/-- A result whose flags are those of `update_zero_negative` (R161) and a carry out. -/
def resultNZC (r : Byte) (c : Bool) : AluResult :=
  { r, n := isNegative r, v := false, z := isZero r, c }

/-- `ShiftLeft(x)` (R168); the carry in is not used. -/
def shiftLeft (x : Byte) (_ : Bool) : AluResult :=
  resultNZC (x <<< 1) (x.getLsbD 7)

/-- `ShiftRight(x)` (R169); the carry in is not used. -/
def shiftRight (x : Byte) (_ : Bool) : AluResult :=
  resultNZC (x >>> 1) (x.getLsbD 0)

/-- `RotateLeft(x, c)` (R170). -/
def rotateLeft (x : Byte) (c : Bool) : AluResult :=
  resultNZC ((x <<< 1) ||| carryByte c) (x.getLsbD 7)

/-- `RotateRight(x, c)` (R171). -/
def rotateRight (x : Byte) (c : Bool) : AluResult :=
  resultNZC ((x >>> 1) ||| (carryByte c <<< 7)) (x.getLsbD 0)

/-- `Increment(x)` (R172). -/
def increment (x : Byte) : Byte := x + 1

/-- `Decrement(x)` (R172). -/
def decrement (x : Byte) : Byte := x - 1

/-- `Compare(r0, m)` (R173): the flags of an unsigned comparison. -/
def compareBytes (r0 m : Byte) : AluResult :=
  let t := r0 - m
  { r := t, n := isNegative t, v := false, z := r0 == m, c := decide (m.toNat ≤ r0.toNat) }

/-- `update_zero_negative(v)` on the flags (R161). -/
def Status.setZN (p : Status) (v : Byte) : Status :=
  { p with z := isZero v, n := isNegative v }

/-- The flags N, Z and C of a result. -/
def Status.setNZC (p : Status) (q : AluResult) : Status :=
  { p with n := q.n, z := q.z, c := q.c }

/-- The flags N, V, Z and C of a result. -/
def Status.setNVZC (p : Status) (q : AluResult) : Status :=
  { p with n := q.n, v := q.v, z := q.z, c := q.c }

/-- The flags of `BitTest(a, m)` (R174). -/
def Status.setBitTest (p : Status) (a m : Byte) : Status :=
  { p with z := isZero (a &&& m), n := isNegative m, v := m.getLsbD 6 }

/-- The value `2 ^ k` or 0 of a flag at bit `k`. -/
def flagBit (f : Bool) (k : Nat) : Byte := if f then 1 <<< k else 0

/-- `PackP(b)` (10_state.md R42): N V 1 b D I Z C as bits 7 to 0. The live B flag is not in it. -/
def packP (b : Bool) (p : Status) : Byte :=
  flagBit p.n 7 ||| flagBit p.v 6 ||| 0x20 ||| flagBit b 4 ||| flagBit p.d 3 ||| flagBit p.i 2 ||| flagBit p.z 1 |||
    flagBit p.c 0

/-- `UnpackP(v)` (10_state.md R43): bit 5 is discarded. -/
def unpackP (v : Byte) : Status :=
  { n := v.getLsbD 7, v := v.getLsbD 6, b := v.getLsbD 4, d := v.getLsbD 3, i := v.getLsbD 2, z := v.getLsbD 1
    c := v.getLsbD 0 }

end Sys2Proof.Machine
end

