-- ==== Sys2Proof/Machine/Ops.lean ====
section
/-! DEFINITION. The named operations over registers, bus port and stack (10_state.md, 20_memory.md), and the entry into a
handler and the return from it (60_exceptions.md). An operation that accesses the bus answers the state after the access. -/

namespace Sys2Proof.Machine

/-! ## Register writes (10_state.md R31, R32) -/

def State.setA (s : State) (v : Byte) : State := { s with a := v }
def State.setX (s : State) (v : Byte) : State := { s with x := v }
def State.setY (s : State) (v : Byte) : State := { s with y := v }
def State.setS (s : State) (v : Byte) : State := { s with s := v }
def State.setPc (s : State) (v : Word) : State := { s with pc := v }
def State.setP (s : State) (v : Status) : State := { s with p := v }
def State.setMem (s : State) (m : Memory) : State := { s with mem := m }

/-- `update_zero_negative(v)` (42_alu.md R161). -/
def State.setZN (s : State) (v : Byte) : State := s.setP (s.p.setZN v)

/-- `cycle_total <- cycle_total + cycles` (40_execution_cycle.md R122). -/
def State.addCycles (s : State) (n : Nat) : State := { s with cycleTotal := s.cycleTotal + n }

/-- An event joins the access history (20_memory.md R71). -/
def State.record (s : State) (e : BusEvent) : State := { s with history := e :: s.history }

/-- `nmi_pending <- 0` (60_exceptions.md R261). -/
def State.clearNmi (s : State) : State := { s with nmiPending := false }

/-! ## The bus port (20_memory.md R71 to R75) -/

/-- The address lies in the window. -/
def Window.covers (w : Window) (a : Word) : Bool :=
  decide (w.first.toNat ≤ a.toNat) && decide (a.toNat ≤ w.last.toNat)

/-- The handler of the first window that covers the address (log 4). -/
def deviceIn (ws : List Window) (a : Word) : Option Nat :=
  match ws with
  | [] => none
  | w :: rest => if w.covers a then some w.handler else deviceIn rest a

/-- The handler that answers for the address, if it is in a device window. -/
def State.deviceAt (s : State) (a : Word) : Option Nat := deviceIn s.windows a

/-- What `BusRead(a)` returns and what a device handler writes meanwhile (R72, R95). A handler that supplies no value
reads as 0x00 (92_eei_decisions.md D14). -/
def busAnswer (a : Word) (s : State) : Byte × Memory :=
  match s.deviceAt a with
  | none => (memRead s.mem a.toNat, s.mem)
  | some h =>
    let answer := Config.deviceRead h s.history s.mem a
    (answer.value.getD 0x00, memWriteAll s.mem answer.writes)

/-- `BusRead(a)`: the byte, and the state with the event recorded. -/
def busRead (a : Word) (s : State) : Byte × State :=
  ((busAnswer a s).1, (s.setMem (busAnswer a s).2).record (.read a (busAnswer a s).1))

/-- The memory after `BusWrite(a, v)` (R73): in a device window only what the handler writes changes it (log 5). -/
def busStored (a : Word) (v : Byte) (s : State) : Memory :=
  match s.deviceAt a with
  | none => memWrite s.mem a.toNat v
  | some h => memWriteAll s.mem (Config.deviceWrite h s.history s.mem a v)

/-- `BusWrite(a, v)`: the state with the byte written and the event recorded. -/
def busWrite (a : Word) (v : Byte) (s : State) : State :=
  (s.setMem (busStored a v s)).record (.write a v)

/-- The word of two bytes read, the low byte first. -/
def readPair (lo hi : Word) (s : State) : Word × State :=
  let l := busRead lo s
  let h := busRead hi l.2
  (wordOf h.1 l.1, h.2)

/-- `ReadWord(a)` (R76). -/
def readWord (a : Word) (s : State) : Word × State := readPair a (a + 1) s

/-- `ReadWordZP(z)` (R77): the second byte's address wraps within page 0. -/
def readWordZP (z : Byte) (s : State) : Word × State := readPair (zext z) (zext (z + 1)) s

/-- `ReadWordPageWrap(p)` (R78): the second byte's address wraps within the pointer's page. -/
def readWordPageWrap (p : Word) (s : State) : Word × State :=
  readPair p (wordOf (hiByte p) (loByte p + 1)) s

/-! ## The stack (20_memory.md R82 to R86) -/

/-- The stack byte that the stack pointer value addresses: `0x0100 + S` (10_state.md R37). -/
def stackAddr (sp : Byte) : Word := wordOf 0x01 sp

/-- `Push(v)` (R82). -/
def push (v : Byte) (s : State) : State :=
  (busWrite (stackAddr s.s) v s).setS (s.s - 1)

/-- `Pull()` (R83). -/
def pull (s : State) : Byte × State :=
  busRead (stackAddr (s.s + 1)) (s.setS (s.s + 1))

/-- `PushWord(w)` (R84): high byte first. -/
def pushWord (w : Word) (s : State) : State :=
  push (loByte w) (push (hiByte w) s)

/-- `PullWord()` (R85): low byte first. -/
def pullWord (s : State) : Word × State :=
  let lo := pull s
  let hi := pull lo.2
  (wordOf hi.1 lo.1, hi.2)

/-! ## Entering a handler and returning from it -/

/-- `RESET_VECTOR` (00_scope.md R11). -/
def resetVector : Word := 0xFFFC

/-- `IRQ_BRK_VECTOR` (00_scope.md R11). -/
def irqBrkVector : Word := 0xFFFE

/-- The entry that BRK (49_brk_rti_nop_undefined.md R250), IRQ and NMI (60_exceptions.md R264) share: `PC` pushed high byte
first, then the status byte with bit 4 as given, then `P.I` set, then `PC` loaded from the vector. -/
def enterHandler (vector : Word) (b : Bool) (s : State) : State :=
  let saved := push (packP b s.p) (pushWord s.pc s)
  let masked := saved.setP { saved.p with i := true }
  let target := readWord vector masked
  target.2.setPc target.1

/-- The return of RTI (49_brk_rti_nop_undefined.md R251): `P`, then `PC`, with no `+ 1`. -/
def returnFromHandler (s : State) : State :=
  let status := pull s
  let target := pullWord (status.2.setP (unpackP status.1))
  target.2.setPc target.1

end Sys2Proof.Machine
end

