-- ==== Sys2Proof/Machine/Operands.lean ====
section
/-! DEFINITION. 6502_addressing_mode_resolver (41_addressing_modes.md) and the operand accesses that instructions share. -/

namespace Sys2Proof.Machine

/-- What the resolver gives for a memory operand: `Mem(ea)`, `crossed` and the state after its pointer reads (R140). -/
structure Resolved where
  ea : Word
  crossed : Bool
  st : State

/-- An address that an index register is added to (R148, R149, R152). -/
def indexed (base : Word) (index : Byte) (s : State) : Resolved :=
  { ea := base + zext index, crossed := pagesDiffer base (base + zext index), st := s }

/-- The effective address of each memory mode (R144 to R149, R151, R152). -/
def resolve (m : MemOperand) (s : State) : Resolved :=
  match m with
  | .zp b => ⟨zext b, false, s⟩
  | .zpx b => ⟨zext (b + s.x), false, s⟩
  | .zpy b => ⟨zext (b + s.y), false, s⟩
  | .abs w => ⟨w, false, s⟩
  | .absx w => indexed w s.x s
  | .absy w => indexed w s.y s
  | .indx b => ⟨(readWordZP (b + s.x) s).1, false, (readWordZP (b + s.x) s).2⟩
  | .indy b => indexed (readWordZP b s).1 s.y (readWordZP b s).2

/-- An operand that has been read: `LoadOperand(opnd)` (R156). -/
structure Loaded where
  value : Byte
  crossed : Bool
  st : State

/-- `LoadOperand(Mem(ea))`, after the resolver's reads. -/
def loadMem (m : MemOperand) (s : State) : Loaded :=
  let q := resolve m s
  let r := busRead q.ea q.st
  ⟨r.1, q.crossed, r.2⟩

/-- `LoadOperand(opnd)` of an immediate or memory operand. -/
def loadOperand (o : ReadOperand) (s : State) : Loaded :=
  match o with
  | .imm v => ⟨v, false, s⟩
  | .mem m => loadMem m s

/-- `MemWrite(ea, 1, v)`, after the resolver's reads. No data read of `ea` is made (20_memory.md R88). -/
def storeMem (m : MemOperand) (v : Byte) (s : State) : State :=
  let q := resolve m s
  busWrite q.ea v q.st

/-- The target of a relative branch: `u16(PC + sext_8(b1))` (R153). -/
def branchTarget (off : Byte) (s : State) : Word := s.pc + sext off

/-- A jump's target and the state after the resolver's pointer reads (R147, R150). -/
def resolveJump (o : JumpOperand) (s : State) : Word × State :=
  match o with
  | .abs w => (w, s)
  | .ind p => readWordPageWrap p s

/-! ## Operand shapes that instructions share -/

/-- The accumulator takes a function of itself and the operand, with N and Z (AND, ORA, EOR, LDA). -/
def accumulate (i : Instr) (o : ReadOperand) (f : Byte → Byte → Byte) (s : State) : State :=
  let q := loadOperand o s
  ((q.st.setA (f q.st.a q.value)).setZN (f q.st.a q.value)).addCycles (cyclesOf i q.crossed)

/-- The accumulator and N, V, Z, C take the result of an addition or subtraction that `P.D` selects (ADC, SBC). -/
def accumulateCarry (i : Instr) (o : ReadOperand) (f : Bool → Byte → Byte → Bool → AluResult) (s : State) : State :=
  let q := loadOperand o s
  let r := f q.st.p.d q.st.a q.value q.st.p.c
  ((q.st.setA r.r).setP (q.st.p.setNVZC r)).addCycles (cyclesOf i q.crossed)

/-- N, Z and C compare a register with the operand (CMP, CPX, CPY). -/
def compareWith (i : Instr) (o : ReadOperand) (register : State → Byte) (s : State) : State :=
  let q := loadOperand o s
  (q.st.setP (q.st.p.setNZC (compareBytes (register q.st) q.value))).addCycles (cyclesOf i q.crossed)

/-- A register's value goes to memory (STA, STX, STY). -/
def storeRegister (i : Instr) (m : MemOperand) (v : Byte) (s : State) : State :=
  (storeMem m v s).addCycles (cyclesOf i false)

/-- Read-modify-write of a memory byte: one read of `ea`, then one write (20_memory.md R88); the flags as given. -/
def modifyMem (i : Instr) (m : MemOperand) (f : Byte → Bool → Byte) (flags : Status → Byte → Status) (s : State) : State :=
  let q := resolve m s
  let x := busRead q.ea q.st
  ((busWrite q.ea (f x.1 x.2.p.c) x.2).setP (flags x.2.p x.1)).addCycles (cyclesOf i false)

/-- A shift or rotate of its operand, with N, Z and C (ASL, LSR, ROL, ROR). The old carry is read first (R192). -/
def shiftOperand (i : Instr) (o : ShiftOperand) (f : Byte → Bool → AluResult) (s : State) : State :=
  match o with
  | .acc => ((s.setA (f s.a s.p.c).r).setP (s.p.setNZC (f s.a s.p.c))).addCycles (cyclesOf i false)
  | .mem m => modifyMem i m (fun x c => (f x c).r) (fun p x => p.setNZC (f x p.c)) s

/-- Increment or decrement of a memory byte, with N and Z (INC, DEC). -/
def stepMem (i : Instr) (m : MemOperand) (f : Byte → Byte) (s : State) : State :=
  modifyMem i m (fun x _ => f x) (fun p x => p.setZN (f x)) s

/-- `Branch(cond)` (47_branch_jump_call.md R220): one more cycle when taken, and one more when the target is in another
page than the next instruction. -/
def branchOn (i : Instr) (cond : Bool) (off : Byte) (s : State) : State :=
  let target := branchTarget off s
  if cond then
    (s.setPc target).addCycles (cyclesOf i false + 1 + (if pagesDiffer target s.pc then 1 else 0))
  else s.addCycles (cyclesOf i false)

/-- A change of one flag (48_stack_flags.md R239 to R245). -/
def changeFlags (i : Instr) (p : Status) (s : State) : State :=
  (s.setP p).addCycles (cyclesOf i false)

end Sys2Proof.Machine
end

