-- ==== Sys2Proof/Machine/ArithLogic.lean ====
section
/-! DEFINITION. The arithmetic and logical instructions (43_arith_logic.md). -/

namespace Sys2Proof.Machine

/-- ADC (R180): add the operand and the carry to A; binary or decimal by `P.D`. -/
def execAdc (o : ReadOperand) (s : State) : Result :=
  .next (accumulateCarry (.adc o) o adcResult s)

/-- SBC (R181): subtract the operand and the borrow from A; the flags stay binary in decimal mode. -/
def execSbc (o : ReadOperand) (s : State) : Result :=
  .next (accumulateCarry (.sbc o) o sbcResult s)

/-- AND (R182). -/
def execAnd (o : ReadOperand) (s : State) : Result :=
  .next (accumulate (.and o) o (fun a m => a &&& m) s)

/-- ORA (R183). -/
def execOra (o : ReadOperand) (s : State) : Result :=
  .next (accumulate (.ora o) o (fun a m => a ||| m) s)

/-- EOR (R184). -/
def execEor (o : ReadOperand) (s : State) : Result :=
  .next (accumulate (.eor o) o (fun a m => a ^^^ m) s)

/-- BIT (R185): N and V from the memory byte, Z from its conjunction with A. -/
def execBit (m : MemOperand) (s : State) : Result :=
  let q := loadMem m s
  .next ((q.st.setP (q.st.p.setBitTest q.st.a q.value)).addCycles (cyclesOf (.bit m) q.crossed))

end Sys2Proof.Machine
end

