-- ==== Sys2Proof/Machine/CompareIncDec.lean ====
section
/-! DEFINITION. The compare, increment and decrement instructions (46_compare_incdec.md). -/

namespace Sys2Proof.Machine

/-- CMP (R210): unsigned, binary whatever `P.D` is (R164). -/
def execCmp (o : ReadOperand) (s : State) : Result :=
  .next (compareWith (.cmp o) o State.a s)

/-- CPX (R211): unsigned, binary whatever `P.D` is (R164). -/
def execCpx (o : ReadOperand) (s : State) : Result :=
  .next (compareWith (.cpx o) o State.x s)

/-- CPY (R212): unsigned, binary whatever `P.D` is (R164). -/
def execCpy (o : ReadOperand) (s : State) : Result :=
  .next (compareWith (.cpy o) o State.y s)

/-- INC (R213). -/
def execInc (m : MemOperand) (s : State) : Result :=
  .next (stepMem (.inc m) m increment s)

/-- DEC (R214). -/
def execDec (m : MemOperand) (s : State) : Result :=
  .next (stepMem (.dec m) m decrement s)

/-- INX (R215). -/
def execInx (s : State) : Result :=
  .next (((s.setX (increment s.x)).setZN (increment s.x)).addCycles (cyclesOf .inx false))

/-- INY (R216). -/
def execIny (s : State) : Result :=
  .next (((s.setY (increment s.y)).setZN (increment s.y)).addCycles (cyclesOf .iny false))

/-- DEX (R217). -/
def execDex (s : State) : Result :=
  .next (((s.setX (decrement s.x)).setZN (decrement s.x)).addCycles (cyclesOf .dex false))

/-- DEY (R218). -/
def execDey (s : State) : Result :=
  .next (((s.setY (decrement s.y)).setZN (decrement s.y)).addCycles (cyclesOf .dey false))

end Sys2Proof.Machine
end

