-- ==== Sys2Proof/Machine/Control.lean ====
section
/-! DEFINITION. The branches, jumps, subroutine call and return (47_branch_jump_call.md). -/

namespace Sys2Proof.Machine

/-- BPL (R221): branch if N = 0. -/
def execBpl (off : Byte) (s : State) : Result :=
  .next (branchOn (.bpl off) (!s.p.n) off s)

/-- BMI (R222): branch if N = 1. -/
def execBmi (off : Byte) (s : State) : Result :=
  .next (branchOn (.bmi off) s.p.n off s)

/-- BVC (R223): branch if V = 0. -/
def execBvc (off : Byte) (s : State) : Result :=
  .next (branchOn (.bvc off) (!s.p.v) off s)

/-- BVS (R224): branch if V = 1. -/
def execBvs (off : Byte) (s : State) : Result :=
  .next (branchOn (.bvs off) s.p.v off s)

/-- BCC (R225): branch if C = 0. -/
def execBcc (off : Byte) (s : State) : Result :=
  .next (branchOn (.bcc off) (!s.p.c) off s)

/-- BCS (R226): branch if C = 1. -/
def execBcs (off : Byte) (s : State) : Result :=
  .next (branchOn (.bcs off) s.p.c off s)

/-- BNE (R227): branch if Z = 0. -/
def execBne (off : Byte) (s : State) : Result :=
  .next (branchOn (.bne off) (!s.p.z) off s)

/-- BEQ (R228): branch if Z = 1. -/
def execBeq (off : Byte) (s : State) : Result :=
  .next (branchOn (.beq off) s.p.z off s)

/-- JMP (R229). -/
def execJmp (o : JumpOperand) (s : State) : Result :=
  let q := resolveJump o s
  .next ((q.2.setPc q.1).addCycles (cyclesOf (.jmp o) false))

/-- JSR (R230): the address of the call's last byte is pushed. -/
def execJsr (w : Word) (s : State) : Result :=
  .next (((pushWord (s.pc - 1) s).setPc w).addCycles (cyclesOf (.jsr w) false))

/-- RTS (R231): the pulled word plus 1. -/
def execRts (s : State) : Result :=
  let q := pullWord s
  .next ((q.2.setPc (q.1 + 1)).addCycles (cyclesOf .rts false))

end Sys2Proof.Machine
end

