-- ==== Sys2Proof/Machine/LoadStore.lean ====
section
/-! DEFINITION. The load, store and transfer instructions (45_load_store_transfer.md). -/

namespace Sys2Proof.Machine

/-- LDA (R195). -/
def execLda (o : ReadOperand) (s : State) : Result :=
  .next (accumulate (.lda o) o (fun _ m => m) s)

/-- LDX (R196). -/
def execLdx (o : ReadOperand) (s : State) : Result :=
  let q := loadOperand o s
  .next (((q.st.setX q.value).setZN q.value).addCycles (cyclesOf (.ldx o) q.crossed))

/-- LDY (R197). -/
def execLdy (o : ReadOperand) (s : State) : Result :=
  let q := loadOperand o s
  .next (((q.st.setY q.value).setZN q.value).addCycles (cyclesOf (.ldy o) q.crossed))

/-- STA (R198). -/
def execSta (m : MemOperand) (s : State) : Result :=
  .next (storeRegister (.sta m) m s.a s)

/-- STX (R199). -/
def execStx (m : MemOperand) (s : State) : Result :=
  .next (storeRegister (.stx m) m s.x s)

/-- STY (R200). -/
def execSty (m : MemOperand) (s : State) : Result :=
  .next (storeRegister (.sty m) m s.y s)

/-- TAX (R201). -/
def execTax (s : State) : Result :=
  .next (((s.setX s.a).setZN s.a).addCycles (cyclesOf .tax false))

/-- TAY (R202). -/
def execTay (s : State) : Result :=
  .next (((s.setY s.a).setZN s.a).addCycles (cyclesOf .tay false))

/-- TXA (R203). -/
def execTxa (s : State) : Result :=
  .next (((s.setA s.x).setZN s.x).addCycles (cyclesOf .txa false))

/-- TYA (R204). -/
def execTya (s : State) : Result :=
  .next (((s.setA s.y).setZN s.y).addCycles (cyclesOf .tya false))

/-- TSX (R205). -/
def execTsx (s : State) : Result :=
  .next (((s.setX s.s).setZN s.s).addCycles (cyclesOf .tsx false))

/-- TXS (R206): the one transfer that writes no flag (90_conflicts.md C2). -/
def execTxs (s : State) : Result :=
  .next ((s.setS s.x).addCycles (cyclesOf .txs false))

end Sys2Proof.Machine
end

