-- ==== Sys2Proof/Machine/Shift.lean ====
section
/-! DEFINITION. The shift and rotate instructions (44_shift_rotate.md). -/

namespace Sys2Proof.Machine

/-- ASL (R190). -/
def execAsl (o : ShiftOperand) (s : State) : Result :=
  .next (shiftOperand (.asl o) o shiftLeft s)

/-- LSR (R191). -/
def execLsr (o : ShiftOperand) (s : State) : Result :=
  .next (shiftOperand (.lsr o) o shiftRight s)

/-- ROL (R192): the old carry enters bit 0. -/
def execRol (o : ShiftOperand) (s : State) : Result :=
  .next (shiftOperand (.rol o) o rotateLeft s)

/-- ROR (R193): the old carry enters bit 7. -/
def execRor (o : ShiftOperand) (s : State) : Result :=
  .next (shiftOperand (.ror o) o rotateRight s)

end Sys2Proof.Machine
end

