-- ==== Sys2Proof/Machine/StackFlags.lean ====
section
/-! DEFINITION. The stack instructions and the flag set and clear instructions (48_stack_flags.md). -/

namespace Sys2Proof.Machine

/-- PHA (R235). -/
def execPha (s : State) : Result :=
  .next ((push s.a s).addCycles (cyclesOf .pha false))

/-- PHP (R236): Break and Unused forced to 1 in the pushed byte. -/
def execPhp (s : State) : Result :=
  .next ((push (packP true s.p) s).addCycles (cyclesOf .php false))

/-- PLA (R237). -/
def execPla (s : State) : Result :=
  let q := pull s
  .next (((q.2.setA q.1).setZN q.1).addCycles (cyclesOf .pla false))

/-- PLP (R238). -/
def execPlp (s : State) : Result :=
  let q := pull s
  .next ((q.2.setP (unpackP q.1)).addCycles (cyclesOf .plp false))

/-- CLC (R239). -/
def execClc (s : State) : Result :=
  .next (changeFlags .clc { s.p with c := false } s)

/-- SEC (R240). -/
def execSec (s : State) : Result :=
  .next (changeFlags .sec { s.p with c := true } s)

/-- CLI (R241). -/
def execCli (s : State) : Result :=
  .next (changeFlags .cli { s.p with i := false } s)

/-- SEI (R242). -/
def execSei (s : State) : Result :=
  .next (changeFlags .sei { s.p with i := true } s)

/-- CLV (R243). -/
def execClv (s : State) : Result :=
  .next (changeFlags .clv { s.p with v := false } s)

/-- CLD (R244). -/
def execCld (s : State) : Result :=
  .next (changeFlags .cld { s.p with d := false } s)

/-- SED (R245). -/
def execSed (s : State) : Result :=
  .next (changeFlags .sed { s.p with d := true } s)

end Sys2Proof.Machine
end

