-- ==== Sys2Proof/Machine/System.lean ====
section
/-! DEFINITION. BRK, RTI, NOP and the undefined bytes (49_brk_rti_nop_undefined.md). -/

namespace Sys2Proof.Machine

/-- BRK (R250): the entry through 0xFFFE with Break forced to 1; `PC` is already two past the opcode. -/
def execBrk (s : State) : Result :=
  .next ((enterHandler irqBrkVector true s).addCycles (cyclesOf .brk false))

/-- RTI (R251). -/
def execRti (s : State) : Result :=
  .next ((returnFromHandler s).addCycles (cyclesOf .rti false))

/-- NOP (R255). -/
def execNop (s : State) : Result :=
  .next (s.addCycles (cyclesOf .nop false))

/-- The address of an undefined byte: `PC` less the nominal length the fetch advanced it by (log 9). -/
def undefinedAt (op : Byte) (s : State) : Word :=
  s.pc - BitVec.ofNat 16 (decodeEntry op).length

/-- An undefined byte (R252): under `Report` the report with the byte and its own address, where it leaves `PC` (R253); under
`Nop` nothing but the cycles the host supplies (R254). -/
def execUndefined (op : Byte) (s : State) : Result :=
  match s.params.undefinedPolicy with
  | .report => .fault (.illegalOpcode op (undefinedAt op s) (s.setPc (undefinedAt op s)))
  | .nop => .next (s.addCycles (Config.undefNopCycles op))

end Sys2Proof.Machine
end

