-- ==== Sys2Proof/Machine/Fetch.lean ====
section
/-! DEFINITION. 6502_fetch_unit (40_execution_cycle.md R124, R125) and the interrupt check of 6502_control_fsm
(60_exceptions.md R261). -/

namespace Sys2Proof.Machine

/-- Reads of `n` consecutive bytes from `at`, in increasing address order (R124). -/
def fetchBytes (n : Nat) (addr : Word) (s : State) : List Byte × State :=
  match n with
  | 0 => ([], s)
  | k + 1 =>
    let first := busRead addr s
    let rest := fetchBytes k (addr + 1) first.2
    (first.1 :: rest.1, rest.2)

/-- How many bytes after the opcode byte the fetch unit reads (R122): the operand bytes; none of BRK's; an undefined byte's
nominal operand bytes under `Nop` and none under `Report` (R253, R254). -/
def fetchCount (e : DecodeEntry) (policy : UndefinedPolicy) : Nat :=
  match e.operation, policy with
  | .undefined, .nop => e.length - 1
  | _, _ => e.operandCount

/-- The instruction fetched, and the state with `PC` past it. -/
structure Fetched where
  instr : Instr
  st : State

/-- The Fetch phase of R122. Every opcode byte has an entry and the bytes read are all its operand takes, so the decoder
never rejects here (Laws/Decode.lean, decode_isSome). -/
def fetch (s : State) : Fetched :=
  let opcode := busRead s.pc s
  let e := decodeEntry opcode.1
  let operands := fetchBytes (fetchCount e s.params.undefinedPolicy) (s.pc + 1) opcode.2
  { instr := ((decode (opcode.1 :: operands.1)).instr?).getD (.undefined opcode.1)
    st := operands.2.setPc (s.pc + BitVec.ofNat 16 e.length) }

/-- The cycle count of an interrupt entry (R128). -/
def interruptCycles : Nat := 7

/-- `IntSeq(vec)` for IRQ and NMI (R264): the shared entry with bit 4 as `INT_PUSH_B` says (R265). -/
def interruptEntry (vector : Word) (s : State) : State :=
  (enterHandler vector s.params.intPushB s).addCycles interruptCycles

/-- `IntCheck` (R261): the NMI first and always, then the IRQ when `P.I = 0` (R266). -/
def interruptCheck (s : State) : Option State :=
  if s.nmiPending then some (interruptEntry s.params.nmiVector s.clearNmi)
  else if s.irqLine && !s.p.i then some (interruptEntry irqBrkVector s)
  else none

end Sys2Proof.Machine
end

