-- ==== Sys2Proof/Machine/Step.lean ====
section
/-! DEFINITION. `step()` (40_execution_cycle.md R120 to R123): one instruction or one interrupt entry, atomically. -/

namespace Sys2Proof.Machine

/-- `step()` (R122). `Ok(cycles)` is a next state whose `cycle_total` grew by `cycles` (log 11); `NotReset` and
`IllegalOpcode` are faults, the latter with the state after its opcode read (log 9). -/
def step (s : State) : Host.Outcome State Fault Refusal :=
  match s.fsm with
  | .powerOn => .fault .notReset
  | .ready =>
    match interruptCheck s with
    | some t => .next t
    | none => exec (fetch s).instr (fetch s).st

/-- The state with an instruction, its bits numbered as spec/opcode_table.json numbers them, stored at `PC`, and nothing in
the way of fetching it: the machine `Ready`, no interrupt that the next step would take, no device window over the three
bytes (log 13). -/
def State.withFetchWord (s : State) (nbits w : Nat) : State :=
  let m1 := memWrite s.mem s.pc.toNat (tableByte nbits w 0)
  let m2 := memWrite m1 (s.pc + 1).toNat (tableByte nbits w 1)
  let m3 := memWrite m2 (s.pc + 2).toNat (tableByte nbits w 2)
  { s with
    mem := m3
    fsm := .ready
    nmiPending := false
    irqLine := s.irqLine && s.p.i
    windows := s.windows.filter fun d => !(d.covers s.pc || d.covers (s.pc + 1) || d.covers (s.pc + 2)) }

end Sys2Proof.Machine
end

