-- ==== Sys2Proof/Machine/HostInterface.lean ====
section
/-! DEFINITION. The rest of the host interface (60_exceptions.md R268): what the host may do between steps. None of it is part
of `step`. -/

namespace Sys2Proof.Machine

/-- The power-on state (10_state.md R58), with the values the spec leaves unspecified as arguments. -/
def State.powerOn (a x y s : Byte) (pc : Word) (p : Status) (mem : Memory) (params : Params) : State :=
  { a, x, y, s, pc, p, fsm := .powerOn, nmiPending := false, irqLine := false, cycleTotal := 0, mem, windows := []
    history := [], params }

/-- `reset()` (70_reset_and_hazards.md R290). It returns no cycle count. -/
def hostReset (s : State) : State :=
  let cleared := (s.clearNmi.setS 0xFF).setP { s.p with i := true }
  let vector := readWord resetVector cleared
  { vector.2.setPc vector.1 with fsm := .ready }

/-- `set_irq(level)` (R262). -/
def setIrq (level : Bool) (s : State) : State := { s with irqLine := level }

/-- `assert_nmi()` (R262): latched until taken. -/
def assertNmi (s : State) : State := { s with nmiPending := true }

/-- The host reads a byte between steps: of memory, or of a device window from its handler (R268). It is no event of the
CORE's access history (log 10). -/
def hostRead (a : Word) (s : State) : Byte × State :=
  ((busAnswer a s).1, s.setMem (busAnswer a s).2)

/-- The host writes a byte between steps: of memory, or into a device window to its handler (R268). It is no event of the
CORE's access history (log 10). -/
def hostWrite (a : Word) (v : Byte) (s : State) : State := s.setMem (busStored a v s)

/-- The loader puts an image at consecutive addresses (R295). -/
def hostLoad (a : Word) (image : List Byte) (s : State) : State :=
  match image with
  | [] => s
  | v :: rest => hostLoad (a + 1) rest (hostWrite a v s)

/-- The host registers a device window (R268, 20_memory.md R72). -/
def registerWindow (w : Window) (s : State) : State := { s with windows := w :: s.windows }

/-- `StepResult` (40_execution_cycle.md R120). -/
inductive StepResult where
  | ok (cycles : Nat)
  | illegalOpcode (op : Byte) (pc : Word)
  | notReset
deriving DecidableEq, Repr

/-- What `step()` returns to the host, and the state it leaves: NotReset makes no access (R121), IllegalOpcode its one
opcode read (49_brk_rti_nop_undefined.md R253). The last case never happens, since no arm of exec refuses (Laws/Step.lean, step_not_refused). -/
def hostStep (s : State) : StepResult × State :=
  match step s with
  | .next t => (.ok (t.cycleTotal - s.cycleTotal), t)
  | .fault .notReset => (.notReset, s)
  | .fault (.illegalOpcode op pc after) => (.illegalOpcode op pc, after)
  | .refused _ => (.ok 0, s)

/-- `free_run()` (R130), stopped by the host after at most `n` steps: it stops at the first result that is not `Ok`. -/
def freeRun (n : Nat) (s : State) : Option StepResult × State :=
  match n with
  | 0 => (none, s)
  | k + 1 =>
    match hostStep s with
    | (.ok _, t) => freeRun k t
    | (report, t) => (some report, t)

end Sys2Proof.Machine
end

