-- ==== Sys2Proof/Safety.lean ====
section
/-! DEFINITION. What counts as a safe run, the invariant of the machine, and the vocabulary claims are stated in: what lies in
ordinary memory, the operands and events of an instruction read from plain memory, and what a step leaves alone. -/

namespace Sys2Proof.Machine

/-- The invariant every step keeps: the FSM is back at `Ready` (40_execution_cycle.md R131) and memory is in its canonical
form. -/
def Inv (s : State) : Prop := s.fsm = .ready ∧ Memory.wf s.mem = true

/-- The next step enters a handler instead of fetching (60_exceptions.md R261). -/
def TakesInterrupt (s : State) : Prop := s.nmiPending = true ∨ (s.irqLine = true ∧ s.p.i = false)

/-- The next step fetches an instruction. -/
def Fetches (s : State) : Prop := s.fsm = .ready ∧ ¬ TakesInterrupt s

/-- A safe step is one that ends in `Ok(cycles)` (R120). -/
def SafeStep (s : State) : Prop := ∃ t, step s = .next t

/-- The state the step leaves: the next state, or the one an IllegalOpcode report leaves
(49_brk_rti_nop_undefined.md R253). -/
def Leaves (s t : State) : Prop := step s = .next t ∨ ∃ op pc, step s = .fault (.illegalOpcode op pc t)

/-- A run of `n` steps that reports nothing. -/
def SafeRun : Nat → State → Prop
  | 0, _ => True
  | n + 1, s => ∃ t, step s = .next t ∧ SafeRun n t

/-- None of the addresses is in a device window (20_memory.md R72). -/
def Ordinary (s : State) (addrs : List Word) : Prop := ∀ w ∈ addrs, s.deviceAt w = none

/-- The byte that ordinary memory holds at an address. -/
def plainByte (s : State) (w : Word) : Byte := memRead s.mem w.toNat

/-- The little-endian word of two bytes of ordinary memory. -/
def plainWord (s : State) (lo hi : Word) : Word := wordOf (plainByte s hi) (plainByte s lo)

/-- The events of reading the addresses in order from ordinary memory, the newest first. -/
def readEvents (s : State) (addrs : List Word) : List BusEvent :=
  (addrs.map fun w => BusEvent.read w (plainByte s w)).reverse

/-- The addresses of `n` consecutive bytes, modulo 65536 (R124). -/
def consecutive (w : Word) : Nat → List Word
  | 0 => []
  | n + 1 => w :: consecutive (w + 1) n

/-- The addresses the fetch unit reads for the instruction at `PC` (R122, R124). -/
def fetchAddrs (s : State) : List Word :=
  consecutive s.pc (1 + fetchCount (decodeEntry (plainByte s s.pc)) s.params.undefinedPolicy)

/-- The pointer bytes the resolver reads for a mode, in order (41_addressing_modes.md R158). -/
def pointerAddrs (m : MemOperand) (s : State) : List Word :=
  match m with
  | .indx b => [zext (b + s.x), zext (b + s.x + 1)]
  | .indy b => [zext b, zext (b + 1)]
  | .zp _ | .zpx _ | .zpy _ | .abs _ | .absx _ | .absy _ => []

/-- The effective address of a mode over ordinary memory (R144 to R149, R151, R152). -/
def effAddr (m : MemOperand) (s : State) : Word :=
  match m with
  | .zp b => zext b
  | .zpx b => zext (b + s.x)
  | .zpy b => zext (b + s.y)
  | .abs w => w
  | .absx w => w + zext s.x
  | .absy w => w + zext s.y
  | .indx b => plainWord s (zext (b + s.x)) (zext (b + s.x + 1))
  | .indy b => plainWord s (zext b) (zext (b + 1)) + zext s.y

/-- `crossed` of a mode over ordinary memory (R154). -/
def crossesPage (m : MemOperand) (s : State) : Bool :=
  match m with
  | .absx w => pagesDiffer w (w + zext s.x)
  | .absy w => pagesDiffer w (w + zext s.y)
  | .indy b => pagesDiffer (plainWord s (zext b) (zext (b + 1))) (plainWord s (zext b) (zext (b + 1)) + zext s.y)
  | .zp _ | .zpx _ | .zpy _ | .abs _ | .indx _ => false

/-- The addresses a memory operand reaches: its pointer bytes, then its effective address. -/
def memAddrs (m : MemOperand) (s : State) : List Word := pointerAddrs m s ++ [effAddr m s]

/-- The addresses a read operand reaches. -/
def operandAddrs (o : ReadOperand) (s : State) : List Word :=
  match o with
  | .imm _ => []
  | .mem m => memAddrs m s

/-- The operand byte over ordinary memory (R156). -/
def operandByte (o : ReadOperand) (s : State) : Byte :=
  match o with
  | .imm v => v
  | .mem m => plainByte s (effAddr m s)

/-- `crossed` of a read operand over ordinary memory. -/
def operandCrosses (o : ReadOperand) (s : State) : Bool :=
  match o with
  | .imm _ => false
  | .mem m => crossesPage m s

/-- Every byte of memory reads as before. -/
def SameMemory (s t : State) : Prop := ∀ k : Nat, memRead t.mem k = memRead s.mem k

/-- Every byte of memory but those at the addresses reads as before. -/
def SameMemoryBut (addrs : List Word) (s t : State) : Prop :=
  ∀ k : Nat, (∀ w ∈ addrs, k ≠ w.toNat) → memRead t.mem k = memRead s.mem k

end Sys2Proof.Machine
end

