-- ==== Sys2Proof/Certificates/Slice0/Obligations.lean ====
section
/-! DEFINITION. The statements for the provers, from the numbered rules of spec/. Each holds in every state of the model, for
every value of the parameters and of the opaque constants of Config. `Ordinary` premises say that the addresses reached lie in
no device window; what holds with device windows is stated beside them without that premise. -/

open Sys2Proof Sys2Proof.Machine

namespace Sys2Proof.Claims

/-! ## Shapes of the statements -/

/-- The bytes of the eight forms, in the order of an "Encoding" line of 43_arith_logic.md. -/
def AccEncodings (k : ReadOperand → Instr) (imm zp zpx abs absx absy indx indy : Byte) : Prop :=
  ∀ (b : Byte) (w : Word),
    encode (k (.imm b)) = some [imm, b] ∧ encode (k (.mem (.zp b))) = some [zp, b] ∧
    encode (k (.mem (.zpx b))) = some [zpx, b] ∧ encode (k (.mem (.abs w))) = some [abs, loByte w, hiByte w] ∧
    encode (k (.mem (.absx w))) = some [absx, loByte w, hiByte w] ∧
    encode (k (.mem (.absy w))) = some [absy, loByte w, hiByte w] ∧
    encode (k (.mem (.indx b))) = some [indx, b] ∧ encode (k (.mem (.indy b))) = some [indy, b] ∧
    encode (k (.mem (.zpy b))) = none

/-- The bytes of the accumulator, zero page, zero page,X, absolute and absolute,X forms (44_shift_rotate.md). -/
def ShiftEncodings (k : ShiftOperand → Instr) (acc zp zpx abs absx : Byte) : Prop :=
  ∀ (b : Byte) (w : Word),
    encode (k .acc) = some [acc] ∧ encode (k (.mem (.zp b))) = some [zp, b] ∧
    encode (k (.mem (.zpx b))) = some [zpx, b] ∧ encode (k (.mem (.abs w))) = some [abs, loByte w, hiByte w] ∧
    encode (k (.mem (.absx w))) = some [absx, loByte w, hiByte w]

/-- The bytes of the zero page, zero page,X, absolute and absolute,X forms of INC and DEC. -/
def ModifyEncodings (k : MemOperand → Instr) (zp zpx abs absx : Byte) : Prop :=
  ∀ (b : Byte) (w : Word),
    encode (k (.zp b)) = some [zp, b] ∧ encode (k (.zpx b)) = some [zpx, b] ∧
    encode (k (.abs w)) = some [abs, loByte w, hiByte w] ∧ encode (k (.absx w)) = some [absx, loByte w, hiByte w]

/-- The bytes of the immediate, zero page and absolute forms of CPX and CPY. -/
def PlainEncodings (k : ReadOperand → Instr) (imm zp abs : Byte) : Prop :=
  ∀ (b : Byte) (w : Word),
    encode (k (.imm b)) = some [imm, b] ∧ encode (k (.mem (.zp b))) = some [zp, b] ∧
    encode (k (.mem (.abs w))) = some [abs, loByte w, hiByte w]

/-- The instruction always completes. It reads its operand, has the given effect on the registers, adds its cycles and makes
the operand's bus reads; over ordinary memory the byte, the page cross and the reads are the plain ones, and memory, which the
record does not mention there, is unchanged. -/
def ReadsOperand (k : ReadOperand → Instr) (effect : Byte → State → State) : Prop :=
  ∀ (o : ReadOperand) (s : State),
    exec (k o) s = .next { effect (loadOperand o s).value s with
      cycleTotal := s.cycleTotal + cyclesOf (k o) (loadOperand o s).crossed
      mem := (loadOperand o s).st.mem
      history := (loadOperand o s).st.history } ∧
    (Ordinary s (operandAddrs o s) →
      exec (k o) s = .next { effect (operandByte o s) s with
        cycleTotal := s.cycleTotal + cyclesOf (k o) (operandCrosses o s)
        history := readEvents s (operandAddrs o s) ++ s.history })

/-- The instruction always completes and stores the byte at its effective address, with no data read of it; over ordinary
memory every other byte reads as before. -/
def StoresByte (k : MemOperand → Instr) (value : State → Byte) : Prop :=
  ∀ (m : MemOperand) (s : State),
    (∃ t, exec (k m) s = .next t ∧ t = { s with
      cycleTotal := s.cycleTotal + cyclesOf (k m) false
      mem := t.mem
      history := .write (resolve m s).ea (value s) :: (resolve m s).st.history }) ∧
    (Ordinary s (memAddrs m s) →
      ∃ t, exec (k m) s = .next t ∧ t = { s with
          cycleTotal := s.cycleTotal + cyclesOf (k m) false
          mem := t.mem
          history := .write (effAddr m s) (value s) :: (readEvents s (pointerAddrs m s) ++ s.history) } ∧
        (resolve m s).ea = effAddr m s ∧ plainByte t (resolve m s).ea = value s ∧
        SameMemoryBut [(resolve m s).ea] s t)

/-- The instruction always completes with one read of the byte at its effective address and then one write of `f` of it
and the carry; over ordinary memory every other byte reads as before. -/
def ModifiesByte (k : MemOperand → Instr) (f : Byte → Bool → Byte) (flags : Byte → Status → Status) : Prop :=
  ∀ (m : MemOperand) (s : State),
    (∃ t x, exec (k m) s = .next t ∧ t = { s with
      p := flags x s.p
      cycleTotal := s.cycleTotal + cyclesOf (k m) false
      mem := t.mem
      history := .write (resolve m s).ea (f x s.p.c) :: .read (resolve m s).ea x :: (resolve m s).st.history }) ∧
    (Ordinary s (memAddrs m s) →
      let x := plainByte s (effAddr m s)
      ∃ t, exec (k m) s = .next t ∧ t = { s with
          p := flags x s.p
          cycleTotal := s.cycleTotal + cyclesOf (k m) false
          mem := t.mem
          history := .write (effAddr m s) (f x s.p.c) :: (readEvents s (memAddrs m s) ++ s.history) } ∧
        (resolve m s).ea = effAddr m s ∧ plainByte t (resolve m s).ea = f x s.p.c ∧
        SameMemoryBut [(resolve m s).ea] s t)

/-- A shift or rotate: its two kinds of form (44_shift_rotate.md). -/
def Shifts (k : ShiftOperand → Instr) (f : Byte → Bool → Byte) (flags : Byte → Status → Status) : Prop :=
  (∀ s : State, exec (k .acc) s = .next { s with
      a := f s.a s.p.c
      p := flags s.a s.p
      cycleTotal := s.cycleTotal + cyclesOf (k .acc) false }) ∧
    ModifiesByte (fun m => k (.mem m)) f flags

/-- The entry into a handler (60_exceptions.md R264, 49_brk_rti_nop_undefined.md R250): the registers; the three stack writes
and the two vector reads, in that order; and over ordinary memory the bytes they leave and find. -/
def EntersHandler (vector : Word) (b : Bool) (cycles : Nat) (s t : State) : Prop :=
  let top := stackAddr s.s
  let mid := stackAddr (s.s - 1)
  let low := stackAddr (s.s - 2)
  (t = { s with
    s := s.s - 3
    pc := t.pc
    p := { s.p with i := true }
    cycleTotal := s.cycleTotal + cycles
    mem := t.mem
    history := t.history }) ∧
  (∃ vl vh, t.pc = wordOf vh vl ∧
    t.history = .read (vector + 1) vh :: .read vector vl :: .write low (packP b s.p) :: .write mid (loByte s.pc) ::
      .write top (hiByte s.pc) :: s.history) ∧
  (Ordinary s [top, mid, low, vector, vector + 1] →
    plainByte t top = hiByte s.pc ∧ plainByte t mid = loByte s.pc ∧ plainByte t low = packP b s.p ∧
      t.pc = plainWord t vector (vector + 1) ∧ SameMemoryBut [top, mid, low] s t)

/-- A branch (47_branch_jump_call.md R220). -/
def Branches (k : Byte → Instr) (op : Byte) (cond : State → Bool) : Prop :=
  ∀ (d : Byte) (s : State),
    encode (k d) = some [op, d] ∧
    (cond s = false → exec (k d) s = .next { s with cycleTotal := s.cycleTotal + 2 }) ∧
    (cond s = true → exec (k d) s = .next { s with
      pc := s.pc + d.signExtend 16
      cycleTotal := s.cycleTotal + (if hiByte (s.pc + d.signExtend 16) = hiByte s.pc then 3 else 4) })

/-- The flags N and Z of a byte (42_alu.md R161). -/
def flagsNZ (v : Byte) (p : Status) : Status := { p with n := v.getLsbD 7, z := v == 0 }

/-- Exactly these are the undefined bytes of a nominal mode, and this is their nominal length (30_encoding.md R111). -/
def UndefinedShape (mode : Mode) (length : Nat) (ops : List Byte) : Prop :=
  ∀ op : Byte, (((decodeEntry op).defined = false ∧ (decodeEntry op).mode = mode) ↔ op ∈ ops) ∧
    (op ∈ ops → (decodeEntry op).length = length)

/-- The decimal value of a byte of two digits. -/
def bcdValue (v : Byte) : Nat := 10 * (v.toNat / 16) + v.toNat % 16

/-- Both digits of the byte are 0 to 9. -/
def ValidBcd (v : Byte) : Prop := v.toNat / 16 ≤ 9 ∧ v.toNat % 16 ≤ 9

/-- The state with the live B flag as given. -/
def withB (b : Bool) (s : State) : State := { s with p := { s.p with b := b } }

/-- The state with cycles added to `cycle_total`. -/
def moreCycles (n : Nat) (s : State) : State := { s with cycleTotal := s.cycleTotal + n }

/-- A function on the state an outcome leaves. -/
def onLeft (f : State → State) : Result → Result
  | .next t => .next (f t)
  | .fault (.illegalOpcode op pc t) => .fault (.illegalOpcode op pc (f t))
  | .fault .notReset => .fault .notReset
  | .refused r => .refused r

/-- The two states differ at most in memory and access history. -/
def SameButBus (s t : State) : Prop := t = { s with mem := t.mem, history := t.history }

/-- The events of reading bytes from consecutive addresses, the newest first, whatever answers them. -/
def readsFrom (w : Word) (bytes : List Byte) : List BusEvent :=
  (List.zipWith BusEvent.read (consecutive w bytes.length) bytes).reverse

/-- The events that `t` has and `s` had not, the newest first. -/
def NewEvents (s t : State) (es : List BusEvent) : Prop := t.history = es ++ s.history

end Sys2Proof.Claims

open Sys2Proof.Claims

/-! ## Reset and the step -/

/-- R290 to R292: `reset()` sets `S`, `P.I`, `PC` and `fsm`, clears `nmi_pending`, makes the two vector reads and changes
nothing else. -/
def Obligations.HostResetSetsResetState : Prop :=
  ∀ s : State,
    let t := hostReset s
    t = { s with
      s := 0xFF
      pc := t.pc
      p := { s.p with i := true }
      fsm := .ready
      nmiPending := false
      mem := t.mem
      history := t.history } ∧
    (∃ lo hi, t.pc = wordOf hi lo ∧ t.history = .read 0xFFFD hi :: .read 0xFFFC lo :: s.history) ∧
    (Ordinary s [0xFFFC, 0xFFFD] → t.pc = plainWord s 0xFFFC 0xFFFD ∧ t.mem = s.mem)

/-- R294: over an ordinary vector two resets give the state of one, but for the two more vector reads in the history. -/
def Obligations.SecondResetChangesNothing : Prop :=
  ∀ s : State, Ordinary s [0xFFFC, 0xFFFD] →
    hostReset (hostReset s) = { hostReset s with
      history := readEvents s [0xFFFC, 0xFFFD] ++ (hostReset s).history }

/-- The model's `State.reset` is the host's `reset()` of a power-on state of zeros (the model's choice, logs 2 and 3), and it
meets the invariant. -/
def Obligations.ResetStateIsResetOfZeroPowerOn : Prop :=
  State.reset = hostReset (State.powerOn 0 0 0 0 0
    { n := false, v := false, b := false, d := false, i := false, z := false, c := false } [] Params.default) ∧
  Inv State.reset

/-- R121: `step()` before the first reset returns `NotReset` and changes no state. -/
def Obligations.StepBeforeResetReportsNotReset : Prop :=
  ∀ s : State, s.fsm = .powerOn → step s = .fault .notReset ∧ hostStep s = (.notReset, s)

/-- R124, R126: the fetch unit reads the opcode byte, then the instruction's other bytes in increasing address order (none of
BRK's, none of an undefined byte's under `Report`), puts `PC` past the instruction, and only then is it executed. The first part
holds whatever answers the reads; the second says of ordinary memory that the instruction is the one the bytes at `PC` decode
to. -/
def Obligations.StepRunsTheInstructionAtPc : Prop :=
  (∀ s : State, Fetches s → ∃ (op : Byte) (bytes : List Byte) (i : Instr) (rest : List Byte) (m : Memory),
    bytes.length = (if op = 0x00 ∨ ((decodeEntry op).defined = false ∧ s.params.undefinedPolicy = .report) then 0
      else (decodeEntry op).length - 1) ∧
    decode (op :: bytes) = .ok i rest ∧
    step s = exec i { s with
      pc := s.pc + BitVec.ofNat 16 (decodeEntry op).length
      mem := m
      history := readsFrom s.pc (op :: bytes) ++ s.history }) ∧
  ∀ (s : State) (i : Instr) (rest : List Byte), Fetches s → Ordinary s (fetchAddrs s) →
    decode [plainByte s s.pc, plainByte s (s.pc + 1), plainByte s (s.pc + 2)] = .ok i rest →
    step s = exec i { s with
      pc := s.pc + BitVec.ofNat 16 (decodeEntry (plainByte s s.pc)).length
      history := readEvents s (fetchAddrs s) ++ s.history }

/-- R261: the NMI first and whatever `P.I` is, clearing the latch; then the IRQ when `P.I = 0`; then the fetch. An entry is the
whole step. -/
def Obligations.InterruptCheckOrder : Prop :=
  ∀ s : State, s.fsm = .ready →
    (s.nmiPending = true → ∃ t, step s = .next t ∧
      EntersHandler s.params.nmiVector s.params.intPushB 7 { s with nmiPending := false } t) ∧
    (s.nmiPending = false → s.irqLine = true → s.p.i = false → ∃ t, step s = .next t ∧
      EntersHandler 0xFFFE s.params.intPushB 7 s t) ∧
    (s.nmiPending = false → (s.irqLine = false ∨ s.p.i = true) → step s = exec (fetch s).instr (fetch s).st)

/-- R264, R265: what an interrupt entry saves, sets, loads and counts. -/
def Obligations.InterruptEntrySavesAndVectors : Prop :=
  ∀ (vector : Word) (s : State), EntersHandler vector s.params.intPushB 7 s (interruptEntry vector s)

/-- R297: with the IRQ asserted, what a CLI, SEI, PLP or RTI leaves in `P.I` decides at the very next step whether the IRQ is
entered; after a CLI it is, after an SEI it is not. -/
def Obligations.InterruptMaskActsAtNextBoundary : Prop :=
  ∀ (i : Instr) (s t : State), s.fsm = .ready → s.nmiPending = false → s.irqLine = true →
    (i = .cli ∨ i = .sei ∨ i = .plp ∨ i = .rti) → exec i s = .next t →
    (t.p.i = false → ∃ u, step t = .next u ∧ EntersHandler 0xFFFE t.params.intPushB 7 t u) ∧
    (t.p.i = true → step t = exec (fetch t).instr (fetch t).st) ∧
    (i = .cli → t.p.i = false) ∧ (i = .sei → t.p.i = true)

/-! ## Arithmetic and logic -/

/-- R180 (ADC), with the results of 42_alu.md R162 and R165. -/
def Obligations.AdcAddsOperandAndCarry : Prop :=
  AccEncodings .adc 0x69 0x65 0x75 0x6D 0x7D 0x79 0x61 0x71 ∧
  ReadsOperand .adc (fun m s =>
    let q := if s.p.d then addDecimal s.a m s.p.c else addBinary s.a m s.p.c
    { s with a := q.r, p := { s.p with n := q.n, v := q.v, z := q.z, c := q.c } })

/-- R181 (SBC), with the results of 42_alu.md R163 and R166: in decimal mode the flags stay binary. -/
def Obligations.SbcSubtractsOperandAndBorrow : Prop :=
  AccEncodings .sbc 0xE9 0xE5 0xF5 0xED 0xFD 0xF9 0xE1 0xF1 ∧
  ReadsOperand .sbc (fun m s =>
    let q := subBinary s.a m s.p.c
    let r := if s.p.d then (subDecimal s.a m s.p.c).r else q.r
    { s with a := r, p := { s.p with n := q.n, v := q.v, z := q.z, c := q.c } })

/-- R182 to R184 (AND, ORA, EOR): the accumulator, N and Z only. -/
def Obligations.LogicSetsAccumulatorNegativeZero : Prop :=
  AccEncodings .and 0x29 0x25 0x35 0x2D 0x3D 0x39 0x21 0x31 ∧
  AccEncodings .ora 0x09 0x05 0x15 0x0D 0x1D 0x19 0x01 0x11 ∧
  AccEncodings .eor 0x49 0x45 0x55 0x4D 0x5D 0x59 0x41 0x51 ∧
  ReadsOperand .and (fun m s => { s with a := s.a &&& m, p := flagsNZ (s.a &&& m) s.p }) ∧
  ReadsOperand .ora (fun m s => { s with a := s.a ||| m, p := flagsNZ (s.a ||| m) s.p }) ∧
  ReadsOperand .eor (fun m s => { s with a := s.a ^^^ m, p := flagsNZ (s.a ^^^ m) s.p })

/-- R185 (BIT): N and V from the memory byte, Z from its conjunction with A; A unchanged. -/
def Obligations.BitTestsMemoryAgainstAccumulator : Prop :=
  (∀ (b : Byte) (w : Word), encode (.bit (.zp b)) = some [0x24, b] ∧
    encode (.bit (.abs w)) = some [0x2C, loByte w, hiByte w]) ∧
  (∀ (m : MemOperand) (s : State),
    exec (.bit m) s = .next { s with
      p := { s.p with
        n := (loadMem m s).value.getLsbD 7
        v := (loadMem m s).value.getLsbD 6
        z := (s.a &&& (loadMem m s).value) == 0 }
      cycleTotal := s.cycleTotal + cyclesOf (.bit m) (loadMem m s).crossed
      mem := (loadMem m s).st.mem
      history := (loadMem m s).st.history } ∧
    (Ordinary s (memAddrs m s) →
      exec (.bit m) s = .next { s with
        p := { s.p with
          n := (plainByte s (effAddr m s)).getLsbD 7
          v := (plainByte s (effAddr m s)).getLsbD 6
          z := (s.a &&& plainByte s (effAddr m s)) == 0 }
        cycleTotal := s.cycleTotal + cyclesOf (.bit m) (crossesPage m s)
        history := readEvents s (memAddrs m s) ++ s.history }))

/-- R162: the binary sum of two bytes and a carry, its carry out, its signed overflow, N and Z. -/
def Obligations.BinaryAddMeetsIntegerSum : Prop :=
  ∀ (a b : Byte) (c : Bool),
    let k : Nat := if c then 1 else 0
    let q := addBinary a b c
    q.r.toNat = (a.toNat + b.toNat + k) % 256 ∧ (q.c = true ↔ 0xFF < a.toNat + b.toNat + k) ∧
    (q.v = true ↔ a.getLsbD 7 = b.getLsbD 7 ∧ q.r.getLsbD 7 ≠ a.getLsbD 7) ∧
    (q.v = true ↔ a.toInt + b.toInt + k < -128 ∨ 127 < a.toInt + b.toInt + k) ∧
    q.n = q.r.getLsbD 7 ∧ (q.z = true ↔ q.r = 0)

/-- R163: the binary difference with the borrow, its carry (no borrow) and its signed overflow. -/
def Obligations.BinarySubMeetsIntegerDifference : Prop :=
  ∀ (a b : Byte) (c : Bool),
    let k : Int := if c then 0 else 1
    let q := subBinary a b c
    (q.r.toNat : Int) = ((a.toNat : Int) - b.toNat - k) % 256 ∧ (q.c = true ↔ 0 ≤ (a.toNat : Int) - b.toNat - k) ∧
    (q.v = true ↔ a.toInt - b.toInt - k < -128 ∨ 127 < a.toInt - b.toInt - k) ∧
    q.n = q.r.getLsbD 7 ∧ (q.z = true ↔ q.r = 0)

/-- R165: on valid decimal digits ADC's result byte and carry are the decimal sum and its carry; Z is the binary sum's. -/
def Obligations.DecimalAddMeetsDecimalSum : Prop :=
  ∀ (a b : Byte) (c : Bool), ValidBcd a → ValidBcd b →
    let k : Nat := if c then 1 else 0
    let q := addDecimal a b c
    ValidBcd q.r ∧ bcdValue q.r = (bcdValue a + bcdValue b + k) % 100 ∧
    (q.c = true ↔ 100 ≤ bcdValue a + bcdValue b + k) ∧ q.z = (addBinary a b c).z

/-- R166: on valid decimal digits SBC's result byte is the decimal difference and its carry says that no borrow occurred;
its flags are the binary subtraction's. -/
def Obligations.DecimalSubMeetsDecimalDifference : Prop :=
  ∀ (a b : Byte) (c : Bool), ValidBcd a → ValidBcd b →
    let k : Int := if c then 0 else 1
    let q := subDecimal a b c
    ValidBcd q.r ∧ (bcdValue q.r : Int) = ((bcdValue a : Int) - bcdValue b - k) % 100 ∧
    (q.c = true ↔ 0 ≤ (bcdValue a : Int) - bcdValue b - k) ∧
    q.n = (subBinary a b c).n ∧ q.v = (subBinary a b c).v ∧ q.z = (subBinary a b c).z ∧ q.c = (subBinary a b c).c

/-- R165, R166: every output of the decimal addition and subtraction, for all bytes, valid digits or not, written on integers.
For invalid digits the spec says "Invalid digits give the algorithm's value"; following that, where U10 of
93_implementation_defined.md would also allow any value, is the model's choice (log 14). -/
def Obligations.DecimalResultsFollowNmosAlgorithm : Prop :=
  ∀ (a b : Byte) (c : Bool),
    let k : Int := if c then 1 else 0
    let al : Int := (a.toNat % 16 : Nat)
    let bl : Int := (b.toNat % 16 : Nat)
    let ah : Int := (a.toNat / 16 * 16 : Nat)
    let bh : Int := (b.toNat / 16 * 16 : Nat)
    let signed : Int → Int := fun v => if v < 128 then v else v - 256
    (let lo := if 10 ≤ al + bl + k then (al + bl + k + 6) % 16 + 16 else al + bl + k
     let t := ah + bh + lo
     let ts := signed ah + signed bh + lo
     let t' := if 160 ≤ t then t + 96 else t
     let q := addDecimal a b c
     (q.r.toNat : Int) = t' % 256 ∧ (q.c = true ↔ 256 ≤ t') ∧ (q.n = true ↔ 128 ≤ ts % 256) ∧
       (q.v = true ↔ ts < -128 ∨ 127 < ts) ∧ (q.z = true ↔ ((a.toNat : Int) + b.toNat + k) % 256 = 0)) ∧
    (let lo := if al - bl + k - 1 < 0 then (al - bl + k - 1 - 6) % 16 - 16 else al - bl + k - 1
     let t := ah - bh + lo
     let q := subDecimal a b c
     (q.r.toNat : Int) = (if t < 0 then t - 96 else t) % 256 ∧ q.n = (subBinary a b c).n ∧ q.v = (subBinary a b c).v ∧
       q.z = (subBinary a b c).z ∧ q.c = (subBinary a b c).c)

/-! ## Shifts, loads, stores, transfers -/

/-- R190 to R193 (ASL, LSR, ROL, ROR), accumulator and memory forms: result, N, Z, C, and the one read and one write. -/
def Obligations.ShiftsAndRotates : Prop :=
  ShiftEncodings .asl 0x0A 0x06 0x16 0x0E 0x1E ∧ ShiftEncodings .lsr 0x4A 0x46 0x56 0x4E 0x5E ∧
  ShiftEncodings .rol 0x2A 0x26 0x36 0x2E 0x3E ∧ ShiftEncodings .ror 0x6A 0x66 0x76 0x6E 0x7E ∧
  Shifts .asl (fun x _ => x <<< 1) (fun x p => { flagsNZ (x <<< 1) p with c := x.getLsbD 7 }) ∧
  Shifts .lsr (fun x _ => x >>> 1) (fun x p => { flagsNZ (x >>> 1) p with c := x.getLsbD 0 }) ∧
  Shifts .rol (fun x c => (x <<< 1) ||| (if c then 1 else 0))
    (fun x p => { flagsNZ ((x <<< 1) ||| (if p.c then 1 else 0)) p with c := x.getLsbD 7 }) ∧
  Shifts .ror (fun x c => (x >>> 1) ||| (if c then 0x80 else 0))
    (fun x p => { flagsNZ ((x >>> 1) ||| (if p.c then 0x80 else 0)) p with c := x.getLsbD 0 })

/-- R195 to R197 (LDA, LDX, LDY): the register, N and Z. -/
def Obligations.LoadsSetRegisterNegativeZero : Prop :=
  AccEncodings .lda 0xA9 0xA5 0xB5 0xAD 0xBD 0xB9 0xA1 0xB1 ∧
  (∀ (b : Byte) (w : Word),
    encode (.ldx (.imm b)) = some [0xA2, b] ∧ encode (.ldx (.mem (.zp b))) = some [0xA6, b] ∧
    encode (.ldx (.mem (.zpy b))) = some [0xB6, b] ∧ encode (.ldx (.mem (.abs w))) = some [0xAE, loByte w, hiByte w] ∧
    encode (.ldx (.mem (.absy w))) = some [0xBE, loByte w, hiByte w] ∧
    encode (.ldy (.imm b)) = some [0xA0, b] ∧ encode (.ldy (.mem (.zp b))) = some [0xA4, b] ∧
    encode (.ldy (.mem (.zpx b))) = some [0xB4, b] ∧ encode (.ldy (.mem (.abs w))) = some [0xAC, loByte w, hiByte w] ∧
    encode (.ldy (.mem (.absx w))) = some [0xBC, loByte w, hiByte w]) ∧
  ReadsOperand .lda (fun m s => { s with a := m, p := flagsNZ m s.p }) ∧
  ReadsOperand .ldx (fun m s => { s with x := m, p := flagsNZ m s.p }) ∧
  ReadsOperand .ldy (fun m s => { s with y := m, p := flagsNZ m s.p })

/-- R198 to R200 (STA, STX, STY): one write, no flag. -/
def Obligations.StoresWriteRegister : Prop :=
  (∀ (b : Byte) (w : Word),
    encode (.sta (.zp b)) = some [0x85, b] ∧ encode (.sta (.zpx b)) = some [0x95, b] ∧
    encode (.sta (.abs w)) = some [0x8D, loByte w, hiByte w] ∧ encode (.sta (.absx w)) = some [0x9D, loByte w, hiByte w] ∧
    encode (.sta (.absy w)) = some [0x99, loByte w, hiByte w] ∧ encode (.sta (.indx b)) = some [0x81, b] ∧
    encode (.sta (.indy b)) = some [0x91, b] ∧
    encode (.stx (.zp b)) = some [0x86, b] ∧ encode (.stx (.zpy b)) = some [0x96, b] ∧
    encode (.stx (.abs w)) = some [0x8E, loByte w, hiByte w] ∧
    encode (.sty (.zp b)) = some [0x84, b] ∧ encode (.sty (.zpx b)) = some [0x94, b] ∧
    encode (.sty (.abs w)) = some [0x8C, loByte w, hiByte w]) ∧
  StoresByte .sta State.a ∧ StoresByte .stx State.x ∧ StoresByte .sty State.y

/-- R201 to R206 (TAX, TAY, TXA, TYA, TSX, TXS): TXS is the one transfer that writes no flag. -/
def Obligations.TransfersMoveRegisters : Prop :=
  encode .tax = some [0xAA] ∧ encode .tay = some [0xA8] ∧ encode .txa = some [0x8A] ∧ encode .tya = some [0x98] ∧
  encode .tsx = some [0xBA] ∧ encode .txs = some [0x9A] ∧
  ∀ s : State,
    exec .tax s = .next { s with x := s.a, p := flagsNZ s.a s.p, cycleTotal := s.cycleTotal + 2 } ∧
    exec .tay s = .next { s with y := s.a, p := flagsNZ s.a s.p, cycleTotal := s.cycleTotal + 2 } ∧
    exec .txa s = .next { s with a := s.x, p := flagsNZ s.x s.p, cycleTotal := s.cycleTotal + 2 } ∧
    exec .tya s = .next { s with a := s.y, p := flagsNZ s.y s.p, cycleTotal := s.cycleTotal + 2 } ∧
    exec .tsx s = .next { s with x := s.s, p := flagsNZ s.s s.p, cycleTotal := s.cycleTotal + 2 } ∧
    exec .txs s = .next { s with s := s.x, cycleTotal := s.cycleTotal + 2 }

/-! ## Compare, increment, decrement -/

/-- R210 to R212 (CMP, CPX, CPY): unsigned comparison into N, Z, C, whatever `P.D` is. -/
def Obligations.ComparesSetNegativeZeroCarry : Prop :=
  AccEncodings .cmp 0xC9 0xC5 0xD5 0xCD 0xDD 0xD9 0xC1 0xD1 ∧ PlainEncodings .cpx 0xE0 0xE4 0xEC ∧
  PlainEncodings .cpy 0xC0 0xC4 0xCC ∧
  ReadsOperand .cmp (fun m s =>
    { s with p := { s.p with n := (s.a - m).getLsbD 7, z := s.a == m, c := decide (m.toNat ≤ s.a.toNat) } }) ∧
  ReadsOperand .cpx (fun m s =>
    { s with p := { s.p with n := (s.x - m).getLsbD 7, z := s.x == m, c := decide (m.toNat ≤ s.x.toNat) } }) ∧
  ReadsOperand .cpy (fun m s =>
    { s with p := { s.p with n := (s.y - m).getLsbD 7, z := s.y == m, c := decide (m.toNat ≤ s.y.toNat) } })

/-- R213, R214 (INC, DEC): one read and one write of memory, N and Z, no carry. -/
def Obligations.IncDecModifyMemory : Prop :=
  ModifyEncodings .inc 0xE6 0xF6 0xEE 0xFE ∧ ModifyEncodings .dec 0xC6 0xD6 0xCE 0xDE ∧
  ModifiesByte .inc (fun x _ => x + 1) (fun x p => flagsNZ (x + 1) p) ∧
  ModifiesByte .dec (fun x _ => x - 1) (fun x p => flagsNZ (x - 1) p)

/-- R215 to R218 (INX, INY, DEX, DEY). -/
def Obligations.IndexRegistersStep : Prop :=
  encode .inx = some [0xE8] ∧ encode .iny = some [0xC8] ∧ encode .dex = some [0xCA] ∧ encode .dey = some [0x88] ∧
  ∀ s : State,
    exec .inx s = .next { s with x := s.x + 1, p := flagsNZ (s.x + 1) s.p, cycleTotal := s.cycleTotal + 2 } ∧
    exec .iny s = .next { s with y := s.y + 1, p := flagsNZ (s.y + 1) s.p, cycleTotal := s.cycleTotal + 2 } ∧
    exec .dex s = .next { s with x := s.x - 1, p := flagsNZ (s.x - 1) s.p, cycleTotal := s.cycleTotal + 2 } ∧
    exec .dey s = .next { s with y := s.y - 1, p := flagsNZ (s.y - 1) s.p, cycleTotal := s.cycleTotal + 2 }

/-! ## Control flow -/

/-- R220 to R228: the eight branches, their conditions, targets and cycles (2, 3 or 4). -/
def Obligations.BranchesFollowTheirFlag : Prop :=
  Branches .bpl 0x10 (fun s => !s.p.n) ∧ Branches .bmi 0x30 (fun s => s.p.n) ∧
  Branches .bvc 0x50 (fun s => !s.p.v) ∧ Branches .bvs 0x70 (fun s => s.p.v) ∧
  Branches .bcc 0x90 (fun s => !s.p.c) ∧ Branches .bcs 0xB0 (fun s => s.p.c) ∧
  Branches .bne 0xD0 (fun s => !s.p.z) ∧ Branches .beq 0xF0 (fun s => s.p.z)

/-- R229 (JMP), absolute and indirect, with the page-wrapped second pointer byte (20_memory.md R78). -/
def Obligations.JumpSetsPc : Prop :=
  ∀ (w : Word) (s : State),
    encode (.jmp (.abs w)) = some [0x4C, loByte w, hiByte w] ∧ encode (.jmp (.ind w)) = some [0x6C, loByte w, hiByte w] ∧
    exec (.jmp (.abs w)) s = .next { s with pc := w, cycleTotal := s.cycleTotal + 3 } ∧
    exec (.jmp (.ind w)) s = .next { s with
      pc := (readWordPageWrap w s).1
      cycleTotal := s.cycleTotal + 5
      mem := (readWordPageWrap w s).2.mem
      history := (readWordPageWrap w s).2.history } ∧
    (let second := wordOf (hiByte w) (loByte w + 1)
     Ordinary s [w, second] →
      exec (.jmp (.ind w)) s = .next { s with
        pc := plainWord s w second
        cycleTotal := s.cycleTotal + 5
        history := readEvents s [w, second] ++ s.history })

/-- R230 (JSR): the address of the call's last byte goes on the stack, high byte first. -/
def Obligations.JsrPushesReturnAddress : Prop :=
  ∀ (w : Word) (s : State),
    let top := stackAddr s.s
    let low := stackAddr (s.s - 1)
    encode (.jsr w) = some [0x20, loByte w, hiByte w] ∧
    ∃ t, exec (.jsr w) s = .next t ∧
      t = { s with
        s := s.s - 2
        pc := w
        cycleTotal := s.cycleTotal + 6
        mem := t.mem
        history := .write low (loByte (s.pc - 1)) :: .write top (hiByte (s.pc - 1)) :: s.history } ∧
      (Ordinary s [top, low] →
        plainByte t top = hiByte (s.pc - 1) ∧ plainByte t low = loByte (s.pc - 1) ∧ SameMemoryBut [top, low] s t)

/-- R231 (RTS): `PC` takes the pulled word plus 1. -/
def Obligations.RtsReturnsPastPulledWord : Prop :=
  encode .rts = some [0x60] ∧
  ∀ s : State,
    let lo := stackAddr (s.s + 1)
    let hi := stackAddr (s.s + 2)
    (∃ t vl vh, exec .rts s = .next t ∧ t = { s with
      s := s.s + 2
      pc := wordOf vh vl + 1
      cycleTotal := s.cycleTotal + 6
      mem := t.mem
      history := .read hi vh :: .read lo vl :: s.history }) ∧
    (Ordinary s [lo, hi] →
      exec .rts s = .next { s with
        s := s.s + 2
        pc := plainWord s lo hi + 1
        cycleTotal := s.cycleTotal + 6
        history := readEvents s [lo, hi] ++ s.history })

/-- R230 and R231 together: an RTS right after a JSR, from an ordinary stack, is back at the instruction after the call with
the stack pointer it had. -/
def Obligations.RtsAfterJsrReturns : Prop :=
  ∀ (w : Word) (s t : State), Ordinary s [stackAddr s.s, stackAddr (s.s - 1)] → exec (.jsr w) s = .next t →
    ∃ u, exec .rts t = .next u ∧ u.pc = s.pc ∧ u.s = s.s ∧ u.a = s.a ∧ u.x = s.x ∧ u.y = s.y ∧ u.p = s.p ∧
      u.mem = t.mem

/-! ## Stack and flags -/

/-- R235, R236 (PHA, PHP): the byte pushed; PHP pushes Break and Unused as 1. -/
def Obligations.PushesWriteStack : Prop :=
  encode .pha = some [0x48] ∧ encode .php = some [0x08] ∧
  ∀ s : State,
    let top := stackAddr s.s
    (∃ t, exec .pha s = .next t ∧
      t = { s with
        s := s.s - 1
        cycleTotal := s.cycleTotal + 3
        mem := t.mem
        history := .write top s.a :: s.history } ∧
      (Ordinary s [top] → plainByte t top = s.a ∧ SameMemoryBut [top] s t)) ∧
    (∃ t, exec .php s = .next t ∧
      t = { s with
        s := s.s - 1
        cycleTotal := s.cycleTotal + 3
        mem := t.mem
        history := .write top (packP true s.p) :: s.history } ∧
      (Ordinary s [top] → plainByte t top = packP true s.p ∧ SameMemoryBut [top] s t))

/-- R237, R238 (PLA, PLP): the byte pulled; PLP loads every stored flag from it. -/
def Obligations.PullsReadStack : Prop :=
  encode .pla = some [0x68] ∧ encode .plp = some [0x28] ∧
  ∀ s : State,
    let top := stackAddr (s.s + 1)
    (∃ t v, exec .pla s = .next t ∧ t = { s with
      a := v
      s := s.s + 1
      p := flagsNZ v s.p
      cycleTotal := s.cycleTotal + 4
      mem := t.mem
      history := .read top v :: s.history }) ∧
    (∃ t v, exec .plp s = .next t ∧ t = { s with
      s := s.s + 1
      p := { n := v.getLsbD 7, v := v.getLsbD 6, b := v.getLsbD 4, d := v.getLsbD 3, i := v.getLsbD 2
             z := v.getLsbD 1, c := v.getLsbD 0 }
      cycleTotal := s.cycleTotal + 4
      mem := t.mem
      history := .read top v :: s.history }) ∧
    (Ordinary s [top] →
      exec .pla s = .next { s with
        a := plainByte s top
        s := s.s + 1
        p := flagsNZ (plainByte s top) s.p
        cycleTotal := s.cycleTotal + 4
        history := .read top (plainByte s top) :: s.history } ∧
      exec .plp s = .next { s with
        s := s.s + 1
        p := unpackP (plainByte s top)
        cycleTotal := s.cycleTotal + 4
        history := .read top (plainByte s top) :: s.history })

/-- R82, R83 and the inverse law: a push writes the byte at `0x0100 + S` and decrements `S` modulo 256; a pull increments it
and reads; a pull after a push gives the byte back. -/
def Obligations.PullUndoesPush : Prop :=
  ∀ (v : Byte) (s : State), Ordinary s [stackAddr s.s] →
    (stackAddr s.s).toNat = 0x0100 + s.s.toNat ∧
    plainByte (push v s) (stackAddr s.s) = v ∧ (push v s).s = s.s - 1 ∧
    (pull (push v s)).1 = v ∧ (pull (push v s)).2.s = s.s ∧ (pull (push v s)).2.mem = (push v s).mem

/-- R239 to R245: each instruction changes the one flag it names. -/
def Obligations.FlagInstructionsChangeOneFlag : Prop :=
  encode .clc = some [0x18] ∧ encode .sec = some [0x38] ∧ encode .cli = some [0x58] ∧ encode .sei = some [0x78] ∧
  encode .clv = some [0xB8] ∧ encode .cld = some [0xD8] ∧ encode .sed = some [0xF8] ∧
  ∀ s : State,
    exec .clc s = .next { s with p := { s.p with c := false }, cycleTotal := s.cycleTotal + 2 } ∧
    exec .sec s = .next { s with p := { s.p with c := true }, cycleTotal := s.cycleTotal + 2 } ∧
    exec .cli s = .next { s with p := { s.p with i := false }, cycleTotal := s.cycleTotal + 2 } ∧
    exec .sei s = .next { s with p := { s.p with i := true }, cycleTotal := s.cycleTotal + 2 } ∧
    exec .clv s = .next { s with p := { s.p with v := false }, cycleTotal := s.cycleTotal + 2 } ∧
    exec .cld s = .next { s with p := { s.p with d := false }, cycleTotal := s.cycleTotal + 2 } ∧
    exec .sed s = .next { s with p := { s.p with d := true }, cycleTotal := s.cycleTotal + 2 }

/-- R42, R43, R41: the bits of the pushed status byte (bit 5 is 1, bit 4 is forced), and the flags loaded from one. -/
def Obligations.StatusByteLayout : Prop :=
  ∀ (b : Bool) (p : Status) (v : Byte),
    (let q := packP b p
     q.getLsbD 7 = p.n ∧ q.getLsbD 6 = p.v ∧ q.getLsbD 5 = true ∧ q.getLsbD 4 = b ∧ q.getLsbD 3 = p.d ∧
       q.getLsbD 2 = p.i ∧ q.getLsbD 1 = p.z ∧ q.getLsbD 0 = p.c) ∧
    unpackP v = { n := v.getLsbD 7, v := v.getLsbD 6, b := v.getLsbD 4, d := v.getLsbD 3, i := v.getLsbD 2
                  z := v.getLsbD 1, c := v.getLsbD 0 } ∧
    unpackP (packP b p) = { p with b := b }

/-! ## BRK, RTI, NOP, undefined bytes -/

/-- R250 (BRK): two bytes long, the second never read; the entry through 0xFFFE with Break forced to 1, 7 cycles. -/
def Obligations.BrkEntersBreakHandler : Prop :=
  (∀ (s : State) (next : List Byte), Ordinary s [s.pc] → plainByte s s.pc = 0x00 →
    decode (0x00 :: next) = .ok .brk (next.drop 1) ∧ (fetch s).instr = .brk ∧
    (fetch s).st = { s with pc := s.pc + 2, history := .read s.pc 0x00 :: s.history }) ∧
  ∀ s : State, ∃ t, exec .brk s = .next t ∧ EntersHandler 0xFFFE true 7 s t

/-- R251 (RTI): `P`, then `PC` low and high, with no `+ 1`. -/
def Obligations.RtiRestoresStatusAndPc : Prop :=
  encode .rti = some [0x40] ∧
  ∀ s : State,
    let p1 := stackAddr (s.s + 1)
    let p2 := stackAddr (s.s + 2)
    let p3 := stackAddr (s.s + 3)
    (∃ t v vl vh, exec .rti s = .next t ∧ t = { s with
      s := s.s + 3
      pc := wordOf vh vl
      p := unpackP v
      cycleTotal := s.cycleTotal + 6
      mem := t.mem
      history := .read p3 vh :: .read p2 vl :: .read p1 v :: s.history }) ∧
    (Ordinary s [p1, p2, p3] →
      exec .rti s = .next { s with
        s := s.s + 3
        pc := plainWord s p2 p3
        p := unpackP (plainByte s p1)
        cycleTotal := s.cycleTotal + 6
        history := readEvents s [p1, p2, p3] ++ s.history })

/-- R269 with R264: from an ordinary stack and vector, an RTI right after an interrupt entry restores `PC`, `S` and every flag
but the live B, which takes the pushed bit. -/
def Obligations.RtiAfterEntryRestores : Prop :=
  ∀ (vector : Word) (s : State),
    Ordinary s [stackAddr s.s, stackAddr (s.s - 1), stackAddr (s.s - 2), vector, vector + 1] →
    ∃ u, exec .rti (interruptEntry vector s) = .next u ∧ u.pc = s.pc ∧ u.s = s.s ∧
      u.p = { s.p with b := s.params.intPushB } ∧ u.a = s.a ∧ u.x = s.x ∧ u.y = s.y

/-- R255 (NOP): nothing but `PC` and the cycles. -/
def Obligations.NopAdvancesPcOnly : Prop :=
  encode .nop = some [0xEA] ∧ (∀ s : State, exec .nop s = .next { s with cycleTotal := s.cycleTotal + 2 }) ∧
  ∀ s : State, Fetches s → Ordinary s [s.pc] → plainByte s s.pc = 0xEA →
    step s = .next { s with
      pc := s.pc + 1
      cycleTotal := s.cycleTotal + 2
      history := .read s.pc 0xEA :: s.history }

/-- R253: under `Report` a step at an undefined byte reports the byte and its address; it makes the one opcode read, and
changes no register, flag or `cycle_total`, nor a memory byte where that read is of ordinary memory (where a device answers
it, a byte the handler itself writes, R95: log 9). -/
def Obligations.UndefinedByteIsReported : Prop :=
  ∀ s : State, Fetches s → s.params.undefinedPolicy = .report →
    (decodeEntry (busRead s.pc s).1).defined = false →
    let op := (busRead s.pc s).1
    ∃ t, step s = .fault (.illegalOpcode op s.pc t) ∧ hostStep s = (.illegalOpcode op s.pc, t) ∧
      t = { s with mem := (busRead s.pc s).2.mem, history := .read s.pc op :: s.history } ∧
      (Ordinary s [s.pc] → op = plainByte s s.pc ∧ t = { s with history := .read s.pc (plainByte s s.pc) :: s.history })

/-- R254: under `Nop` an undefined byte reads and skips its nominal bytes, and changes nothing but `PC` and the cycles; over
ordinary memory the bytes read are those at `PC`. -/
def Obligations.UndefinedByteIsSkipped : Prop :=
  (∀ (op : Byte) (s : State), s.params.undefinedPolicy = .nop →
    exec (.undefined op) s = .next { s with cycleTotal := s.cycleTotal + Config.undefNopCycles op }) ∧
  (∀ s : State, Fetches s → s.params.undefinedPolicy = .nop → (decodeEntry (busRead s.pc s).1).defined = false →
    let op := (busRead s.pc s).1
    ∃ (bytes : List Byte) (m : Memory), bytes.length = (decodeEntry op).length - 1 ∧
      step s = .next { s with
        pc := s.pc + BitVec.ofNat 16 (decodeEntry op).length
        cycleTotal := s.cycleTotal + Config.undefNopCycles op
        mem := m
        history := readsFrom s.pc (op :: bytes) ++ s.history }) ∧
  ∀ s : State, Fetches s → s.params.undefinedPolicy = .nop →
    let op := plainByte s s.pc
    let e := decodeEntry op
    e.defined = false → Ordinary s (consecutive s.pc e.length) →
    step s = .next { s with
      pc := s.pc + BitVec.ofNat 16 e.length
      cycleTotal := s.cycleTotal + Config.undefNopCycles op
      history := readEvents s (consecutive s.pc e.length) ++ s.history }

/-! ## Memory and addressing -/

/-- R96: a byte written outside the device windows reads back, and every other byte stays. -/
def Obligations.WrittenByteReadsBack : Prop :=
  ∀ (w : Word) (v : Byte) (s : State), s.deviceAt w = none →
    (busRead w (busWrite w v s)).1 = v ∧ SameMemoryBut [w] s (busWrite w v s)

/-- R76 to R78: the three word reads: two bus reads, the low byte first, and where each takes its second byte from; over ordinary
memory the word is that of the two bytes. A read changes nothing but the history and what a device handler writes. -/
def Obligations.WordReadsWrap : Prop :=
  ∀ (w : Word) (z : Byte) (s : State),
    let second := wordOf (hiByte w) (loByte w + 1)
    (SameButBus s (readWord w s).2 ∧ SameButBus s (readWordZP z s).2 ∧ SameButBus s (readWordPageWrap w s).2) ∧
    (∃ lo hi, (readWord w s).1 = wordOf hi lo ∧
      (readWord w s).2.history = .read (w + 1) hi :: .read w lo :: s.history) ∧
    (∃ lo hi, (readWordZP z s).1 = wordOf hi lo ∧
      (readWordZP z s).2.history = .read ((z + 1).setWidth 16) hi :: .read (z.setWidth 16) lo :: s.history) ∧
    (∃ lo hi, (readWordPageWrap w s).1 = wordOf hi lo ∧
      (readWordPageWrap w s).2.history = .read second hi :: .read w lo :: s.history) ∧
    (Ordinary s [w, w + 1] →
      readWord w s = (plainWord s w (w + 1), { s with history := readEvents s [w, w + 1] ++ s.history })) ∧
    (Ordinary s [zext z, zext (z + 1)] →
      readWordZP z s = (plainWord s (zext z) (zext (z + 1)),
        { s with history := readEvents s [zext z, zext (z + 1)] ++ s.history })) ∧
    (Ordinary s [w, second] →
      readWordPageWrap w s = (plainWord s w second, { s with history := readEvents s [w, second] ++ s.history }))

/-- R144 to R149, R151, R152: the effective address, page cross and pointer reads of each memory mode; no mode changes a
register, a flag or `cycle_total`, whatever answers a pointer read. -/
def Obligations.EffectiveAddresses : Prop :=
  ∀ (b : Byte) (w : Word) (s : State),
    (∀ m : MemOperand, SameButBus s (resolve m s).st) ∧
    resolve (.zp b) s = ⟨b.setWidth 16, false, s⟩ ∧
    resolve (.zpx b) s = ⟨(b + s.x).setWidth 16, false, s⟩ ∧
    resolve (.zpy b) s = ⟨(b + s.y).setWidth 16, false, s⟩ ∧
    resolve (.abs w) s = ⟨w, false, s⟩ ∧
    resolve (.absx w) s = ⟨w + s.x.setWidth 16, hiByte w != hiByte (w + s.x.setWidth 16), s⟩ ∧
    resolve (.absy w) s = ⟨w + s.y.setWidth 16, hiByte w != hiByte (w + s.y.setWidth 16), s⟩ ∧
    resolve (.indx b) s = ⟨(readWordZP (b + s.x) s).1, false, (readWordZP (b + s.x) s).2⟩ ∧
    (let base := (readWordZP b s).1
     resolve (.indy b) s =
       ⟨base + s.y.setWidth 16, hiByte base != hiByte (base + s.y.setWidth 16), (readWordZP b s).2⟩) ∧
    (let lo := (b + s.x).setWidth 16
     let hi := (b + s.x + 1).setWidth 16
     Ordinary s [lo, hi] →
      resolve (.indx b) s =
        ⟨plainWord s lo hi, false, { s with history := readEvents s [lo, hi] ++ s.history }⟩) ∧
    (let lo := b.setWidth 16
     let hi := (b + 1).setWidth 16
     let base := plainWord s lo hi
     Ordinary s [lo, hi] →
      resolve (.indy b) s =
        ⟨base + s.y.setWidth 16, hiByte base != hiByte (base + s.y.setWidth 16),
          { s with history := readEvents s [lo, hi] ++ s.history }⟩)

/-- The writes the CORE makes are all that changes ordinary memory: after any step, one that reports IllegalOpcode included,
whose accesses reach no device window, memory is what the step's own bus writes make of the memory before (R72, R73, R90). -/
def Obligations.MemoryIsReplayOfBusWrites : Prop :=
  ∀ s t : State, Leaves s t →
    ∃ es, NewEvents s t es ∧
      ((∀ e ∈ es, s.deviceAt e.addr = none) → t.mem = memReplay s.mem es)

/-- Two memories in the canonical form, which is the model's choice (log 3), that read alike at every address are the same
list. -/
def Obligations.CanonicalMemoriesEqualIfReadAlike : Prop :=
  ∀ m n : Memory, Memory.wf m = true → Memory.wf n = true → (∀ k : Nat, memRead m k = memRead n k) → m = n

/-! ## Encoding -/

/-- Decoding the bytes of a well-formed instruction gives the instruction back, and what follows it. -/
def Obligations.DecodeOfEncodeIsSame : Prop :=
  ∀ (i : Instr) (rest : List Byte), i.wf = true → ∃ bytes, encode i = some bytes ∧ decode (bytes ++ rest) = .ok i rest

/-- Bytes that decode to an official instruction other than BRK are that instruction's encoding and the rest: no operand bit
is dropped and no two encodings share a meaning. -/
def Obligations.DecodedBytesReencode : Prop :=
  ∀ (bytes rest : List Byte) (i : Instr), decode bytes = .ok i rest → i ≠ .brk → (∀ op, i ≠ .undefined op) →
    ∃ own, encode i = some own ∧ bytes = own ++ rest

/-- R100, R105: 256 entries, 151 of them official; the length of each follows from its mode, BRK's apart. R111: the nominal
mode and length of each of the 105 undefined bytes. -/
def Obligations.DecodeTableShape : Prop :=
  decodeTable.length = 256 ∧ (decodeTable.filter fun e => e.defined).length = 151 ∧
  (∀ op : Byte, (decodeEntry op).defined = !undefinedBytes.contains op) ∧
  (∀ op : Byte, (decodeEntry op).length =
    if op = 0x00 then 2
    else match (decodeEntry op).mode with
      | .implied | .accumulator => 1
      | .immediate | .zeroPage | .zeroPageX | .zeroPageY | .indexedIndirect | .indirectIndexed | .relative => 2
      | .absolute | .absoluteX | .absoluteY | .indirect => 3) ∧
  UndefinedShape .implied 1 [0x02, 0x12, 0x1A, 0x22, 0x32, 0x3A, 0x42, 0x52, 0x5A, 0x62, 0x72, 0x7A, 0x92, 0xB2, 0xD2, 0xDA,
    0xF2, 0xFA] ∧
  UndefinedShape .immediate 2 [0x0B, 0x2B, 0x4B, 0x6B, 0x80, 0x82, 0x89, 0x8B, 0xAB, 0xC2, 0xCB, 0xE2, 0xEB] ∧
  UndefinedShape .zeroPage 2 [0x04, 0x07, 0x27, 0x44, 0x47, 0x64, 0x67, 0x87, 0xA7, 0xC7, 0xE7] ∧
  UndefinedShape .zeroPageX 2 [0x14, 0x17, 0x34, 0x37, 0x54, 0x57, 0x74, 0x77, 0xD4, 0xD7, 0xF4, 0xF7] ∧
  UndefinedShape .zeroPageY 2 [0x97, 0xB7] ∧
  UndefinedShape .indexedIndirect 2 [0x03, 0x23, 0x43, 0x63, 0x83, 0xA3, 0xC3, 0xE3] ∧
  UndefinedShape .indirectIndexed 2 [0x13, 0x33, 0x53, 0x73, 0x93, 0xB3, 0xD3, 0xF3] ∧
  UndefinedShape .absolute 3 [0x0C, 0x0F, 0x2F, 0x4F, 0x6F, 0x8F, 0xAF, 0xCF, 0xEF] ∧
  UndefinedShape .absoluteX 3 [0x1C, 0x1F, 0x3C, 0x3F, 0x5C, 0x5F, 0x7C, 0x7F, 0x9C, 0xDC, 0xDF, 0xFC, 0xFF] ∧
  UndefinedShape .absoluteY 3 [0x1B, 0x3B, 0x5B, 0x7B, 0x9B, 0x9E, 0x9F, 0xBB, 0xBF, 0xDB, 0xFB]

/-- Words written out from R108, R109: one of every family. -/
def Obligations.ChosenWordsDecode : Prop :=
  decode [0x69, 0x50] = .ok (.adc (.imm 0x50)) [] ∧ decode [0x24, 0x10] = .ok (.bit (.zp 0x10)) [] ∧
  decode [0x7E, 0x34, 0x12] = .ok (.ror (.mem (.absx 0x1234))) [] ∧ decode [0x0A] = .ok (.asl .acc) [] ∧
  decode [0x96, 0xF0] = .ok (.stx (.zpy 0xF0)) [] ∧ decode [0xBE, 0x34, 0x12] = .ok (.ldx (.mem (.absy 0x1234))) [] ∧
  decode [0xC1, 0x40] = .ok (.cmp (.mem (.indx 0x40))) [] ∧ decode [0x91, 0x10] = .ok (.sta (.indy 0x10)) [] ∧
  decode [0xD0, 0xF8] = .ok (.bne 0xF8) [] ∧ decode [0x6C, 0xFF, 0x30] = .ok (.jmp (.ind 0x30FF)) [] ∧
  decode [0x20, 0x34, 0x12] = .ok (.jsr 0x1234) [] ∧ decode [0x68] = .ok .pla [] ∧ decode [0xF8] = .ok .sed [] ∧
  decode [0x40] = .ok .rti [] ∧ decode [0x02] = .ok (.undefined 0x02) []

/-- R300, R109: the cycle counts of each class, with the page-cross cycle only in the read class. -/
def Obligations.CycleCountsByClass : Prop :=
  ∀ (v b : Byte) (w : Word) (x : Bool),
    let p : Nat := if x then 1 else 0
    (∀ k : ReadOperand → Instr, k = .adc ∨ k = .and ∨ k = .cmp ∨ k = .eor ∨ k = .lda ∨ k = .ora ∨ k = .sbc →
      cyclesOf (k (.imm v)) x = 2 ∧ cyclesOf (k (.mem (.zp b))) x = 3 ∧ cyclesOf (k (.mem (.zpx b))) x = 4 ∧
      cyclesOf (k (.mem (.abs w))) x = 4 ∧ cyclesOf (k (.mem (.absx w))) x = 4 + p ∧
      cyclesOf (k (.mem (.absy w))) x = 4 + p ∧ cyclesOf (k (.mem (.indx b))) x = 6 ∧
      cyclesOf (k (.mem (.indy b))) x = 5 + p) ∧
    (cyclesOf (.ldx (.imm v)) x = 2 ∧ cyclesOf (.ldx (.mem (.zp b))) x = 3 ∧ cyclesOf (.ldx (.mem (.zpy b))) x = 4 ∧
      cyclesOf (.ldx (.mem (.abs w))) x = 4 ∧ cyclesOf (.ldx (.mem (.absy w))) x = 4 + p ∧
      cyclesOf (.ldy (.imm v)) x = 2 ∧ cyclesOf (.ldy (.mem (.zp b))) x = 3 ∧ cyclesOf (.ldy (.mem (.zpx b))) x = 4 ∧
      cyclesOf (.ldy (.mem (.abs w))) x = 4 ∧ cyclesOf (.ldy (.mem (.absx w))) x = 4 + p) ∧
    (∀ k : ReadOperand → Instr, k = .cpx ∨ k = .cpy →
      cyclesOf (k (.imm v)) x = 2 ∧ cyclesOf (k (.mem (.zp b))) x = 3 ∧ cyclesOf (k (.mem (.abs w))) x = 4) ∧
    (cyclesOf (.bit (.zp b)) x = 3 ∧ cyclesOf (.bit (.abs w)) x = 4) ∧
    (cyclesOf (.sta (.zp b)) x = 3 ∧ cyclesOf (.sta (.zpx b)) x = 4 ∧ cyclesOf (.sta (.abs w)) x = 4 ∧
      cyclesOf (.sta (.absx w)) x = 5 ∧ cyclesOf (.sta (.absy w)) x = 5 ∧ cyclesOf (.sta (.indx b)) x = 6 ∧
      cyclesOf (.sta (.indy b)) x = 6) ∧
    (cyclesOf (.stx (.zp b)) x = 3 ∧ cyclesOf (.stx (.zpy b)) x = 4 ∧ cyclesOf (.stx (.abs w)) x = 4 ∧
      cyclesOf (.sty (.zp b)) x = 3 ∧ cyclesOf (.sty (.zpx b)) x = 4 ∧ cyclesOf (.sty (.abs w)) x = 4) ∧
    (∀ k : ShiftOperand → Instr, k = .asl ∨ k = .lsr ∨ k = .rol ∨ k = .ror →
      cyclesOf (k .acc) x = 2 ∧ cyclesOf (k (.mem (.zp b))) x = 5 ∧ cyclesOf (k (.mem (.zpx b))) x = 6 ∧
      cyclesOf (k (.mem (.abs w))) x = 6 ∧ cyclesOf (k (.mem (.absx w))) x = 7) ∧
    (∀ k : MemOperand → Instr, k = .inc ∨ k = .dec →
      cyclesOf (k (.zp b)) x = 5 ∧ cyclesOf (k (.zpx b)) x = 6 ∧ cyclesOf (k (.abs w)) x = 6 ∧
      cyclesOf (k (.absx w)) x = 7)

/-! ## Rules of the whole machine -/

/-- Every step, one that reports IllegalOpcode included, leaves the FSM at `Ready` (R131) and memory in its canonical form (the
model's choice, log 3). -/
def Obligations.StepKeepsInvariant : Prop :=
  ∀ s t : State, Inv s → Leaves s t → Inv t

/-- R260: no official instruction can fail; a step reports only before reset or at an undefined byte under `Report`. -/
def Obligations.OfficialInstructionsNeverFail : Prop :=
  (∀ (i : Instr) (s : State), (∀ op, i ≠ .undefined op) → ∃ t, exec i s = .next t) ∧
  ∀ s : State, SafeStep s ∨ (s.fsm = .powerOn ∧ step s = .fault .notReset) ∨
    (Fetches s ∧ s.params.undefinedPolicy = .report ∧ (decodeEntry (busRead s.pc s).1).defined = false ∧
      step s = .fault (.illegalOpcode (busRead s.pc s).1 s.pc (busRead s.pc s).2))

/-- R31, R45 to R50: which instructions may change each flag. -/
def Obligations.FlagsChangeOnlyByTheirWriters : Prop :=
  ∀ (i : Instr) (s t : State), exec i s = .next t →
    (t.p.n ≠ s.p.n ∨ t.p.z ≠ s.p.z → i = .tax ∨ i = .tay ∨ i = .txa ∨ i = .tya ∨ i = .tsx ∨ i = .pla ∨
      i = .inx ∨ i = .iny ∨ i = .dex ∨ i = .dey ∨ i = .plp ∨ i = .rti ∨
      (∃ o, i = .lda o ∨ i = .ldx o ∨ i = .ldy o ∨ i = .and o ∨ i = .ora o ∨ i = .eor o ∨ i = .adc o ∨ i = .sbc o ∨
        i = .cmp o ∨ i = .cpx o ∨ i = .cpy o) ∨
      (∃ o, i = .asl o ∨ i = .lsr o ∨ i = .rol o ∨ i = .ror o) ∨ ∃ m, i = .inc m ∨ i = .dec m ∨ i = .bit m) ∧
    (t.p.b ≠ s.p.b → i = .plp ∨ i = .rti) ∧
    (t.p.d ≠ s.p.d → i = .cld ∨ i = .sed ∨ i = .plp ∨ i = .rti) ∧
    (t.p.i ≠ s.p.i → i = .cli ∨ i = .sei ∨ i = .plp ∨ i = .rti ∨ i = .brk) ∧
    (t.p.v ≠ s.p.v → i = .clv ∨ i = .plp ∨ i = .rti ∨ (∃ o, i = .adc o ∨ i = .sbc o) ∨ ∃ m, i = .bit m) ∧
    (t.p.c ≠ s.p.c → i = .clc ∨ i = .sec ∨ i = .plp ∨ i = .rti ∨
      (∃ o, i = .adc o ∨ i = .sbc o ∨ i = .cmp o ∨ i = .cpx o ∨ i = .cpy o) ∨
      ∃ o, i = .asl o ∨ i = .lsr o ∨ i = .rol o ∨ i = .ror o)

/-- R34 to R37: which instructions may change A, X, Y and S. -/
def Obligations.RegistersChangeOnlyByTheirWriters : Prop :=
  ∀ (i : Instr) (s t : State), exec i s = .next t →
    (t.a ≠ s.a → i = .txa ∨ i = .tya ∨ i = .pla ∨
      (∃ o, i = .adc o ∨ i = .sbc o ∨ i = .and o ∨ i = .ora o ∨ i = .eor o ∨ i = .lda o) ∨
      i = .asl .acc ∨ i = .lsr .acc ∨ i = .rol .acc ∨ i = .ror .acc) ∧
    (t.x ≠ s.x → i = .tax ∨ i = .tsx ∨ i = .inx ∨ i = .dex ∨ ∃ o, i = .ldx o) ∧
    (t.y ≠ s.y → i = .tay ∨ i = .iny ∨ i = .dey ∨ ∃ o, i = .ldy o) ∧
    (t.s ≠ s.s → i = .txs ∨ i = .pha ∨ i = .php ∨ i = .pla ∨ i = .plp ∨ i = .rts ∨ i = .rti ∨ i = .brk ∨
      ∃ w, i = .jsr w)

/-- R127: after Execute `PC` is the next instruction's address unless the instruction is a taken branch, JMP, JSR, RTS, RTI
or BRK. -/
def Obligations.PcChangesOnlyByControlTransfer : Prop :=
  ∀ (i : Instr) (s t : State), exec i s = .next t → t.pc ≠ s.pc →
    i = .rts ∨ i = .rti ∨ i = .brk ∨ (∃ o, i = .jmp o) ∨ (∃ w, i = .jsr w) ∨
      ∃ d, (i = .bpl d ∧ s.p.n = false) ∨ (i = .bmi d ∧ s.p.n = true) ∨ (i = .bvc d ∧ s.p.v = false) ∨
        (i = .bvs d ∧ s.p.v = true) ∨ (i = .bcc d ∧ s.p.c = false) ∨ (i = .bcs d ∧ s.p.c = true) ∨
        (i = .bne d ∧ s.p.z = false) ∨ (i = .beq d ∧ s.p.z = true)

/-- R53, R54, R262, R268: a step never sets the NMI latch, never changes the IRQ level or the device windows, and the only
thing it clears the latch for is the NMI entry. That no device handler changes the two interrupt inputs inside a step is the
model's reading (DEDUCED, log 16), and that no step changes the parameters is the model's choice (log 7). -/
def Obligations.HostInputsChangeOnlyByHost : Prop :=
  ∀ s t : State, Leaves s t →
    t.irqLine = s.irqLine ∧ t.windows = s.windows ∧ t.params = s.params ∧ t.nmiPending = false ∧
      (s.nmiPending = true → step s = .next (interruptEntry s.params.nmiVector { s with nmiPending := false }))

/-- R55, R300: no rule reads `cycle_total`: more cycles before a step are more cycles after it, and nothing else. -/
def Obligations.CycleTotalInfluencesNothing : Prop :=
  ∀ (n : Nat) (s : State), step (moreCycles n s) = onLeft (moreCycles n) (step s)

/-- R50, R57: the live B flag influences nothing but itself. -/
def Obligations.BreakFlagInfluencesNothing : Prop :=
  ∀ (b : Bool) (s : State), onLeft (withB false) (step (withB b s)) = onLeft (withB false) (step s)

/-- R88, R71: a step only adds to the access history, and every step after reset adds at least one event, but no more than
eight: at most three instruction bytes, and five accesses of an entry. An IllegalOpcode report adds exactly one (R253). -/
def Obligations.StepMakesBoundedBusAccesses : Prop :=
  ∀ s t : State, Leaves s t → ∃ es, NewEvents s t es ∧ 1 ≤ es.length ∧ es.length ≤ 8 ∧
    ((∀ u, step s ≠ .next u) → es.length = 1)

/-- R130, R131: `free_run()` stops only at a report. NotReset repeats and leaves the state as it is. IllegalOpcode repeats
where its address is in no device window, with one more opcode read in the history (R253; that the state a report leaves keeps it is log 9) and no other change; where a device
answers the opcode read, the byte read again is the device's (R72), and nothing is said. -/
def Obligations.FreeRunStopsAtARepeatingReport : Prop :=
  ∀ (n : Nat) (s t : State) (r : StepResult), freeRun n s = (some r, t) →
    (r = .notReset ∧ hostStep t = (r, t)) ∨
    ∃ op pc, r = .illegalOpcode op pc ∧ t.pc = pc ∧ Fetches t ∧
      (∃ older, t.history = .read pc op :: older) ∧
      (Ordinary t [pc] → hostStep t = (r, { t with history := .read pc op :: t.history }))
end

