-- ==== Sys2Proof/Laws/Decode.lean ====
section
/-! SUPPORT. Facts of the decoder and the encoder: the halves of a word, that every table entry assembles, and that the
decoder never rejects what the fetch unit has read. -/

namespace Sys2Proof

open Sys2Proof.Machine

namespace Machine

/-- The bits of a concatenation. -/
theorem wordOf_getLsbD (h l : Byte) (k : Nat) : (wordOf h l).getLsbD k = if k < 8 then l.getLsbD k else h.getLsbD (k - 8) := by
  refine (BitVec.getLsbD_append (x := h) (y := l) (i := k)).trans ?_
  by_cases hk : k < 8 <;> simp [hk]

@[simp] theorem hiByte_wordOf (h l : Byte) : hiByte (wordOf h l) = h := by
  ext i hi
  simp [hiByte, wordOf_getLsbD, hi]

@[simp] theorem loByte_wordOf (h l : Byte) : loByte (wordOf h l) = l := by
  ext i hi
  simp [loByte, wordOf_getLsbD, hi]

@[simp] theorem wordOf_halves (w : Word) : wordOf (hiByte w) (loByte w) = w := by
  apply BitVec.eq_of_getLsbD_eq
  intro i hi
  rw [wordOf_getLsbD]
  split
  · next h => simp [loByte, h]
  · next h =>
    have e : 8 + (i - 8) = i := by omega
    have e2 : i - 8 < 8 := by omega
    simp [hiByte, e, e2]
end Machine

/-- Whether an entry assembles does not depend on the bytes. -/
theorem assemble_isSome (e : DecodeEntry) (op b1 b2 : Byte) :
    (assemble e op b1 b2).isSome = (assemble e 0 0 0).isSome := by
  obtain ⟨d, n, f, mode, l, c, p⟩ := e
  cases f <;> cases mode <;> rfl

/-- Every entry of the table pairs its operation with a mode that assembles (41_addressing_modes.md R159). -/
theorem table_assembles (op b1 b2 : Byte) : (assemble (decodeEntry op) op b1 b2).isSome = true := by
  have h : ∀ n : Fin 256, (assemble (decodeEntry (BitVec.ofFin n)) 0 0 0).isSome = true := by decide +kernel
  rw [assemble_isSome]
  exact h op.toFin

/-- The decoder accepts an opcode byte followed by all the bytes its operand takes. -/
theorem decode_isSome (op : Byte) (bytes : List Byte) (h : (decodeEntry op).operandCount ≤ bytes.length) :
    (decode (op :: bytes)).instr?.isSome = true := by
  have ha := table_assembles op (bytes.getD 0 0) (bytes.getD 1 0)
  obtain ⟨i, hi⟩ := Option.isSome_iff_exists.mp ha
  simp only [decode, Nat.not_lt.mpr h, if_false, hi]
  rfl

/-- Decoding depends on no more bytes than the operand takes; the rest is what follows the instruction. -/
theorem decode_eq (op : Byte) (bytes : List Byte) (i : Instr) (h : (decodeEntry op).operandCount ≤ bytes.length)
    (hi : assemble (decodeEntry op) op (bytes.getD 0 0) (bytes.getD 1 0) = some i) :
    decode (op :: bytes) = .ok i (bytes.drop ((decodeEntry op).length - 1)) := by
  simp only [decode, Nat.not_lt.mpr h, if_false, hi]

/-- How many operand bytes an entry assembles, from its operation and its mode. -/
theorem operandCount_eq (op : Byte) :
    (decodeEntry op).operandCount =
      match (decodeEntry op).operation, (decodeEntry op).mode with
      | .implied _, _ | .undefined, _ => 0
      | _, .implied | _, .accumulator => 0
      | _, .absolute | _, .absoluteX | _, .absoluteY | _, .indirect => 2
      | _, _ => 1 := by
  have h : ∀ n : Fin 256, (decodeEntry (BitVec.ofFin n)).operandCount =
      match (decodeEntry (BitVec.ofFin n)).operation, (decodeEntry (BitVec.ofFin n)).mode with
      | .implied _, _ | .undefined, _ => 0
      | _, .implied | _, .accumulator => 0
      | _, .absolute | _, .absoluteX | _, .absoluteY | _, .indirect => 2
      | _, _ => 1 := by decide +kernel
  exact h op.toFin

/-- Assembling depends on no byte beyond those the operand takes. -/
theorem assemble_congr (op b1 b2 c1 c2 : Byte) (h1 : 1 ≤ (decodeEntry op).operandCount → b1 = c1)
    (h2 : 2 ≤ (decodeEntry op).operandCount → b2 = c2) :
    assemble (decodeEntry op) op b1 b2 = assemble (decodeEntry op) op c1 c2 := by
  rw [operandCount_eq] at h1 h2
  generalize decodeEntry op = e at *
  obtain ⟨d, n, f, mode, l, c, p⟩ := e
  cases f <;> cases mode <;> first
    | rfl
    | (obtain rfl := h1 (Nat.le_refl 1); rfl)
    | (obtain rfl := h1 (Nat.le_succ 1); obtain rfl := h2 (Nat.le_refl 2); rfl)

/-- An undefined entry takes no operand bytes and assembles the undefined byte. -/
theorem assemble_undefined (op : Byte) (h : (decodeEntry op).defined = false) :
    (decodeEntry op).operandCount = 0 ∧ ∀ b1 b2, assemble (decodeEntry op) op b1 b2 = some (.undefined op) := by
  have ht : ∀ n : Fin 256, (decodeEntry (BitVec.ofFin n)).defined =
      match (decodeEntry (BitVec.ofFin n)).operation with
      | .undefined => false
      | _ => true := by decide +kernel
  have hd := ht op.toFin
  rw [show BitVec.ofFin op.toFin = op from rfl, h] at hd
  generalize decodeEntry op = e at *
  obtain ⟨d, n, f, mode, l, c, p⟩ := e
  cases f with
  | undefined => exact ⟨rfl, fun _ _ => by cases mode <;> rfl⟩
  | _ => exact Bool.noConfusion hd

/-- An official entry assembles no undefined byte. -/
def assemblesOfficial (op b1 b2 : Byte) (e : DecodeEntry) : Bool :=
  !e.defined || match assemble e op b1 b2 with
    | some (.undefined _) => false
    | _ => true

theorem table_assemblesOfficial (op b1 b2 : Byte) : decodeTable.all (assemblesOfficial op b1 b2) = true := by
  simp only [decodeTable, List.all_append, Bool.and_eq_true]
  exact ⟨rfl, rfl, rfl, rfl, rfl, rfl, rfl, rfl, rfl, rfl, rfl, rfl, rfl, rfl, rfl, rfl⟩

/-- What an official opcode byte assembles is no undefined byte. -/
theorem assemble_official (op b1 b2 op' : Byte) (h : (decodeEntry op).defined = true) :
    assemble (decodeEntry op) op b1 b2 ≠ some (.undefined op') := by
  intro hu
  have hm : decodeEntry op ∈ decodeTable := by
    have hl : op.toNat < decodeTable.length := by rw [show decodeTable.length = 256 by decide +kernel]; exact op.isLt
    simp only [decodeEntry, List.getElem?_eq_getElem hl, Option.getD_some, List.getElem_mem]
  have := List.all_eq_true.mp (table_assemblesOfficial op b1 b2) _ hm
  simp [assemblesOfficial, h, hu] at this

end Sys2Proof
end

