-- ==== Sys2Proof/Laws/Memory.lean ====
section
/-! SUPPORT. The laws of memory: what a read gives after a write, and that every operation keeps the canonical form. -/

namespace Sys2Proof.Machine

theorem memRead_memErase_same (m : Memory) (k : Nat) : memRead (memErase m k) k = unlistedByte := by
  induction m with
  | nil => rfl
  | cons c rest ih =>
    by_cases h : c.1 = k
    · simpa [memErase, h] using ih
    · simpa [memErase, memRead, h] using ih

theorem memRead_memErase_other (m : Memory) {k j : Nat} (hj : j ≠ k) : memRead (memErase m k) j = memRead m j := by
  induction m with
  | nil => rfl
  | cons c rest ih =>
    by_cases h : c.1 = k
    · have : c.1 ≠ j := fun e => hj (e ▸ h)
      simpa [memErase, memRead, h, this, Ne.symm hj] using ih
    · by_cases h2 : c.1 = j
      · simp [memErase, memRead, h2, hj]
      · simpa [memErase, memRead, h, h2] using ih

theorem memRead_memInsert_other (m : Memory) {k j : Nat} (v : Byte) (hj : j ≠ k) :
    memRead (memInsert k v m) j = memRead m j := by
  induction m with
  | nil => simp [memInsert, memRead, Ne.symm hj]
  | cons c rest ih =>
    unfold memInsert
    split
    · simp [memRead, Ne.symm hj]
    · simp [memRead, ih]

theorem memRead_memInsert_same (m : Memory) (k : Nat) (v : Byte) (h : ∀ c ∈ m, c.1 ≠ k) :
    memRead (memInsert k v m) k = v := by
  induction m with
  | nil => simp [memInsert, memRead]
  | cons c rest ih =>
    unfold memInsert
    split
    · simp [memRead]
    · simp only [memRead, h c (by simp), if_false]
      exact ih fun c hc => h c (by simp [hc])

theorem memErase_absent (m : Memory) (k : Nat) : ∀ c ∈ memErase m k, c.1 ≠ k := by
  intro c hc
  simpa using (List.mem_filter.mp hc).2

/-- A byte written reads back (20_memory.md R96). -/
@[simp] theorem memRead_memWrite_same (m : Memory) (k : Nat) (v : Byte) : memRead (memWrite m k v) k = v := by
  unfold memWrite
  split
  · next h => rw [memRead_memErase_same, h]
  · exact memRead_memInsert_same _ _ _ (memErase_absent m k)

/-- A write leaves every other byte alone. -/
theorem memRead_memWrite_other (m : Memory) {k j : Nat} (v : Byte) (h : j ≠ k) :
    memRead (memWrite m k v) j = memRead m j := by
  unfold memWrite
  split
  · exact memRead_memErase_other m h
  · rw [memRead_memInsert_other _ v h, memRead_memErase_other m h]

/-- What the canonical form says of a listed pair and the list after it. -/
theorem memWf_cons (c : Host.Cell) (rest : Memory) :
    Memory.wf (c :: rest) = true ↔
      c.1 < 65536 ∧ c.2 ≠ unlistedByte ∧ (∀ d ∈ rest, c.1 < d.1) ∧ Memory.wf rest = true := by
  simp [Memory.wf, memAbove, and_assoc]

theorem memWf_memErase (m : Memory) (k : Nat) (h : Memory.wf m = true) : Memory.wf (memErase m k) = true := by
  induction m with
  | nil => rfl
  | cons c rest ih =>
    obtain ⟨h1, h2, h3, h4⟩ := (memWf_cons c rest).mp h
    by_cases hk : c.1 = k
    · simpa [memErase, hk] using ih h4
    · have e : memErase (c :: rest) k = c :: memErase rest k := by simp [memErase, hk]
      rw [e, memWf_cons]
      exact ⟨h1, h2, fun d hd => h3 d (List.mem_filter.mp hd).1, ih h4⟩

theorem mem_memInsert (m : Memory) (k : Nat) (v : Byte) (d : Host.Cell) (h : d ∈ memInsert k v m) :
    d = (k, v) ∨ d ∈ m := by
  induction m with
  | nil => simpa [memInsert] using h
  | cons c rest ih =>
    unfold memInsert at h
    split at h
    · simpa using h
    · rcases List.mem_cons.mp h with h | h
      · simp [h]
      · rcases ih h with h | h <;> simp [h]

theorem memWf_memInsert (m : Memory) (k : Nat) (v : Byte) (hk : k < 65536) (hv : v ≠ unlistedByte)
    (habs : ∀ c ∈ m, c.1 ≠ k) (h : Memory.wf m = true) : Memory.wf (memInsert k v m) = true := by
  induction m with
  | nil => simp [memInsert, Memory.wf, memAbove, hk, hv]
  | cons c rest ih =>
    obtain ⟨h1, h2, h3, h4⟩ := (memWf_cons c rest).mp h
    unfold memInsert
    split
    · next hlt =>
      rw [memWf_cons]
      refine ⟨hk, hv, fun d hd => ?_, h⟩
      rcases List.mem_cons.mp hd with rfl | hd
      · exact hlt
      · exact Nat.lt_trans hlt (h3 d hd)
    · next hge =>
      rw [memWf_cons]
      refine ⟨h1, h2, fun d hd => ?_, ih (fun d hd => habs d (by simp [hd])) h4⟩
      rcases mem_memInsert _ _ _ _ hd with rfl | hd
      · have := habs c (by simp)
        show c.1 < k
        omega
      · exact h3 d hd

/-- A write keeps the canonical form. -/
theorem memWf_memWrite (m : Memory) (k : Nat) (v : Byte) (hk : k < 65536) (h : Memory.wf m = true) :
    Memory.wf (memWrite m k v) = true := by
  unfold memWrite
  split
  · exact memWf_memErase m k h
  · next hv => exact memWf_memInsert _ k v hk hv (memErase_absent m k) (memWf_memErase m k h)

/-- A device handler's writes keep the canonical form. -/
theorem memWf_memWriteAll (m : Memory) (ws : List (Word × Byte)) (h : Memory.wf m = true) :
    Memory.wf (memWriteAll m ws) = true := by
  induction ws generalizing m with
  | nil => exact h
  | cons w rest ih => exact ih _ (memWf_memWrite m _ _ w.1.isLt h)

/-- The writes of a history keep the canonical form. -/
theorem memWf_memReplay (m : Memory) (es : List BusEvent) (h : Memory.wf m = true) : Memory.wf (memReplay m es) = true := by
  induction es with
  | nil => exact h
  | cons e older ih =>
    cases e with
    | read a v => exact ih
    | write a v => exact memWf_memWrite _ _ _ a.isLt ih

/-- Replaying two histories, the older first. -/
theorem memReplay_append (m : Memory) (newer older : List BusEvent) :
    memReplay m (newer ++ older) = memReplay (memReplay m older) newer := by
  induction newer with
  | nil => rfl
  | cons e rest ih => cases e <;> simp [memReplay, ih]

end Sys2Proof.Machine
end

