-- ==== Sys2Proof/Laws/State.lean ====
section
/-! SUPPORT. One lemma per field per update of State, so that no later proof unfolds a record update. -/

namespace Sys2Proof.Machine

/-- Two states with the same fields are the same state. -/
theorem State.eq_of_fields {s t : State} (ha : s.a = t.a) (hx : s.x = t.x) (hy : s.y = t.y) (hs : s.s = t.s)
    (hpc : s.pc = t.pc) (hp : s.p = t.p) (hf : s.fsm = t.fsm) (hn : s.nmiPending = t.nmiPending)
    (hi : s.irqLine = t.irqLine) (hc : s.cycleTotal = t.cycleTotal) (hm : s.mem = t.mem) (hw : s.windows = t.windows)
    (hh : s.history = t.history) (hq : s.params = t.params) : s = t := by
  cases s; cases t; simp_all

@[simp] theorem State.setA_a (t : State) (v : Byte) : (t.setA v).a = v := rfl
@[simp] theorem State.setA_x (t : State) (v : Byte) : (t.setA v).x = t.x := rfl
@[simp] theorem State.setA_y (t : State) (v : Byte) : (t.setA v).y = t.y := rfl
@[simp] theorem State.setA_s (t : State) (v : Byte) : (t.setA v).s = t.s := rfl
@[simp] theorem State.setA_pc (t : State) (v : Byte) : (t.setA v).pc = t.pc := rfl
@[simp] theorem State.setA_p (t : State) (v : Byte) : (t.setA v).p = t.p := rfl
@[simp] theorem State.setA_fsm (t : State) (v : Byte) : (t.setA v).fsm = t.fsm := rfl
@[simp] theorem State.setA_nmiPending (t : State) (v : Byte) : (t.setA v).nmiPending = t.nmiPending := rfl
@[simp] theorem State.setA_irqLine (t : State) (v : Byte) : (t.setA v).irqLine = t.irqLine := rfl
@[simp] theorem State.setA_cycleTotal (t : State) (v : Byte) : (t.setA v).cycleTotal = t.cycleTotal := rfl
@[simp] theorem State.setA_mem (t : State) (v : Byte) : (t.setA v).mem = t.mem := rfl
@[simp] theorem State.setA_windows (t : State) (v : Byte) : (t.setA v).windows = t.windows := rfl
@[simp] theorem State.setA_history (t : State) (v : Byte) : (t.setA v).history = t.history := rfl
@[simp] theorem State.setA_params (t : State) (v : Byte) : (t.setA v).params = t.params := rfl
@[simp] theorem State.setA_deviceAt (t : State) (v : Byte) (addr : Word) : (t.setA v).deviceAt addr = t.deviceAt addr := rfl

@[simp] theorem State.setX_a (t : State) (v : Byte) : (t.setX v).a = t.a := rfl
@[simp] theorem State.setX_x (t : State) (v : Byte) : (t.setX v).x = v := rfl
@[simp] theorem State.setX_y (t : State) (v : Byte) : (t.setX v).y = t.y := rfl
@[simp] theorem State.setX_s (t : State) (v : Byte) : (t.setX v).s = t.s := rfl
@[simp] theorem State.setX_pc (t : State) (v : Byte) : (t.setX v).pc = t.pc := rfl
@[simp] theorem State.setX_p (t : State) (v : Byte) : (t.setX v).p = t.p := rfl
@[simp] theorem State.setX_fsm (t : State) (v : Byte) : (t.setX v).fsm = t.fsm := rfl
@[simp] theorem State.setX_nmiPending (t : State) (v : Byte) : (t.setX v).nmiPending = t.nmiPending := rfl
@[simp] theorem State.setX_irqLine (t : State) (v : Byte) : (t.setX v).irqLine = t.irqLine := rfl
@[simp] theorem State.setX_cycleTotal (t : State) (v : Byte) : (t.setX v).cycleTotal = t.cycleTotal := rfl
@[simp] theorem State.setX_mem (t : State) (v : Byte) : (t.setX v).mem = t.mem := rfl
@[simp] theorem State.setX_windows (t : State) (v : Byte) : (t.setX v).windows = t.windows := rfl
@[simp] theorem State.setX_history (t : State) (v : Byte) : (t.setX v).history = t.history := rfl
@[simp] theorem State.setX_params (t : State) (v : Byte) : (t.setX v).params = t.params := rfl
@[simp] theorem State.setX_deviceAt (t : State) (v : Byte) (addr : Word) : (t.setX v).deviceAt addr = t.deviceAt addr := rfl

@[simp] theorem State.setY_a (t : State) (v : Byte) : (t.setY v).a = t.a := rfl
@[simp] theorem State.setY_x (t : State) (v : Byte) : (t.setY v).x = t.x := rfl
@[simp] theorem State.setY_y (t : State) (v : Byte) : (t.setY v).y = v := rfl
@[simp] theorem State.setY_s (t : State) (v : Byte) : (t.setY v).s = t.s := rfl
@[simp] theorem State.setY_pc (t : State) (v : Byte) : (t.setY v).pc = t.pc := rfl
@[simp] theorem State.setY_p (t : State) (v : Byte) : (t.setY v).p = t.p := rfl
@[simp] theorem State.setY_fsm (t : State) (v : Byte) : (t.setY v).fsm = t.fsm := rfl
@[simp] theorem State.setY_nmiPending (t : State) (v : Byte) : (t.setY v).nmiPending = t.nmiPending := rfl
@[simp] theorem State.setY_irqLine (t : State) (v : Byte) : (t.setY v).irqLine = t.irqLine := rfl
@[simp] theorem State.setY_cycleTotal (t : State) (v : Byte) : (t.setY v).cycleTotal = t.cycleTotal := rfl
@[simp] theorem State.setY_mem (t : State) (v : Byte) : (t.setY v).mem = t.mem := rfl
@[simp] theorem State.setY_windows (t : State) (v : Byte) : (t.setY v).windows = t.windows := rfl
@[simp] theorem State.setY_history (t : State) (v : Byte) : (t.setY v).history = t.history := rfl
@[simp] theorem State.setY_params (t : State) (v : Byte) : (t.setY v).params = t.params := rfl
@[simp] theorem State.setY_deviceAt (t : State) (v : Byte) (addr : Word) : (t.setY v).deviceAt addr = t.deviceAt addr := rfl

@[simp] theorem State.setS_a (t : State) (v : Byte) : (t.setS v).a = t.a := rfl
@[simp] theorem State.setS_x (t : State) (v : Byte) : (t.setS v).x = t.x := rfl
@[simp] theorem State.setS_y (t : State) (v : Byte) : (t.setS v).y = t.y := rfl
@[simp] theorem State.setS_s (t : State) (v : Byte) : (t.setS v).s = v := rfl
@[simp] theorem State.setS_pc (t : State) (v : Byte) : (t.setS v).pc = t.pc := rfl
@[simp] theorem State.setS_p (t : State) (v : Byte) : (t.setS v).p = t.p := rfl
@[simp] theorem State.setS_fsm (t : State) (v : Byte) : (t.setS v).fsm = t.fsm := rfl
@[simp] theorem State.setS_nmiPending (t : State) (v : Byte) : (t.setS v).nmiPending = t.nmiPending := rfl
@[simp] theorem State.setS_irqLine (t : State) (v : Byte) : (t.setS v).irqLine = t.irqLine := rfl
@[simp] theorem State.setS_cycleTotal (t : State) (v : Byte) : (t.setS v).cycleTotal = t.cycleTotal := rfl
@[simp] theorem State.setS_mem (t : State) (v : Byte) : (t.setS v).mem = t.mem := rfl
@[simp] theorem State.setS_windows (t : State) (v : Byte) : (t.setS v).windows = t.windows := rfl
@[simp] theorem State.setS_history (t : State) (v : Byte) : (t.setS v).history = t.history := rfl
@[simp] theorem State.setS_params (t : State) (v : Byte) : (t.setS v).params = t.params := rfl
@[simp] theorem State.setS_deviceAt (t : State) (v : Byte) (addr : Word) : (t.setS v).deviceAt addr = t.deviceAt addr := rfl

@[simp] theorem State.setPc_a (t : State) (v : Word) : (t.setPc v).a = t.a := rfl
@[simp] theorem State.setPc_x (t : State) (v : Word) : (t.setPc v).x = t.x := rfl
@[simp] theorem State.setPc_y (t : State) (v : Word) : (t.setPc v).y = t.y := rfl
@[simp] theorem State.setPc_s (t : State) (v : Word) : (t.setPc v).s = t.s := rfl
@[simp] theorem State.setPc_pc (t : State) (v : Word) : (t.setPc v).pc = v := rfl
@[simp] theorem State.setPc_p (t : State) (v : Word) : (t.setPc v).p = t.p := rfl
@[simp] theorem State.setPc_fsm (t : State) (v : Word) : (t.setPc v).fsm = t.fsm := rfl
@[simp] theorem State.setPc_nmiPending (t : State) (v : Word) : (t.setPc v).nmiPending = t.nmiPending := rfl
@[simp] theorem State.setPc_irqLine (t : State) (v : Word) : (t.setPc v).irqLine = t.irqLine := rfl
@[simp] theorem State.setPc_cycleTotal (t : State) (v : Word) : (t.setPc v).cycleTotal = t.cycleTotal := rfl
@[simp] theorem State.setPc_mem (t : State) (v : Word) : (t.setPc v).mem = t.mem := rfl
@[simp] theorem State.setPc_windows (t : State) (v : Word) : (t.setPc v).windows = t.windows := rfl
@[simp] theorem State.setPc_history (t : State) (v : Word) : (t.setPc v).history = t.history := rfl
@[simp] theorem State.setPc_params (t : State) (v : Word) : (t.setPc v).params = t.params := rfl
@[simp] theorem State.setPc_deviceAt (t : State) (v : Word) (addr : Word) : (t.setPc v).deviceAt addr = t.deviceAt addr := rfl

@[simp] theorem State.setP_a (t : State) (v : Status) : (t.setP v).a = t.a := rfl
@[simp] theorem State.setP_x (t : State) (v : Status) : (t.setP v).x = t.x := rfl
@[simp] theorem State.setP_y (t : State) (v : Status) : (t.setP v).y = t.y := rfl
@[simp] theorem State.setP_s (t : State) (v : Status) : (t.setP v).s = t.s := rfl
@[simp] theorem State.setP_pc (t : State) (v : Status) : (t.setP v).pc = t.pc := rfl
@[simp] theorem State.setP_p (t : State) (v : Status) : (t.setP v).p = v := rfl
@[simp] theorem State.setP_fsm (t : State) (v : Status) : (t.setP v).fsm = t.fsm := rfl
@[simp] theorem State.setP_nmiPending (t : State) (v : Status) : (t.setP v).nmiPending = t.nmiPending := rfl
@[simp] theorem State.setP_irqLine (t : State) (v : Status) : (t.setP v).irqLine = t.irqLine := rfl
@[simp] theorem State.setP_cycleTotal (t : State) (v : Status) : (t.setP v).cycleTotal = t.cycleTotal := rfl
@[simp] theorem State.setP_mem (t : State) (v : Status) : (t.setP v).mem = t.mem := rfl
@[simp] theorem State.setP_windows (t : State) (v : Status) : (t.setP v).windows = t.windows := rfl
@[simp] theorem State.setP_history (t : State) (v : Status) : (t.setP v).history = t.history := rfl
@[simp] theorem State.setP_params (t : State) (v : Status) : (t.setP v).params = t.params := rfl
@[simp] theorem State.setP_deviceAt (t : State) (v : Status) (addr : Word) : (t.setP v).deviceAt addr = t.deviceAt addr := rfl

@[simp] theorem State.setMem_a (t : State) (v : Memory) : (t.setMem v).a = t.a := rfl
@[simp] theorem State.setMem_x (t : State) (v : Memory) : (t.setMem v).x = t.x := rfl
@[simp] theorem State.setMem_y (t : State) (v : Memory) : (t.setMem v).y = t.y := rfl
@[simp] theorem State.setMem_s (t : State) (v : Memory) : (t.setMem v).s = t.s := rfl
@[simp] theorem State.setMem_pc (t : State) (v : Memory) : (t.setMem v).pc = t.pc := rfl
@[simp] theorem State.setMem_p (t : State) (v : Memory) : (t.setMem v).p = t.p := rfl
@[simp] theorem State.setMem_fsm (t : State) (v : Memory) : (t.setMem v).fsm = t.fsm := rfl
@[simp] theorem State.setMem_nmiPending (t : State) (v : Memory) : (t.setMem v).nmiPending = t.nmiPending := rfl
@[simp] theorem State.setMem_irqLine (t : State) (v : Memory) : (t.setMem v).irqLine = t.irqLine := rfl
@[simp] theorem State.setMem_cycleTotal (t : State) (v : Memory) : (t.setMem v).cycleTotal = t.cycleTotal := rfl
@[simp] theorem State.setMem_mem (t : State) (v : Memory) : (t.setMem v).mem = v := rfl
@[simp] theorem State.setMem_windows (t : State) (v : Memory) : (t.setMem v).windows = t.windows := rfl
@[simp] theorem State.setMem_history (t : State) (v : Memory) : (t.setMem v).history = t.history := rfl
@[simp] theorem State.setMem_params (t : State) (v : Memory) : (t.setMem v).params = t.params := rfl
@[simp] theorem State.setMem_deviceAt (t : State) (v : Memory) (addr : Word) : (t.setMem v).deviceAt addr = t.deviceAt addr := rfl

@[simp] theorem State.setZN_a (t : State) (v : Byte) : (t.setZN v).a = t.a := rfl
@[simp] theorem State.setZN_x (t : State) (v : Byte) : (t.setZN v).x = t.x := rfl
@[simp] theorem State.setZN_y (t : State) (v : Byte) : (t.setZN v).y = t.y := rfl
@[simp] theorem State.setZN_s (t : State) (v : Byte) : (t.setZN v).s = t.s := rfl
@[simp] theorem State.setZN_pc (t : State) (v : Byte) : (t.setZN v).pc = t.pc := rfl
@[simp] theorem State.setZN_p (t : State) (v : Byte) : (t.setZN v).p = t.p.setZN v := rfl
@[simp] theorem State.setZN_fsm (t : State) (v : Byte) : (t.setZN v).fsm = t.fsm := rfl
@[simp] theorem State.setZN_nmiPending (t : State) (v : Byte) : (t.setZN v).nmiPending = t.nmiPending := rfl
@[simp] theorem State.setZN_irqLine (t : State) (v : Byte) : (t.setZN v).irqLine = t.irqLine := rfl
@[simp] theorem State.setZN_cycleTotal (t : State) (v : Byte) : (t.setZN v).cycleTotal = t.cycleTotal := rfl
@[simp] theorem State.setZN_mem (t : State) (v : Byte) : (t.setZN v).mem = t.mem := rfl
@[simp] theorem State.setZN_windows (t : State) (v : Byte) : (t.setZN v).windows = t.windows := rfl
@[simp] theorem State.setZN_history (t : State) (v : Byte) : (t.setZN v).history = t.history := rfl
@[simp] theorem State.setZN_params (t : State) (v : Byte) : (t.setZN v).params = t.params := rfl
@[simp] theorem State.setZN_deviceAt (t : State) (v : Byte) (addr : Word) : (t.setZN v).deviceAt addr = t.deviceAt addr := rfl

@[simp] theorem State.addCycles_a (t : State) (v : Nat) : (t.addCycles v).a = t.a := rfl
@[simp] theorem State.addCycles_x (t : State) (v : Nat) : (t.addCycles v).x = t.x := rfl
@[simp] theorem State.addCycles_y (t : State) (v : Nat) : (t.addCycles v).y = t.y := rfl
@[simp] theorem State.addCycles_s (t : State) (v : Nat) : (t.addCycles v).s = t.s := rfl
@[simp] theorem State.addCycles_pc (t : State) (v : Nat) : (t.addCycles v).pc = t.pc := rfl
@[simp] theorem State.addCycles_p (t : State) (v : Nat) : (t.addCycles v).p = t.p := rfl
@[simp] theorem State.addCycles_fsm (t : State) (v : Nat) : (t.addCycles v).fsm = t.fsm := rfl
@[simp] theorem State.addCycles_nmiPending (t : State) (v : Nat) : (t.addCycles v).nmiPending = t.nmiPending := rfl
@[simp] theorem State.addCycles_irqLine (t : State) (v : Nat) : (t.addCycles v).irqLine = t.irqLine := rfl
@[simp] theorem State.addCycles_cycleTotal (t : State) (v : Nat) : (t.addCycles v).cycleTotal = t.cycleTotal + v := rfl
@[simp] theorem State.addCycles_mem (t : State) (v : Nat) : (t.addCycles v).mem = t.mem := rfl
@[simp] theorem State.addCycles_windows (t : State) (v : Nat) : (t.addCycles v).windows = t.windows := rfl
@[simp] theorem State.addCycles_history (t : State) (v : Nat) : (t.addCycles v).history = t.history := rfl
@[simp] theorem State.addCycles_params (t : State) (v : Nat) : (t.addCycles v).params = t.params := rfl
@[simp] theorem State.addCycles_deviceAt (t : State) (v : Nat) (addr : Word) : (t.addCycles v).deviceAt addr = t.deviceAt addr := rfl

@[simp] theorem State.record_a (t : State) (v : BusEvent) : (t.record v).a = t.a := rfl
@[simp] theorem State.record_x (t : State) (v : BusEvent) : (t.record v).x = t.x := rfl
@[simp] theorem State.record_y (t : State) (v : BusEvent) : (t.record v).y = t.y := rfl
@[simp] theorem State.record_s (t : State) (v : BusEvent) : (t.record v).s = t.s := rfl
@[simp] theorem State.record_pc (t : State) (v : BusEvent) : (t.record v).pc = t.pc := rfl
@[simp] theorem State.record_p (t : State) (v : BusEvent) : (t.record v).p = t.p := rfl
@[simp] theorem State.record_fsm (t : State) (v : BusEvent) : (t.record v).fsm = t.fsm := rfl
@[simp] theorem State.record_nmiPending (t : State) (v : BusEvent) : (t.record v).nmiPending = t.nmiPending := rfl
@[simp] theorem State.record_irqLine (t : State) (v : BusEvent) : (t.record v).irqLine = t.irqLine := rfl
@[simp] theorem State.record_cycleTotal (t : State) (v : BusEvent) : (t.record v).cycleTotal = t.cycleTotal := rfl
@[simp] theorem State.record_mem (t : State) (v : BusEvent) : (t.record v).mem = t.mem := rfl
@[simp] theorem State.record_windows (t : State) (v : BusEvent) : (t.record v).windows = t.windows := rfl
@[simp] theorem State.record_history (t : State) (v : BusEvent) : (t.record v).history = v :: t.history := rfl
@[simp] theorem State.record_params (t : State) (v : BusEvent) : (t.record v).params = t.params := rfl
@[simp] theorem State.record_deviceAt (t : State) (v : BusEvent) (addr : Word) : (t.record v).deviceAt addr = t.deviceAt addr := rfl

@[simp] theorem State.clearNmi_a (t : State) : (t.clearNmi).a = t.a := rfl
@[simp] theorem State.clearNmi_x (t : State) : (t.clearNmi).x = t.x := rfl
@[simp] theorem State.clearNmi_y (t : State) : (t.clearNmi).y = t.y := rfl
@[simp] theorem State.clearNmi_s (t : State) : (t.clearNmi).s = t.s := rfl
@[simp] theorem State.clearNmi_pc (t : State) : (t.clearNmi).pc = t.pc := rfl
@[simp] theorem State.clearNmi_p (t : State) : (t.clearNmi).p = t.p := rfl
@[simp] theorem State.clearNmi_fsm (t : State) : (t.clearNmi).fsm = t.fsm := rfl
@[simp] theorem State.clearNmi_nmiPending (t : State) : (t.clearNmi).nmiPending = false := rfl
@[simp] theorem State.clearNmi_irqLine (t : State) : (t.clearNmi).irqLine = t.irqLine := rfl
@[simp] theorem State.clearNmi_cycleTotal (t : State) : (t.clearNmi).cycleTotal = t.cycleTotal := rfl
@[simp] theorem State.clearNmi_mem (t : State) : (t.clearNmi).mem = t.mem := rfl
@[simp] theorem State.clearNmi_windows (t : State) : (t.clearNmi).windows = t.windows := rfl
@[simp] theorem State.clearNmi_history (t : State) : (t.clearNmi).history = t.history := rfl
@[simp] theorem State.clearNmi_params (t : State) : (t.clearNmi).params = t.params := rfl
@[simp] theorem State.clearNmi_deviceAt (t : State) (addr : Word) : (t.clearNmi).deviceAt addr = t.deviceAt addr := rfl

@[simp] theorem Status.setZN_n (p : Status) (w : Byte) : (p.setZN w).n = isNegative w := rfl
@[simp] theorem Status.setZN_v (p : Status) (w : Byte) : (p.setZN w).v = p.v := rfl
@[simp] theorem Status.setZN_b (p : Status) (w : Byte) : (p.setZN w).b = p.b := rfl
@[simp] theorem Status.setZN_d (p : Status) (w : Byte) : (p.setZN w).d = p.d := rfl
@[simp] theorem Status.setZN_i (p : Status) (w : Byte) : (p.setZN w).i = p.i := rfl
@[simp] theorem Status.setZN_z (p : Status) (w : Byte) : (p.setZN w).z = isZero w := rfl
@[simp] theorem Status.setZN_c (p : Status) (w : Byte) : (p.setZN w).c = p.c := rfl

@[simp] theorem Status.setNZC_n (p : Status) (w : AluResult) : (p.setNZC w).n = w.n := rfl
@[simp] theorem Status.setNZC_v (p : Status) (w : AluResult) : (p.setNZC w).v = p.v := rfl
@[simp] theorem Status.setNZC_b (p : Status) (w : AluResult) : (p.setNZC w).b = p.b := rfl
@[simp] theorem Status.setNZC_d (p : Status) (w : AluResult) : (p.setNZC w).d = p.d := rfl
@[simp] theorem Status.setNZC_i (p : Status) (w : AluResult) : (p.setNZC w).i = p.i := rfl
@[simp] theorem Status.setNZC_z (p : Status) (w : AluResult) : (p.setNZC w).z = w.z := rfl
@[simp] theorem Status.setNZC_c (p : Status) (w : AluResult) : (p.setNZC w).c = w.c := rfl

@[simp] theorem Status.setNVZC_n (p : Status) (w : AluResult) : (p.setNVZC w).n = w.n := rfl
@[simp] theorem Status.setNVZC_v (p : Status) (w : AluResult) : (p.setNVZC w).v = w.v := rfl
@[simp] theorem Status.setNVZC_b (p : Status) (w : AluResult) : (p.setNVZC w).b = p.b := rfl
@[simp] theorem Status.setNVZC_d (p : Status) (w : AluResult) : (p.setNVZC w).d = p.d := rfl
@[simp] theorem Status.setNVZC_i (p : Status) (w : AluResult) : (p.setNVZC w).i = p.i := rfl
@[simp] theorem Status.setNVZC_z (p : Status) (w : AluResult) : (p.setNVZC w).z = w.z := rfl
@[simp] theorem Status.setNVZC_c (p : Status) (w : AluResult) : (p.setNVZC w).c = w.c := rfl

@[simp] theorem Status.setBitTest_n (p : Status) (q m : Byte) : (p.setBitTest q m).n = isNegative m := rfl
@[simp] theorem Status.setBitTest_v (p : Status) (q m : Byte) : (p.setBitTest q m).v = m.getLsbD 6 := rfl
@[simp] theorem Status.setBitTest_b (p : Status) (q m : Byte) : (p.setBitTest q m).b = p.b := rfl
@[simp] theorem Status.setBitTest_d (p : Status) (q m : Byte) : (p.setBitTest q m).d = p.d := rfl
@[simp] theorem Status.setBitTest_i (p : Status) (q m : Byte) : (p.setBitTest q m).i = p.i := rfl
@[simp] theorem Status.setBitTest_z (p : Status) (q m : Byte) : (p.setBitTest q m).z = isZero (q &&& m) := rfl
@[simp] theorem Status.setBitTest_c (p : Status) (q m : Byte) : (p.setBitTest q m).c = p.c := rfl

end Sys2Proof.Machine
end

