-- ==== Sys2Proof/Laws/Ops.lean ====
section
/-! SUPPORT. What each bus, stack and handler operation can do, said once: which registers it leaves, which events it adds
(`_history`), what it makes of memory where no device answers (`_ordinary`), and that it keeps memory canonical (`_memWf`). -/

namespace Sys2Proof.Machine

@[simp] theorem busRead_a (w : Word) (t : State) : ((busRead w t).2).a = t.a := rfl
@[simp] theorem busRead_x (w : Word) (t : State) : ((busRead w t).2).x = t.x := rfl
@[simp] theorem busRead_y (w : Word) (t : State) : ((busRead w t).2).y = t.y := rfl
@[simp] theorem busRead_s (w : Word) (t : State) : ((busRead w t).2).s = t.s := rfl
@[simp] theorem busRead_pc (w : Word) (t : State) : ((busRead w t).2).pc = t.pc := rfl
@[simp] theorem busRead_p (w : Word) (t : State) : ((busRead w t).2).p = t.p := rfl
@[simp] theorem busRead_fsm (w : Word) (t : State) : ((busRead w t).2).fsm = t.fsm := rfl
@[simp] theorem busRead_nmiPending (w : Word) (t : State) : ((busRead w t).2).nmiPending = t.nmiPending := rfl
@[simp] theorem busRead_irqLine (w : Word) (t : State) : ((busRead w t).2).irqLine = t.irqLine := rfl
@[simp] theorem busRead_cycleTotal (w : Word) (t : State) : ((busRead w t).2).cycleTotal = t.cycleTotal := rfl
@[simp] theorem busRead_windows (w : Word) (t : State) : ((busRead w t).2).windows = t.windows := rfl
@[simp] theorem busRead_params (w : Word) (t : State) : ((busRead w t).2).params = t.params := rfl
@[simp] theorem busRead_deviceAt (w : Word) (t : State) (addr : Word) : ((busRead w t).2).deviceAt addr = t.deviceAt addr := rfl

@[simp] theorem busWrite_a (w : Word) (v : Byte) (t : State) : (busWrite w v t).a = t.a := rfl
@[simp] theorem busWrite_x (w : Word) (v : Byte) (t : State) : (busWrite w v t).x = t.x := rfl
@[simp] theorem busWrite_y (w : Word) (v : Byte) (t : State) : (busWrite w v t).y = t.y := rfl
@[simp] theorem busWrite_s (w : Word) (v : Byte) (t : State) : (busWrite w v t).s = t.s := rfl
@[simp] theorem busWrite_pc (w : Word) (v : Byte) (t : State) : (busWrite w v t).pc = t.pc := rfl
@[simp] theorem busWrite_p (w : Word) (v : Byte) (t : State) : (busWrite w v t).p = t.p := rfl
@[simp] theorem busWrite_fsm (w : Word) (v : Byte) (t : State) : (busWrite w v t).fsm = t.fsm := rfl
@[simp] theorem busWrite_nmiPending (w : Word) (v : Byte) (t : State) : (busWrite w v t).nmiPending = t.nmiPending := rfl
@[simp] theorem busWrite_irqLine (w : Word) (v : Byte) (t : State) : (busWrite w v t).irqLine = t.irqLine := rfl
@[simp] theorem busWrite_cycleTotal (w : Word) (v : Byte) (t : State) : (busWrite w v t).cycleTotal = t.cycleTotal := rfl
@[simp] theorem busWrite_windows (w : Word) (v : Byte) (t : State) : (busWrite w v t).windows = t.windows := rfl
@[simp] theorem busWrite_params (w : Word) (v : Byte) (t : State) : (busWrite w v t).params = t.params := rfl
@[simp] theorem busWrite_deviceAt (w : Word) (v : Byte) (t : State) (addr : Word) : (busWrite w v t).deviceAt addr = t.deviceAt addr := rfl

@[simp] theorem readPair_a (lo hi : Word) (t : State) : ((readPair lo hi t).2).a = t.a := by simp [readPair]
@[simp] theorem readPair_x (lo hi : Word) (t : State) : ((readPair lo hi t).2).x = t.x := by simp [readPair]
@[simp] theorem readPair_y (lo hi : Word) (t : State) : ((readPair lo hi t).2).y = t.y := by simp [readPair]
@[simp] theorem readPair_s (lo hi : Word) (t : State) : ((readPair lo hi t).2).s = t.s := by simp [readPair]
@[simp] theorem readPair_pc (lo hi : Word) (t : State) : ((readPair lo hi t).2).pc = t.pc := by simp [readPair]
@[simp] theorem readPair_p (lo hi : Word) (t : State) : ((readPair lo hi t).2).p = t.p := by simp [readPair]
@[simp] theorem readPair_fsm (lo hi : Word) (t : State) : ((readPair lo hi t).2).fsm = t.fsm := by simp [readPair]
@[simp] theorem readPair_nmiPending (lo hi : Word) (t : State) : ((readPair lo hi t).2).nmiPending = t.nmiPending := by simp [readPair]
@[simp] theorem readPair_irqLine (lo hi : Word) (t : State) : ((readPair lo hi t).2).irqLine = t.irqLine := by simp [readPair]
@[simp] theorem readPair_cycleTotal (lo hi : Word) (t : State) : ((readPair lo hi t).2).cycleTotal = t.cycleTotal := by simp [readPair]
@[simp] theorem readPair_windows (lo hi : Word) (t : State) : ((readPair lo hi t).2).windows = t.windows := by simp [readPair]
@[simp] theorem readPair_params (lo hi : Word) (t : State) : ((readPair lo hi t).2).params = t.params := by simp [readPair]
@[simp] theorem readPair_deviceAt (lo hi : Word) (t : State) (addr : Word) : ((readPair lo hi t).2).deviceAt addr = t.deviceAt addr := by simp [readPair]

@[simp] theorem readWord_a (w : Word) (t : State) : ((readWord w t).2).a = t.a := by simp [readWord]
@[simp] theorem readWord_x (w : Word) (t : State) : ((readWord w t).2).x = t.x := by simp [readWord]
@[simp] theorem readWord_y (w : Word) (t : State) : ((readWord w t).2).y = t.y := by simp [readWord]
@[simp] theorem readWord_s (w : Word) (t : State) : ((readWord w t).2).s = t.s := by simp [readWord]
@[simp] theorem readWord_pc (w : Word) (t : State) : ((readWord w t).2).pc = t.pc := by simp [readWord]
@[simp] theorem readWord_p (w : Word) (t : State) : ((readWord w t).2).p = t.p := by simp [readWord]
@[simp] theorem readWord_fsm (w : Word) (t : State) : ((readWord w t).2).fsm = t.fsm := by simp [readWord]
@[simp] theorem readWord_nmiPending (w : Word) (t : State) : ((readWord w t).2).nmiPending = t.nmiPending := by simp [readWord]
@[simp] theorem readWord_irqLine (w : Word) (t : State) : ((readWord w t).2).irqLine = t.irqLine := by simp [readWord]
@[simp] theorem readWord_cycleTotal (w : Word) (t : State) : ((readWord w t).2).cycleTotal = t.cycleTotal := by simp [readWord]
@[simp] theorem readWord_windows (w : Word) (t : State) : ((readWord w t).2).windows = t.windows := by simp [readWord]
@[simp] theorem readWord_params (w : Word) (t : State) : ((readWord w t).2).params = t.params := by simp [readWord]
@[simp] theorem readWord_deviceAt (w : Word) (t : State) (addr : Word) : ((readWord w t).2).deviceAt addr = t.deviceAt addr := by simp [readWord]

@[simp] theorem readWordZP_a (z : Byte) (t : State) : ((readWordZP z t).2).a = t.a := by simp [readWordZP]
@[simp] theorem readWordZP_x (z : Byte) (t : State) : ((readWordZP z t).2).x = t.x := by simp [readWordZP]
@[simp] theorem readWordZP_y (z : Byte) (t : State) : ((readWordZP z t).2).y = t.y := by simp [readWordZP]
@[simp] theorem readWordZP_s (z : Byte) (t : State) : ((readWordZP z t).2).s = t.s := by simp [readWordZP]
@[simp] theorem readWordZP_pc (z : Byte) (t : State) : ((readWordZP z t).2).pc = t.pc := by simp [readWordZP]
@[simp] theorem readWordZP_p (z : Byte) (t : State) : ((readWordZP z t).2).p = t.p := by simp [readWordZP]
@[simp] theorem readWordZP_fsm (z : Byte) (t : State) : ((readWordZP z t).2).fsm = t.fsm := by simp [readWordZP]
@[simp] theorem readWordZP_nmiPending (z : Byte) (t : State) : ((readWordZP z t).2).nmiPending = t.nmiPending := by simp [readWordZP]
@[simp] theorem readWordZP_irqLine (z : Byte) (t : State) : ((readWordZP z t).2).irqLine = t.irqLine := by simp [readWordZP]
@[simp] theorem readWordZP_cycleTotal (z : Byte) (t : State) : ((readWordZP z t).2).cycleTotal = t.cycleTotal := by simp [readWordZP]
@[simp] theorem readWordZP_windows (z : Byte) (t : State) : ((readWordZP z t).2).windows = t.windows := by simp [readWordZP]
@[simp] theorem readWordZP_params (z : Byte) (t : State) : ((readWordZP z t).2).params = t.params := by simp [readWordZP]
@[simp] theorem readWordZP_deviceAt (z : Byte) (t : State) (addr : Word) : ((readWordZP z t).2).deviceAt addr = t.deviceAt addr := by simp [readWordZP]

@[simp] theorem readWordPageWrap_a (w : Word) (t : State) : ((readWordPageWrap w t).2).a = t.a := by simp [readWordPageWrap]
@[simp] theorem readWordPageWrap_x (w : Word) (t : State) : ((readWordPageWrap w t).2).x = t.x := by simp [readWordPageWrap]
@[simp] theorem readWordPageWrap_y (w : Word) (t : State) : ((readWordPageWrap w t).2).y = t.y := by simp [readWordPageWrap]
@[simp] theorem readWordPageWrap_s (w : Word) (t : State) : ((readWordPageWrap w t).2).s = t.s := by simp [readWordPageWrap]
@[simp] theorem readWordPageWrap_pc (w : Word) (t : State) : ((readWordPageWrap w t).2).pc = t.pc := by simp [readWordPageWrap]
@[simp] theorem readWordPageWrap_p (w : Word) (t : State) : ((readWordPageWrap w t).2).p = t.p := by simp [readWordPageWrap]
@[simp] theorem readWordPageWrap_fsm (w : Word) (t : State) : ((readWordPageWrap w t).2).fsm = t.fsm := by simp [readWordPageWrap]
@[simp] theorem readWordPageWrap_nmiPending (w : Word) (t : State) : ((readWordPageWrap w t).2).nmiPending = t.nmiPending := by simp [readWordPageWrap]
@[simp] theorem readWordPageWrap_irqLine (w : Word) (t : State) : ((readWordPageWrap w t).2).irqLine = t.irqLine := by simp [readWordPageWrap]
@[simp] theorem readWordPageWrap_cycleTotal (w : Word) (t : State) : ((readWordPageWrap w t).2).cycleTotal = t.cycleTotal := by simp [readWordPageWrap]
@[simp] theorem readWordPageWrap_windows (w : Word) (t : State) : ((readWordPageWrap w t).2).windows = t.windows := by simp [readWordPageWrap]
@[simp] theorem readWordPageWrap_params (w : Word) (t : State) : ((readWordPageWrap w t).2).params = t.params := by simp [readWordPageWrap]
@[simp] theorem readWordPageWrap_deviceAt (w : Word) (t : State) (addr : Word) : ((readWordPageWrap w t).2).deviceAt addr = t.deviceAt addr := by simp [readWordPageWrap]

@[simp] theorem push_a (v : Byte) (t : State) : (push v t).a = t.a := by simp [push]
@[simp] theorem push_x (v : Byte) (t : State) : (push v t).x = t.x := by simp [push]
@[simp] theorem push_y (v : Byte) (t : State) : (push v t).y = t.y := by simp [push]
@[simp] theorem push_s (v : Byte) (t : State) : (push v t).s = t.s - 1 := by simp [push]
@[simp] theorem push_pc (v : Byte) (t : State) : (push v t).pc = t.pc := by simp [push]
@[simp] theorem push_p (v : Byte) (t : State) : (push v t).p = t.p := by simp [push]
@[simp] theorem push_fsm (v : Byte) (t : State) : (push v t).fsm = t.fsm := by simp [push]
@[simp] theorem push_nmiPending (v : Byte) (t : State) : (push v t).nmiPending = t.nmiPending := by simp [push]
@[simp] theorem push_irqLine (v : Byte) (t : State) : (push v t).irqLine = t.irqLine := by simp [push]
@[simp] theorem push_cycleTotal (v : Byte) (t : State) : (push v t).cycleTotal = t.cycleTotal := by simp [push]
@[simp] theorem push_windows (v : Byte) (t : State) : (push v t).windows = t.windows := by simp [push]
@[simp] theorem push_params (v : Byte) (t : State) : (push v t).params = t.params := by simp [push]
@[simp] theorem push_deviceAt (v : Byte) (t : State) (addr : Word) : (push v t).deviceAt addr = t.deviceAt addr := by simp [push]

@[simp] theorem pushWord_a (w : Word) (t : State) : (pushWord w t).a = t.a := by simp [pushWord]
@[simp] theorem pushWord_x (w : Word) (t : State) : (pushWord w t).x = t.x := by simp [pushWord]
@[simp] theorem pushWord_y (w : Word) (t : State) : (pushWord w t).y = t.y := by simp [pushWord]
@[simp] theorem pushWord_s (w : Word) (t : State) : (pushWord w t).s = t.s - 1 - 1 := by simp [pushWord]
@[simp] theorem pushWord_pc (w : Word) (t : State) : (pushWord w t).pc = t.pc := by simp [pushWord]
@[simp] theorem pushWord_p (w : Word) (t : State) : (pushWord w t).p = t.p := by simp [pushWord]
@[simp] theorem pushWord_fsm (w : Word) (t : State) : (pushWord w t).fsm = t.fsm := by simp [pushWord]
@[simp] theorem pushWord_nmiPending (w : Word) (t : State) : (pushWord w t).nmiPending = t.nmiPending := by simp [pushWord]
@[simp] theorem pushWord_irqLine (w : Word) (t : State) : (pushWord w t).irqLine = t.irqLine := by simp [pushWord]
@[simp] theorem pushWord_cycleTotal (w : Word) (t : State) : (pushWord w t).cycleTotal = t.cycleTotal := by simp [pushWord]
@[simp] theorem pushWord_windows (w : Word) (t : State) : (pushWord w t).windows = t.windows := by simp [pushWord]
@[simp] theorem pushWord_params (w : Word) (t : State) : (pushWord w t).params = t.params := by simp [pushWord]
@[simp] theorem pushWord_deviceAt (w : Word) (t : State) (addr : Word) : (pushWord w t).deviceAt addr = t.deviceAt addr := by simp [pushWord]

@[simp] theorem pull_a (t : State) : ((pull t).2).a = t.a := by simp [pull]
@[simp] theorem pull_x (t : State) : ((pull t).2).x = t.x := by simp [pull]
@[simp] theorem pull_y (t : State) : ((pull t).2).y = t.y := by simp [pull]
@[simp] theorem pull_s (t : State) : ((pull t).2).s = t.s + 1 := by simp [pull]
@[simp] theorem pull_pc (t : State) : ((pull t).2).pc = t.pc := by simp [pull]
@[simp] theorem pull_p (t : State) : ((pull t).2).p = t.p := by simp [pull]
@[simp] theorem pull_fsm (t : State) : ((pull t).2).fsm = t.fsm := by simp [pull]
@[simp] theorem pull_nmiPending (t : State) : ((pull t).2).nmiPending = t.nmiPending := by simp [pull]
@[simp] theorem pull_irqLine (t : State) : ((pull t).2).irqLine = t.irqLine := by simp [pull]
@[simp] theorem pull_cycleTotal (t : State) : ((pull t).2).cycleTotal = t.cycleTotal := by simp [pull]
@[simp] theorem pull_windows (t : State) : ((pull t).2).windows = t.windows := by simp [pull]
@[simp] theorem pull_params (t : State) : ((pull t).2).params = t.params := by simp [pull]
@[simp] theorem pull_deviceAt (t : State) (addr : Word) : ((pull t).2).deviceAt addr = t.deviceAt addr := by simp [pull]

@[simp] theorem pullWord_a (t : State) : ((pullWord t).2).a = t.a := by simp [pullWord]
@[simp] theorem pullWord_x (t : State) : ((pullWord t).2).x = t.x := by simp [pullWord]
@[simp] theorem pullWord_y (t : State) : ((pullWord t).2).y = t.y := by simp [pullWord]
@[simp] theorem pullWord_s (t : State) : ((pullWord t).2).s = t.s + 1 + 1 := by simp [pullWord]
@[simp] theorem pullWord_pc (t : State) : ((pullWord t).2).pc = t.pc := by simp [pullWord]
@[simp] theorem pullWord_p (t : State) : ((pullWord t).2).p = t.p := by simp [pullWord]
@[simp] theorem pullWord_fsm (t : State) : ((pullWord t).2).fsm = t.fsm := by simp [pullWord]
@[simp] theorem pullWord_nmiPending (t : State) : ((pullWord t).2).nmiPending = t.nmiPending := by simp [pullWord]
@[simp] theorem pullWord_irqLine (t : State) : ((pullWord t).2).irqLine = t.irqLine := by simp [pullWord]
@[simp] theorem pullWord_cycleTotal (t : State) : ((pullWord t).2).cycleTotal = t.cycleTotal := by simp [pullWord]
@[simp] theorem pullWord_windows (t : State) : ((pullWord t).2).windows = t.windows := by simp [pullWord]
@[simp] theorem pullWord_params (t : State) : ((pullWord t).2).params = t.params := by simp [pullWord]
@[simp] theorem pullWord_deviceAt (t : State) (addr : Word) : ((pullWord t).2).deviceAt addr = t.deviceAt addr := by simp [pullWord]

/-! ## Events -/

@[simp] theorem busRead_history (w : Word) (t : State) :
    (busRead w t).2.history = .read w (busRead w t).1 :: t.history := rfl

@[simp] theorem busWrite_history (w : Word) (v : Byte) (t : State) :
    (busWrite w v t).history = .write w v :: t.history := rfl

theorem readPair_history (lo hi : Word) (t : State) :
    (readPair lo hi t).2.history =
      .read hi (busRead hi (busRead lo t).2).1 :: .read lo (busRead lo t).1 :: t.history := rfl

theorem push_history (v : Byte) (t : State) : (push v t).history = .write (stackAddr t.s) v :: t.history := rfl

theorem pushWord_history (w : Word) (t : State) :
    (pushWord w t).history =
      .write (stackAddr (t.s - 1)) (loByte w) :: .write (stackAddr t.s) (hiByte w) :: t.history := rfl

theorem pull_history (t : State) :
    (pull t).2.history = .read (stackAddr (t.s + 1)) (pull t).1 :: t.history := rfl

/-! ## Ordinary memory -/

theorem busRead_ordinary (w : Word) (t : State) (h : t.deviceAt w = none) :
    busRead w t = (memRead t.mem w.toNat, t.record (.read w (memRead t.mem w.toNat))) := by
  simp only [busRead, busAnswer, h]; rfl

theorem busWrite_ordinary (w : Word) (v : Byte) (t : State) (h : t.deviceAt w = none) :
    busWrite w v t = (t.setMem (memWrite t.mem w.toNat v)).record (.write w v) := by
  simp only [busWrite, busStored, h]

theorem readPair_ordinary (lo hi : Word) (t : State) (hl : t.deviceAt lo = none) (hh : t.deviceAt hi = none) :
    readPair lo hi t = (wordOf (memRead t.mem hi.toNat) (memRead t.mem lo.toNat),
      (t.record (.read lo (memRead t.mem lo.toNat))).record (.read hi (memRead t.mem hi.toNat))) := by
  simp [readPair, busRead_ordinary, hl, hh]

theorem push_ordinary (v : Byte) (t : State) (h : t.deviceAt (stackAddr t.s) = none) :
    push v t = ((t.setMem (memWrite t.mem (stackAddr t.s).toNat v)).record (.write (stackAddr t.s) v)).setS (t.s - 1) := by
  simp [push, busWrite_ordinary, h]

theorem pull_ordinary (t : State) (h : t.deviceAt (stackAddr (t.s + 1)) = none) :
    pull t = (memRead t.mem (stackAddr (t.s + 1)).toNat,
      (t.setS (t.s + 1)).record (.read (stackAddr (t.s + 1)) (memRead t.mem (stackAddr (t.s + 1)).toNat))) := by
  have h' : (t.setS (t.s + 1)).deviceAt (stackAddr (t.s + 1)) = none := h
  rw [pull, busRead_ordinary _ _ h', State.setS_mem]

/-! ## The canonical form of memory -/

theorem busRead_memWf (w : Word) (t : State) (h : Memory.wf t.mem = true) : Memory.wf (busRead w t).2.mem = true := by
  show Memory.wf (busAnswer w t).2 = true
  unfold busAnswer
  split
  · exact h
  · exact memWf_memWriteAll _ _ h

theorem busWrite_memWf (w : Word) (v : Byte) (t : State) (h : Memory.wf t.mem = true) :
    Memory.wf (busWrite w v t).mem = true := by
  show Memory.wf (busStored w v t) = true
  unfold busStored
  split
  · exact memWf_memWrite _ _ _ w.isLt h
  · exact memWf_memWriteAll _ _ h

theorem readPair_memWf (lo hi : Word) (t : State) (h : Memory.wf t.mem = true) :
    Memory.wf (readPair lo hi t).2.mem = true :=
  busRead_memWf _ _ (busRead_memWf _ _ h)

theorem push_memWf (v : Byte) (t : State) (h : Memory.wf t.mem = true) : Memory.wf (push v t).mem = true :=
  busWrite_memWf _ _ _ h

theorem pushWord_memWf (w : Word) (t : State) (h : Memory.wf t.mem = true) : Memory.wf (pushWord w t).mem = true :=
  push_memWf _ _ (push_memWf _ _ h)

theorem pull_memWf (t : State) (h : Memory.wf t.mem = true) : Memory.wf (pull t).2.mem = true :=
  busRead_memWf _ _ h

theorem pullWord_memWf (t : State) (h : Memory.wf t.mem = true) : Memory.wf (pullWord t).2.mem = true :=
  pull_memWf _ (pull_memWf _ h)

theorem enterHandler_memWf (vector : Word) (b : Bool) (t : State) (h : Memory.wf t.mem = true) :
    Memory.wf (enterHandler vector b t).mem = true := by
  unfold enterHandler readWord
  simp only [State.setPc_mem]
  apply readPair_memWf
  simp only [State.setP_mem]
  exact push_memWf _ _ (pushWord_memWf _ _ h)

theorem returnFromHandler_memWf (t : State) (h : Memory.wf t.mem = true) : Memory.wf (returnFromHandler t).mem = true := by
  unfold returnFromHandler
  simp only [State.setPc_mem]
  apply pullWord_memWf
  simp only [State.setP_mem]
  exact pull_memWf _ h

/-! ## Entering a handler and returning from it -/

/-- Everything `enterHandler` does to the registers: three pushes, `P.I` set, `PC` from the vector. -/
theorem enterHandler_registers (vector : Word) (b : Bool) (t : State) :
    let u := enterHandler vector b t
    u.a = t.a ∧ u.x = t.x ∧ u.y = t.y ∧ u.s = t.s - 3 ∧ u.p = { t.p with i := true } ∧ u.fsm = t.fsm ∧
      u.nmiPending = t.nmiPending ∧ u.irqLine = t.irqLine ∧ u.cycleTotal = t.cycleTotal ∧ u.windows = t.windows ∧
      u.params = t.params := by
  simp [enterHandler]
  bv_omega

/-- Everything `returnFromHandler` does to the registers but the word it pulls into `PC`. -/
theorem returnFromHandler_registers (t : State) :
    let u := returnFromHandler t
    u.a = t.a ∧ u.x = t.x ∧ u.y = t.y ∧ u.s = t.s + 3 ∧ u.p = unpackP (pull t).1 ∧ u.fsm = t.fsm ∧
      u.nmiPending = t.nmiPending ∧ u.irqLine = t.irqLine ∧ u.cycleTotal = t.cycleTotal ∧ u.windows = t.windows ∧
      u.params = t.params := by
  simp [returnFromHandler]
  bv_omega

/-! ## Stack addresses -/

theorem stackAddr_toNat (b : Byte) : (stackAddr b).toNat = 0x0100 + b.toNat := by
  have h : ∀ n : Fin 256, (stackAddr (BitVec.ofFin n)).toNat = 0x100 + n.val := by decide +kernel
  exact h b.toFin

/-- Stack bytes of different stack pointer values are different bytes. -/
theorem stackAddr_ne {a b : Byte} (h : a ≠ b) : (stackAddr a).toNat ≠ (stackAddr b).toNat := by
  rw [stackAddr_toNat, stackAddr_toNat]
  exact fun e => h (BitVec.eq_of_toNat_eq (by omega))

/-! ## Pushing and pulling words over ordinary memory -/

theorem pushWord_ordinary (w : Word) (t : State) (h1 : t.deviceAt (stackAddr t.s) = none)
    (h2 : t.deviceAt (stackAddr (t.s - 1)) = none) :
    pushWord w t = { t with
      s := t.s - 2
      mem := memWrite (memWrite t.mem (stackAddr t.s).toNat (hiByte w)) (stackAddr (t.s - 1)).toNat (loByte w)
      history := .write (stackAddr (t.s - 1)) (loByte w) :: .write (stackAddr t.s) (hiByte w) :: t.history } := by
  have e : t.s - 1 - 1 = t.s - 2 := by bv_omega
  have h3 : (push (hiByte w) t).deviceAt (stackAddr (push (hiByte w) t).s) = none := by
    rw [push_deviceAt, push_s, h2]
  rw [pushWord, push_ordinary _ _ h3, push_ordinary _ _ h1, ← e]
  rfl

theorem pullWord_ordinary (t : State) (h1 : t.deviceAt (stackAddr (t.s + 1)) = none)
    (h2 : t.deviceAt (stackAddr (t.s + 2)) = none) :
    pullWord t = (wordOf (memRead t.mem (stackAddr (t.s + 2)).toNat) (memRead t.mem (stackAddr (t.s + 1)).toNat),
      { t with
        s := t.s + 2
        history := .read (stackAddr (t.s + 2)) (memRead t.mem (stackAddr (t.s + 2)).toNat) ::
          .read (stackAddr (t.s + 1)) (memRead t.mem (stackAddr (t.s + 1)).toNat) :: t.history }) := by
  have e : t.s + 1 + 1 = t.s + 2 := by bv_omega
  rw [← e] at h2 ⊢
  have h3 : (pull t).2.deviceAt (stackAddr ((pull t).2.s + 1)) = none := by
    rw [pull_deviceAt, pull_s, h2]
  rw [pullWord, pull_ordinary _ h3, pull_ordinary _ h1]
  rfl

/-- Everything an entry does where no device answers for the stack bytes and the vector. -/
theorem enterHandler_ordinary (vector : Word) (b : Bool) (t : State) (h1 : t.deviceAt (stackAddr t.s) = none)
    (h2 : t.deviceAt (stackAddr (t.s - 1)) = none) (h3 : t.deviceAt (stackAddr (t.s - 2)) = none)
    (h4 : t.deviceAt vector = none) (h5 : t.deviceAt (vector + 1) = none) :
    let m := memWrite (memWrite (memWrite t.mem (stackAddr t.s).toNat (hiByte t.pc)) (stackAddr (t.s - 1)).toNat
      (loByte t.pc)) (stackAddr (t.s - 2)).toNat (packP b t.p)
    enterHandler vector b t = { t with
      s := t.s - 3
      pc := wordOf (memRead m (vector + 1).toNat) (memRead m vector.toNat)
      p := { t.p with i := true }
      mem := m
      history := .read (vector + 1) (memRead m (vector + 1).toNat) :: .read vector (memRead m vector.toNat) ::
        .write (stackAddr (t.s - 2)) (packP b t.p) :: .write (stackAddr (t.s - 1)) (loByte t.pc) ::
        .write (stackAddr t.s) (hiByte t.pc) :: t.history } := by
  intro m
  have e : t.s - 2 - 1 = t.s - 3 := by bv_omega
  have e' : t.s - 1 - 1 = t.s - 2 := by bv_omega
  have h6 : (pushWord t.pc t).deviceAt (stackAddr (pushWord t.pc t).s) = none := by
    rw [pushWord_deviceAt, pushWord_s, e', h3]
  simp only [enterHandler, readWord]
  rw [readPair_ordinary _ _ _ (by simpa using h4) (by simpa using h5), push_ordinary _ _ h6, pushWord_ordinary _ _ h1 h2, ← e]
  rfl

/-- Everything a return does where no device answers for the stack bytes. -/
theorem returnFromHandler_ordinary (t : State) (h1 : t.deviceAt (stackAddr (t.s + 1)) = none)
    (h2 : t.deviceAt (stackAddr (t.s + 2)) = none) (h3 : t.deviceAt (stackAddr (t.s + 3)) = none) :
    returnFromHandler t = { t with
      s := t.s + 3
      pc := wordOf (memRead t.mem (stackAddr (t.s + 3)).toNat) (memRead t.mem (stackAddr (t.s + 2)).toNat)
      p := unpackP (memRead t.mem (stackAddr (t.s + 1)).toNat)
      history := .read (stackAddr (t.s + 3)) (memRead t.mem (stackAddr (t.s + 3)).toNat) ::
        .read (stackAddr (t.s + 2)) (memRead t.mem (stackAddr (t.s + 2)).toNat) ::
        .read (stackAddr (t.s + 1)) (memRead t.mem (stackAddr (t.s + 1)).toNat) :: t.history } := by
  have e1 : t.s + 1 + 1 = t.s + 2 := by bv_omega
  have e2 : t.s + 1 + 2 = t.s + 3 := by bv_omega
  simp only [returnFromHandler]
  rw [pullWord_ordinary _ (by rw [State.setP_deviceAt, pull_deviceAt, State.setP_s, pull_s, e1, h2])
    (by rw [State.setP_deviceAt, pull_deviceAt, State.setP_s, pull_s, e2, h3]), pull_ordinary _ h1, ← e2, ← e1]
  rfl

/-! ## Words and entries, whatever answers the accesses -/

theorem pullWord_value (t : State) : (pullWord t).1 = wordOf (pull (pull t).2).1 (pull t).1 := rfl

theorem pullWord_history (t : State) :
    (pullWord t).2.history =
      .read (stackAddr (t.s + 2)) (pull (pull t).2).1 :: .read (stackAddr (t.s + 1)) (pull t).1 :: t.history := by
  have e : t.s + 1 + 1 = t.s + 2 := by bv_omega
  simp only [pullWord, pull_history, pull_s, e]

/-- The five events of an entry, and the word its vector reads give `PC`. -/
theorem enterHandler_history (vector : Word) (b : Bool) (t : State) :
    ∃ vl vh, (enterHandler vector b t).pc = wordOf vh vl ∧
      (enterHandler vector b t).history = .read (vector + 1) vh :: .read vector vl ::
        .write (stackAddr (t.s - 2)) (packP b t.p) :: .write (stackAddr (t.s - 1)) (loByte t.pc) ::
        .write (stackAddr t.s) (hiByte t.pc) :: t.history := by
  have e : t.s - 1 - 1 = t.s - 2 := by bv_omega
  refine ⟨_, _, rfl, ?_⟩
  simp only [enterHandler, readWord, State.setPc_history, readPair_history, State.setP_history, push_history,
    pushWord_history, pushWord_s, e]

/-- The three events of a return, the status it unpacks and the word it gives `PC`. -/
theorem returnFromHandler_history (t : State) :
    ∃ v vl vh, (returnFromHandler t).p = unpackP v ∧ (returnFromHandler t).pc = wordOf vh vl ∧
      (returnFromHandler t).history = .read (stackAddr (t.s + 3)) vh :: .read (stackAddr (t.s + 2)) vl ::
        .read (stackAddr (t.s + 1)) v :: t.history := by
  have e1 : t.s + 1 + 1 = t.s + 2 := by bv_omega
  have e2 : t.s + 1 + 2 = t.s + 3 := by bv_omega
  refine ⟨(pull t).1, _, _, ?_, rfl, ?_⟩
  · simp [returnFromHandler]
  · simp only [returnFromHandler, State.setPc_history, pullWord_history, State.setP_history, pull_history, State.setP_s,
      pull_s, e1, e2]

end Sys2Proof.Machine
end

