-- ==== Sys2Proof/Laws/Operands.lean ====
section
/-! SUPPORT. What resolving, loading and storing an operand can do, said once: every register stays, memory stays canonical,
and over ordinary memory the address, the byte and the events are those of Safety.lean's plain functions. -/

namespace Sys2Proof.Machine

/-! ## Registers -/

@[simp] theorem resolve_a (m : MemOperand) (t : State) : ((resolve m t).st).a = t.a := by cases m <;> simp [resolve, indexed]
@[simp] theorem resolve_x (m : MemOperand) (t : State) : ((resolve m t).st).x = t.x := by cases m <;> simp [resolve, indexed]
@[simp] theorem resolve_y (m : MemOperand) (t : State) : ((resolve m t).st).y = t.y := by cases m <;> simp [resolve, indexed]
@[simp] theorem resolve_s (m : MemOperand) (t : State) : ((resolve m t).st).s = t.s := by cases m <;> simp [resolve, indexed]
@[simp] theorem resolve_pc (m : MemOperand) (t : State) : ((resolve m t).st).pc = t.pc := by cases m <;> simp [resolve, indexed]
@[simp] theorem resolve_p (m : MemOperand) (t : State) : ((resolve m t).st).p = t.p := by cases m <;> simp [resolve, indexed]
@[simp] theorem resolve_fsm (m : MemOperand) (t : State) : ((resolve m t).st).fsm = t.fsm := by cases m <;> simp [resolve, indexed]
@[simp] theorem resolve_nmiPending (m : MemOperand) (t : State) : ((resolve m t).st).nmiPending = t.nmiPending := by cases m <;> simp [resolve, indexed]
@[simp] theorem resolve_irqLine (m : MemOperand) (t : State) : ((resolve m t).st).irqLine = t.irqLine := by cases m <;> simp [resolve, indexed]
@[simp] theorem resolve_cycleTotal (m : MemOperand) (t : State) : ((resolve m t).st).cycleTotal = t.cycleTotal := by cases m <;> simp [resolve, indexed]
@[simp] theorem resolve_windows (m : MemOperand) (t : State) : ((resolve m t).st).windows = t.windows := by cases m <;> simp [resolve, indexed]
@[simp] theorem resolve_params (m : MemOperand) (t : State) : ((resolve m t).st).params = t.params := by cases m <;> simp [resolve, indexed]
@[simp] theorem resolve_deviceAt (m : MemOperand) (t : State) (addr : Word) : ((resolve m t).st).deviceAt addr = t.deviceAt addr := by cases m <;> simp [resolve, indexed]

@[simp] theorem loadMem_a (m : MemOperand) (t : State) : ((loadMem m t).st).a = t.a := by simp [loadMem]
@[simp] theorem loadMem_x (m : MemOperand) (t : State) : ((loadMem m t).st).x = t.x := by simp [loadMem]
@[simp] theorem loadMem_y (m : MemOperand) (t : State) : ((loadMem m t).st).y = t.y := by simp [loadMem]
@[simp] theorem loadMem_s (m : MemOperand) (t : State) : ((loadMem m t).st).s = t.s := by simp [loadMem]
@[simp] theorem loadMem_pc (m : MemOperand) (t : State) : ((loadMem m t).st).pc = t.pc := by simp [loadMem]
@[simp] theorem loadMem_p (m : MemOperand) (t : State) : ((loadMem m t).st).p = t.p := by simp [loadMem]
@[simp] theorem loadMem_fsm (m : MemOperand) (t : State) : ((loadMem m t).st).fsm = t.fsm := by simp [loadMem]
@[simp] theorem loadMem_nmiPending (m : MemOperand) (t : State) : ((loadMem m t).st).nmiPending = t.nmiPending := by simp [loadMem]
@[simp] theorem loadMem_irqLine (m : MemOperand) (t : State) : ((loadMem m t).st).irqLine = t.irqLine := by simp [loadMem]
@[simp] theorem loadMem_cycleTotal (m : MemOperand) (t : State) : ((loadMem m t).st).cycleTotal = t.cycleTotal := by simp [loadMem]
@[simp] theorem loadMem_windows (m : MemOperand) (t : State) : ((loadMem m t).st).windows = t.windows := by simp [loadMem]
@[simp] theorem loadMem_params (m : MemOperand) (t : State) : ((loadMem m t).st).params = t.params := by simp [loadMem]
@[simp] theorem loadMem_deviceAt (m : MemOperand) (t : State) (addr : Word) : ((loadMem m t).st).deviceAt addr = t.deviceAt addr := by simp [loadMem]

@[simp] theorem loadOperand_a (o : ReadOperand) (t : State) : ((loadOperand o t).st).a = t.a := by cases o <;> simp [loadOperand]
@[simp] theorem loadOperand_x (o : ReadOperand) (t : State) : ((loadOperand o t).st).x = t.x := by cases o <;> simp [loadOperand]
@[simp] theorem loadOperand_y (o : ReadOperand) (t : State) : ((loadOperand o t).st).y = t.y := by cases o <;> simp [loadOperand]
@[simp] theorem loadOperand_s (o : ReadOperand) (t : State) : ((loadOperand o t).st).s = t.s := by cases o <;> simp [loadOperand]
@[simp] theorem loadOperand_pc (o : ReadOperand) (t : State) : ((loadOperand o t).st).pc = t.pc := by cases o <;> simp [loadOperand]
@[simp] theorem loadOperand_p (o : ReadOperand) (t : State) : ((loadOperand o t).st).p = t.p := by cases o <;> simp [loadOperand]
@[simp] theorem loadOperand_fsm (o : ReadOperand) (t : State) : ((loadOperand o t).st).fsm = t.fsm := by cases o <;> simp [loadOperand]
@[simp] theorem loadOperand_nmiPending (o : ReadOperand) (t : State) : ((loadOperand o t).st).nmiPending = t.nmiPending := by cases o <;> simp [loadOperand]
@[simp] theorem loadOperand_irqLine (o : ReadOperand) (t : State) : ((loadOperand o t).st).irqLine = t.irqLine := by cases o <;> simp [loadOperand]
@[simp] theorem loadOperand_cycleTotal (o : ReadOperand) (t : State) : ((loadOperand o t).st).cycleTotal = t.cycleTotal := by cases o <;> simp [loadOperand]
@[simp] theorem loadOperand_windows (o : ReadOperand) (t : State) : ((loadOperand o t).st).windows = t.windows := by cases o <;> simp [loadOperand]
@[simp] theorem loadOperand_params (o : ReadOperand) (t : State) : ((loadOperand o t).st).params = t.params := by cases o <;> simp [loadOperand]
@[simp] theorem loadOperand_deviceAt (o : ReadOperand) (t : State) (addr : Word) : ((loadOperand o t).st).deviceAt addr = t.deviceAt addr := by cases o <;> simp [loadOperand]

@[simp] theorem storeMem_a (m : MemOperand) (v : Byte) (t : State) : (storeMem m v t).a = t.a := by simp [storeMem]
@[simp] theorem storeMem_x (m : MemOperand) (v : Byte) (t : State) : (storeMem m v t).x = t.x := by simp [storeMem]
@[simp] theorem storeMem_y (m : MemOperand) (v : Byte) (t : State) : (storeMem m v t).y = t.y := by simp [storeMem]
@[simp] theorem storeMem_s (m : MemOperand) (v : Byte) (t : State) : (storeMem m v t).s = t.s := by simp [storeMem]
@[simp] theorem storeMem_pc (m : MemOperand) (v : Byte) (t : State) : (storeMem m v t).pc = t.pc := by simp [storeMem]
@[simp] theorem storeMem_p (m : MemOperand) (v : Byte) (t : State) : (storeMem m v t).p = t.p := by simp [storeMem]
@[simp] theorem storeMem_fsm (m : MemOperand) (v : Byte) (t : State) : (storeMem m v t).fsm = t.fsm := by simp [storeMem]
@[simp] theorem storeMem_nmiPending (m : MemOperand) (v : Byte) (t : State) : (storeMem m v t).nmiPending = t.nmiPending := by simp [storeMem]
@[simp] theorem storeMem_irqLine (m : MemOperand) (v : Byte) (t : State) : (storeMem m v t).irqLine = t.irqLine := by simp [storeMem]
@[simp] theorem storeMem_cycleTotal (m : MemOperand) (v : Byte) (t : State) : (storeMem m v t).cycleTotal = t.cycleTotal := by simp [storeMem]
@[simp] theorem storeMem_windows (m : MemOperand) (v : Byte) (t : State) : (storeMem m v t).windows = t.windows := by simp [storeMem]
@[simp] theorem storeMem_params (m : MemOperand) (v : Byte) (t : State) : (storeMem m v t).params = t.params := by simp [storeMem]
@[simp] theorem storeMem_deviceAt (m : MemOperand) (v : Byte) (t : State) (addr : Word) : (storeMem m v t).deviceAt addr = t.deviceAt addr := by simp [storeMem]

@[simp] theorem resolveJump_a (o : JumpOperand) (t : State) : ((resolveJump o t).2).a = t.a := by cases o <;> simp [resolveJump]
@[simp] theorem resolveJump_x (o : JumpOperand) (t : State) : ((resolveJump o t).2).x = t.x := by cases o <;> simp [resolveJump]
@[simp] theorem resolveJump_y (o : JumpOperand) (t : State) : ((resolveJump o t).2).y = t.y := by cases o <;> simp [resolveJump]
@[simp] theorem resolveJump_s (o : JumpOperand) (t : State) : ((resolveJump o t).2).s = t.s := by cases o <;> simp [resolveJump]
@[simp] theorem resolveJump_pc (o : JumpOperand) (t : State) : ((resolveJump o t).2).pc = t.pc := by cases o <;> simp [resolveJump]
@[simp] theorem resolveJump_p (o : JumpOperand) (t : State) : ((resolveJump o t).2).p = t.p := by cases o <;> simp [resolveJump]
@[simp] theorem resolveJump_fsm (o : JumpOperand) (t : State) : ((resolveJump o t).2).fsm = t.fsm := by cases o <;> simp [resolveJump]
@[simp] theorem resolveJump_nmiPending (o : JumpOperand) (t : State) : ((resolveJump o t).2).nmiPending = t.nmiPending := by cases o <;> simp [resolveJump]
@[simp] theorem resolveJump_irqLine (o : JumpOperand) (t : State) : ((resolveJump o t).2).irqLine = t.irqLine := by cases o <;> simp [resolveJump]
@[simp] theorem resolveJump_cycleTotal (o : JumpOperand) (t : State) : ((resolveJump o t).2).cycleTotal = t.cycleTotal := by cases o <;> simp [resolveJump]
@[simp] theorem resolveJump_windows (o : JumpOperand) (t : State) : ((resolveJump o t).2).windows = t.windows := by cases o <;> simp [resolveJump]
@[simp] theorem resolveJump_params (o : JumpOperand) (t : State) : ((resolveJump o t).2).params = t.params := by cases o <;> simp [resolveJump]
@[simp] theorem resolveJump_deviceAt (o : JumpOperand) (t : State) (addr : Word) : ((resolveJump o t).2).deviceAt addr = t.deviceAt addr := by cases o <;> simp [resolveJump]

/-! ## The canonical form of memory -/

theorem resolve_memWf (m : MemOperand) (t : State) (h : Memory.wf t.mem = true) : Memory.wf (resolve m t).st.mem = true := by
  cases m with
  | indx b => exact readPair_memWf _ _ _ h
  | indy b => exact readPair_memWf _ _ _ h
  | zp b => exact h
  | zpx b => exact h
  | zpy b => exact h
  | abs w => exact h
  | absx w => exact h
  | absy w => exact h

theorem loadMem_memWf (m : MemOperand) (t : State) (h : Memory.wf t.mem = true) : Memory.wf (loadMem m t).st.mem = true :=
  busRead_memWf _ _ (resolve_memWf m t h)

theorem loadOperand_memWf (o : ReadOperand) (t : State) (h : Memory.wf t.mem = true) :
    Memory.wf (loadOperand o t).st.mem = true := by
  cases o with
  | imm v => exact h
  | mem m => exact loadMem_memWf m t h

theorem storeMem_memWf (m : MemOperand) (v : Byte) (t : State) (h : Memory.wf t.mem = true) :
    Memory.wf (storeMem m v t).mem = true :=
  busWrite_memWf _ _ _ (resolve_memWf m t h)

theorem resolveJump_memWf (o : JumpOperand) (t : State) (h : Memory.wf t.mem = true) :
    Memory.wf (resolveJump o t).2.mem = true := by
  cases o with
  | abs w => exact h
  | ind p => exact readPair_memWf _ _ _ h

/-! ## Ordinary memory -/

/-- The state after reading the addresses in order from ordinary memory. -/
def afterReads (t : State) (addrs : List Word) : State := { t with history := readEvents t addrs ++ t.history }

theorem ordinary_cons {t : State} {w : Word} {ws : List Word} :
    Ordinary t (w :: ws) ↔ t.deviceAt w = none ∧ Ordinary t ws := by
  simp [Ordinary]

theorem ordinary_append {t : State} {ws vs : List Word} : Ordinary t (ws ++ vs) ↔ Ordinary t ws ∧ Ordinary t vs := by
  simp only [Ordinary, List.mem_append]
  exact ⟨fun h => ⟨fun w hw => h w (.inl hw), fun w hw => h w (.inr hw)⟩, fun h w hw => hw.elim (h.1 w) (h.2 w)⟩

theorem readPair_plain (lo hi : Word) (t : State) (h : Ordinary t [lo, hi]) :
    readPair lo hi t = (plainWord t lo hi, afterReads t [lo, hi]) := by
  rw [readPair_ordinary lo hi t (h lo (by simp)) (h hi (by simp))]
  rfl

/-- Over ordinary pointer bytes the resolver gives the plain address and makes the plain reads. -/
theorem resolve_plain (m : MemOperand) (t : State) (h : Ordinary t (pointerAddrs m t)) :
    resolve m t = ⟨effAddr m t, crossesPage m t, afterReads t (pointerAddrs m t)⟩ := by
  cases m with
  | indx b => simp only [resolve, readWordZP, readPair_plain _ _ t h, effAddr, crossesPage, pointerAddrs]
  | indy b => simp only [resolve, indexed, readWordZP, readPair_plain _ _ t h, effAddr, crossesPage, pointerAddrs]
  | zp b => rfl
  | zpx b => rfl
  | zpy b => rfl
  | abs w => rfl
  | absx w => rfl
  | absy w => rfl

/-- Over ordinary memory a memory operand is the plain byte. -/
theorem loadMem_plain (m : MemOperand) (t : State) (h : Ordinary t (memAddrs m t)) :
    loadMem m t = ⟨plainByte t (effAddr m t), crossesPage m t, afterReads t (memAddrs m t)⟩ := by
  obtain ⟨hp, he⟩ := ordinary_append.mp h
  have hd : (afterReads t (pointerAddrs m t)).deviceAt (effAddr m t) = none := he _ (by simp)
  simp only [loadMem, resolve_plain m t hp, busRead_ordinary _ _ hd]
  simp [afterReads, State.record, plainByte, readEvents, memAddrs]

/-- Over ordinary memory a read operand is the plain byte. -/
theorem loadOperand_plain (o : ReadOperand) (t : State) (h : Ordinary t (operandAddrs o t)) :
    loadOperand o t = ⟨operandByte o t, operandCrosses o t, afterReads t (operandAddrs o t)⟩ := by
  cases o with
  | imm v => rfl
  | mem m => exact loadMem_plain m t h

/-- Over ordinary memory a store writes the plain address. -/
theorem storeMem_plain (m : MemOperand) (v : Byte) (t : State) (h : Ordinary t (memAddrs m t)) :
    storeMem m v t = { t with
      mem := memWrite t.mem (effAddr m t).toNat v
      history := .write (effAddr m t) v :: (readEvents t (pointerAddrs m t) ++ t.history) } := by
  obtain ⟨hp, he⟩ := ordinary_append.mp h
  have hd : (afterReads t (pointerAddrs m t)).deviceAt (effAddr m t) = none := he _ (by simp)
  simp only [storeMem, resolve_plain m t hp, busWrite_ordinary _ _ _ hd]
  rfl

/-- Over ordinary memory a read-modify-write reads the plain byte and writes the plain address. -/
theorem modifyMem_plain (i : Instr) (m : MemOperand) (f : Byte → Bool → Byte) (flags : Status → Byte → Status) (t : State)
    (h : Ordinary t (memAddrs m t)) :
    modifyMem i m f flags t = { t with
      p := flags t.p (plainByte t (effAddr m t))
      cycleTotal := t.cycleTotal + cyclesOf i false
      mem := memWrite t.mem (effAddr m t).toNat (f (plainByte t (effAddr m t)) t.p.c)
      history := .write (effAddr m t) (f (plainByte t (effAddr m t)) t.p.c) ::
        (readEvents t (memAddrs m t) ++ t.history) } := by
  obtain ⟨hp, he⟩ := ordinary_append.mp h
  have hd : (afterReads t (pointerAddrs m t)).deviceAt (effAddr m t) = none := he _ (by simp)
  have hw : ((afterReads t (pointerAddrs m t)).record
      (.read (effAddr m t) (memRead (afterReads t (pointerAddrs m t)).mem (effAddr m t).toNat))).deviceAt
        (effAddr m t) = none := hd
  simp only [modifyMem, resolve_plain m t hp, busRead_ordinary _ _ hd, busWrite_ordinary _ _ _ hw]
  simp [afterReads, State.record, plainByte, readEvents, memAddrs, State.setMem, State.setP, State.addCycles]

end Sys2Proof.Machine
end

