-- ==== Sys2Proof/Laws/Step.lean ====
section
/-! SUPPORT. What a step can do, said once: the three ways `step` goes on, the fetch over ordinary memory, and that nothing
is ever refused. -/

namespace Sys2Proof.Machine

/-- The outcome is a refusal. -/
def isRefused : Result → Bool
  | .refused _ => true
  | .next _ => false
  | .fault _ => false

theorem exec_isRefused (i : Instr) (t : State) : isRefused (exec i t) = false := by
  cases i with
  | undefined op =>
    simp only [exec, execUndefined]
    split <;> rfl
  | _ => rfl

/-- No arm of exec refuses. -/
theorem exec_not_refused (i : Instr) (t : State) (r : Refusal) : exec i t ≠ .refused r := by
  intro h
  simpa [h, isRefused] using exec_isRefused i t

/-- A step that is not at power-on is an interrupt entry or the execution of what was fetched. -/
theorem step_ready (t : State) (h : t.fsm = .ready) :
    step t = match interruptCheck t with
      | some u => .next u
      | none => exec (fetch t).instr (fetch t).st := by
  cases t
  cases h
  rfl

theorem step_powerOn (t : State) (h : t.fsm = .powerOn) : step t = .fault .notReset := by
  simp only [step, h]

/-- The step never refuses. -/
theorem step_not_refused (t : State) (r : Refusal) : step t ≠ .refused r := by
  unfold step
  split
  · simp
  · split
    · simp
    · exact exec_not_refused _ _ _

theorem interruptCheck_none_iff (t : State) : interruptCheck t = none ↔ ¬ TakesInterrupt t := by
  unfold interruptCheck TakesInterrupt
  cases t.nmiPending <;> cases t.irqLine <;> cases t.p.i <;> simp

/-- A step that fetches executes the instruction fetched. -/
theorem step_fetches (t : State) (h : Fetches t) : step t = exec (fetch t).instr (fetch t).st := by
  rw [step_ready t h.1, (interruptCheck_none_iff t).mpr h.2]

/-- Reading consecutive bytes of ordinary memory. -/
theorem fetchBytes_plain (n : Nat) (w : Word) (t : State) (h : Ordinary t (consecutive w n)) :
    fetchBytes n w t = ((consecutive w n).map (plainByte t), afterReads t (consecutive w n)) := by
  induction n generalizing w t with
  | zero => rfl
  | succ n ih =>
    obtain ⟨h1, h2⟩ := ordinary_cons.mp h
    have h2' : Ordinary (t.record (.read w (plainByte t w))) (consecutive (w + 1) n) := h2
    have e := ih (w + 1) _ h2'
    simp only [fetchBytes, busRead_ordinary w t h1]
    show (_, _) = _
    rw [show t.record (.read w (memRead t.mem w.toNat)) = t.record (.read w (plainByte t w)) from rfl, e]
    simp only [consecutive, List.map_cons, afterReads, readEvents, List.reverse_cons, List.append_assoc]
    rfl

/-! ## What a fetch leaves alone -/

@[simp] theorem fetchBytes_a (n : Nat) (w : Word) (t : State) : (fetchBytes n w t).2.a = t.a := by
  induction n generalizing w t <;> simp [fetchBytes, *]

@[simp] theorem fetchBytes_x (n : Nat) (w : Word) (t : State) : (fetchBytes n w t).2.x = t.x := by
  induction n generalizing w t <;> simp [fetchBytes, *]

@[simp] theorem fetchBytes_y (n : Nat) (w : Word) (t : State) : (fetchBytes n w t).2.y = t.y := by
  induction n generalizing w t <;> simp [fetchBytes, *]

@[simp] theorem fetchBytes_s (n : Nat) (w : Word) (t : State) : (fetchBytes n w t).2.s = t.s := by
  induction n generalizing w t <;> simp [fetchBytes, *]

@[simp] theorem fetchBytes_pc (n : Nat) (w : Word) (t : State) : (fetchBytes n w t).2.pc = t.pc := by
  induction n generalizing w t <;> simp [fetchBytes, *]

@[simp] theorem fetchBytes_p (n : Nat) (w : Word) (t : State) : (fetchBytes n w t).2.p = t.p := by
  induction n generalizing w t <;> simp [fetchBytes, *]

@[simp] theorem fetchBytes_fsm (n : Nat) (w : Word) (t : State) : (fetchBytes n w t).2.fsm = t.fsm := by
  induction n generalizing w t <;> simp [fetchBytes, *]

@[simp] theorem fetchBytes_nmiPending (n : Nat) (w : Word) (t : State) : (fetchBytes n w t).2.nmiPending = t.nmiPending := by
  induction n generalizing w t <;> simp [fetchBytes, *]

@[simp] theorem fetchBytes_irqLine (n : Nat) (w : Word) (t : State) : (fetchBytes n w t).2.irqLine = t.irqLine := by
  induction n generalizing w t <;> simp [fetchBytes, *]

@[simp] theorem fetchBytes_cycleTotal (n : Nat) (w : Word) (t : State) : (fetchBytes n w t).2.cycleTotal = t.cycleTotal := by
  induction n generalizing w t <;> simp [fetchBytes, *]

@[simp] theorem fetchBytes_windows (n : Nat) (w : Word) (t : State) : (fetchBytes n w t).2.windows = t.windows := by
  induction n generalizing w t <;> simp [fetchBytes, *]

@[simp] theorem fetchBytes_params (n : Nat) (w : Word) (t : State) : (fetchBytes n w t).2.params = t.params := by
  induction n generalizing w t <;> simp [fetchBytes, *]

theorem fetchBytes_memWf (n : Nat) (w : Word) (t : State) (h : Memory.wf t.mem = true) :
    Memory.wf (fetchBytes n w t).2.mem = true := by
  induction n generalizing w t with
  | zero => exact h
  | succ n ih => exact ih _ _ (busRead_memWf _ _ h)

/-- Everything `fetch` does to the registers: `PC` past the instruction. -/
theorem fetch_registers (t : State) :
    let u := (fetch t).st
    u.a = t.a ∧ u.x = t.x ∧ u.y = t.y ∧ u.s = t.s ∧
      u.pc = t.pc + BitVec.ofNat 16 (decodeEntry (busRead t.pc t).1).length ∧ u.p = t.p ∧ u.fsm = t.fsm ∧
      u.nmiPending = t.nmiPending ∧ u.irqLine = t.irqLine ∧ u.cycleTotal = t.cycleTotal ∧ u.windows = t.windows ∧
      u.params = t.params := by
  simp [fetch]

theorem fetch_memWf (t : State) (h : Memory.wf t.mem = true) : Memory.wf (fetch t).st.mem = true :=
  fetchBytes_memWf _ _ _ (busRead_memWf _ _ h)

/-! ## The instruction fetched -/

theorem fetchBytes_length (n : Nat) (w : Word) (t : State) : (fetchBytes n w t).1.length = n := by
  induction n generalizing w t <;> simp [fetchBytes, *]

@[simp] theorem consecutive_length (w : Word) (n : Nat) : (consecutive w n).length = n := by
  induction n generalizing w <;> simp [consecutive, *]

/-- The fetch unit reads at least the bytes the operand takes. -/
theorem operandCount_le_fetchCount (e : DecodeEntry) (policy : UndefinedPolicy) :
    e.operandCount ≤ fetchCount e policy := by
  obtain ⟨d, n, f, mode, l, c, p⟩ := e
  cases f <;> cases policy <;> simp [fetchCount, DecodeEntry.operandCount]

/-- What is fetched at an undefined byte, whatever answers the reads. -/
theorem fetch_undefined (t : State) (h : (decodeEntry (busRead t.pc t).1).defined = false) :
    (fetch t).instr = .undefined (busRead t.pc t).1 := by
  obtain ⟨h0, ha⟩ := assemble_undefined _ h
  simp only [fetch, decode, ha, h0, Nat.not_lt_zero, if_false]
  rfl

/-- What is fetched at an official byte is no undefined byte, whatever answers the reads. -/
theorem fetch_official (t : State) (h : (decodeEntry (busRead t.pc t).1).defined = true) (op : Byte) :
    (fetch t).instr ≠ .undefined op := by
  have hs : (decode ((busRead t.pc t).1 :: (fetchBytes (fetchCount (decodeEntry (busRead t.pc t).1) t.params.undefinedPolicy)
      (t.pc + 1) (busRead t.pc t).2).1)).instr?.isSome = true :=
    decode_isSome _ _ (by rw [fetchBytes_length]; exact operandCount_le_fetchCount _ _)
  obtain ⟨i, hi⟩ := Option.isSome_iff_exists.mp hs
  have hn : (fetch t).instr = i := by simp only [fetch, hi, Option.getD_some]
  rw [hn]
  rintro rfl
  simp only [decode] at hi
  split at hi
  · cases hi
  · split at hi
    · next j hj =>
      obtain rfl : j = .undefined op := Option.some.inj hi
      exact assemble_official _ _ _ op h hj
    · cases hi

/-! ## The report of an undefined byte -/

/-- A meaning faults only at an undefined byte under `Report`, and leaves `PC` at that byte. -/
theorem exec_fault (i : Instr) (t : State) (r : Fault) (h : exec i t = .fault r) :
    ∃ op, i = .undefined op ∧ t.params.undefinedPolicy = .report ∧
      r = .illegalOpcode op (undefinedAt op t) (t.setPc (undefinedAt op t)) := by
  cases i with
  | undefined op =>
    simp only [exec, execUndefined] at h
    split at h
    · next hp => exact ⟨op, rfl, hp, by cases h; rfl⟩
    · cases h
  | _ => cases h

/-- Under `Report` the fetch of an undefined byte reads that byte only. -/
theorem fetch_report (t : State) (hp : t.params.undefinedPolicy = .report)
    (h : (decodeEntry (busRead t.pc t).1).defined = false) :
    (fetch t).st = (busRead t.pc t).2.setPc (t.pc + BitVec.ofNat 16 (decodeEntry (busRead t.pc t).1).length) := by
  have h0 : fetchCount (decodeEntry (busRead t.pc t).1) .report = 0 := by
    rw [← (assemble_undefined _ h).1]
    simp [fetchCount]
  simp only [fetch, hp, h0]
  rfl

/-- Under `Report` a step at an undefined byte makes the opcode read and reports (R253). -/
theorem step_report (t : State) (hf : Fetches t) (hp : t.params.undefinedPolicy = .report)
    (h : (decodeEntry (busRead t.pc t).1).defined = false) :
    step t = .fault (.illegalOpcode (busRead t.pc t).1 t.pc (busRead t.pc t).2) := by
  have ha : undefinedAt (busRead t.pc t).1 ((busRead t.pc t).2.setPc
      (t.pc + BitVec.ofNat 16 (decodeEntry (busRead t.pc t).1).length)) = t.pc := by
    simp [undefinedAt]
  have hs : (busRead t.pc t).2.setPc t.pc = (busRead t.pc t).2 :=
    State.eq_of_fields (by simp) (by simp) (by simp) (by simp) (by simp) (by simp) (by simp) (by simp) (by simp) (by simp)
      (by simp) (by simp) (by simp) (by simp)
  rw [step_fetches t hf, fetch_undefined t h, fetch_report t hp h]
  simp only [exec, execUndefined, State.setPc_params, busRead_params, hp, ha]
  rw [show ∀ (u : State) (v w : Word), (u.setPc v).setPc w = u.setPc w from fun _ _ _ => rfl, hs]

/-- The three ways a step leaves a state: an interrupt entry, an instruction that completes, a report of an undefined byte. -/
theorem leaves_cases (s t : State) (h : Leaves s t) : s.fsm = .ready ∧
    (interruptCheck s = some t ∨
      (Fetches s ∧ exec (fetch s).instr (fetch s).st = .next t) ∨
      (Fetches s ∧ s.params.undefinedPolicy = .report ∧ (decodeEntry (busRead s.pc s).1).defined = false ∧
        step s = .fault (.illegalOpcode (busRead s.pc s).1 s.pc t) ∧ t = (busRead s.pc s).2)) := by
  have hr : s.fsm = .ready := by
    cases hf : s.fsm
    · rcases h with h | ⟨op, pc, h⟩ <;> rw [step_powerOn s hf] at h <;> simp at h
    · rfl
  refine ⟨hr, ?_⟩
  cases hi : interruptCheck s with
  | some u =>
    rcases h with h | ⟨op, pc, h⟩ <;> rw [step_ready s hr, hi] at h <;> simp at h
    exact .inl (by rw [h])
  | none =>
    have hF : Fetches s := ⟨hr, (interruptCheck_none_iff s).mp hi⟩
    right
    rcases h with h | ⟨op, pc, h⟩
    · exact .inl ⟨hF, by rw [← step_fetches s hF]; exact h⟩
    · right
      obtain ⟨op', h1, h2, -⟩ := exec_fault _ _ _ ((step_fetches s hF).symm.trans h)
      have hp : s.params.undefinedPolicy = .report := by
        obtain ⟨-, -, -, -, -, -, -, -, -, -, -, hq⟩ := fetch_registers s
        rw [← hq]; exact h2
      have hd : (decodeEntry (busRead s.pc s).1).defined = false := by
        cases hd : (decodeEntry (busRead s.pc s).1).defined
        · rfl
        · exact absurd h1 (fetch_official s hd op')
      have hstep := step_report s hF hp hd
      have e := hstep.symm.trans h
      injection e with e
      injection e with e1 e2 e3
      exact ⟨hF, hp, hd, by rw [hstep, e3], e3.symm⟩

/-! ## The fetch over ordinary memory -/

theorem fetchAddrs_eq (t : State) : fetchAddrs t = t.pc :: consecutive (t.pc + 1)
    (fetchCount (decodeEntry (plainByte t t.pc)) t.params.undefinedPolicy) := by
  rw [fetchAddrs, Nat.add_comm]
  rfl

/-- The byte at a place among those fetched. -/
theorem consecutive_getD (f : Word → Byte) (w : Word) (n : Nat) :
    (1 ≤ n → ((consecutive w n).map f).getD 0 0 = f w) ∧
    (2 ≤ n → ((consecutive w n).map f).getD 1 0 = f (w + 1)) := by
  refine ⟨fun h => ?_, fun h => ?_⟩
  · obtain ⟨k, rfl⟩ := Nat.exists_eq_add_of_le' h
    rfl
  · obtain ⟨k, rfl⟩ := Nat.exists_eq_add_of_le' h
    rfl

/-- Over ordinary memory the fetch gives the instruction that the bytes at `PC` decode to, and the state past it. -/
theorem fetch_plain (t : State) (i : Instr) (rest : List Byte) (h : Ordinary t (fetchAddrs t))
    (hd : decode [plainByte t t.pc, plainByte t (t.pc + 1), plainByte t (t.pc + 2)] = .ok i rest) :
    fetch t = ⟨i, { t with
      pc := t.pc + BitVec.ofNat 16 (decodeEntry (plainByte t t.pc)).length
      history := readEvents t (fetchAddrs t) ++ t.history }⟩ := by
  rw [fetchAddrs_eq] at h ⊢
  obtain ⟨h1, h2⟩ := ordinary_cons.mp h
  have hb : busRead t.pc t = (plainByte t t.pc, t.record (.read t.pc (plainByte t t.pc))) := busRead_ordinary _ _ h1
  have hf := fetchBytes_plain _ (t.pc + 1) (t.record (.read t.pc (plainByte t t.pc))) h2
  have hle := operandCount_le_fetchCount (decodeEntry (plainByte t t.pc)) t.params.undefinedPolicy
  simp only [fetch, hb]
  rw [hf]
  generalize fetchCount (decodeEntry (plainByte t t.pc)) t.params.undefinedPolicy = n at *
  generalize hop : plainByte t t.pc = op at *
  obtain ⟨g1, g2⟩ := consecutive_getD (plainByte (t.record (.read t.pc op))) (t.pc + 1) n
  congr 1
  · simp only [decode] at hd ⊢
    rw [if_neg (by simp only [List.length_map, consecutive_length]; omega), assemble_congr op _ _ (plainByte t (t.pc + 1))
      (plainByte t (t.pc + 2)) (fun hk => g1 (by omega))
      (fun hk => (g2 (by omega)).trans (congrArg (plainByte t) (by bv_omega)))]
    split at hd
    · simp at hd
    · split at hd
      · next j hj =>
        injection hd with hd1
        simp only [List.getD_cons_zero, List.getD_cons_succ] at hj
        rw [hj, hd1]
        rfl
      · simp at hd
  · simp [afterReads, State.record, State.setPc, readEvents, hop]
    exact fun _ _ => rfl

/-- The events of reading consecutive bytes, whatever answers them. -/
theorem fetchBytes_history (n : Nat) (w : Word) (t : State) :
    (fetchBytes n w t).2.history =
      (List.zipWith BusEvent.read (consecutive w n) (fetchBytes n w t).1).reverse ++ t.history := by
  induction n generalizing w t with
  | zero => rfl
  | succ n ih => simp [fetchBytes, consecutive, ih]

end Sys2Proof.Machine
end

