-- ==== Sys2Proof/Laws/Access.lean ====
section
/-! SUPPORT. The bus accesses of each operation as one relation that composes: how many events it adds, and that where no
device answers them memory is what its own writes make of it. -/

namespace Sys2Proof.Machine

/-- From `s` to `t` exactly the events `es` were added, newest first, the device windows are the same, and where none of the
events reached a device memory is what the events' writes make of it. -/
def Accesses (es : List BusEvent) (s t : State) : Prop :=
  t.history = es ++ s.history ∧ t.windows = s.windows ∧
    ((∀ e ∈ es, s.deviceAt e.addr = none) → t.mem = memReplay s.mem es)

theorem Accesses.refl (s : State) : Accesses [] s s := ⟨rfl, rfl, fun _ => rfl⟩

theorem Accesses.trans {es fs : List BusEvent} {s t u : State} (h : Accesses es s t) (k : Accesses fs t u) :
    Accesses (fs ++ es) s u := by
  obtain ⟨h1, h2, h3⟩ := h
  obtain ⟨k1, k2, k3⟩ := k
  refine ⟨by rw [k1, h1, List.append_assoc], k2.trans h2, fun ho => ?_⟩
  have hd : ∀ w, t.deviceAt w = s.deviceAt w := fun w => by rw [State.deviceAt, State.deviceAt, h2]
  rw [k3 fun e he => (hd _).trans (ho e (List.mem_append_left _ he)),
    h3 fun e he => ho e (List.mem_append_right _ he), memReplay_append]

/-- Registers do not matter to the relation. -/
theorem Accesses.congr {es : List BusEvent} {s t s' t' : State} (h : Accesses es s t) (h1 : s'.history = s.history)
    (h2 : s'.windows = s.windows) (h3 : s'.mem = s.mem) (k1 : t'.history = t.history) (k2 : t'.windows = t.windows)
    (k3 : t'.mem = t.mem) : Accesses es s' t' := by
  obtain ⟨a, b, c⟩ := h
  refine ⟨by rw [k1, a, h1], by rw [k2, b, h2], fun ho => ?_⟩
  rw [k3, h3]
  exact c fun e he => by rw [State.deviceAt, ← h2]; exact ho e he

/-- Some events, no more than `n` of them, lead from `s` to `t`. -/
def AtMost (n : Nat) (s t : State) : Prop := ∃ es, es.length ≤ n ∧ Accesses es s t

theorem Accesses.atMost {es : List BusEvent} {s t : State} (h : Accesses es s t) : AtMost es.length s t :=
  ⟨es, Nat.le_refl _, h⟩

/-- The bound may grow, and registers do not matter. -/
theorem AtMost.regs {n k : Nat} {s t u : State} (h : AtMost n s t) (hk : n ≤ k) (h1 : u.history = t.history)
    (h2 : u.windows = t.windows) (h3 : u.mem = t.mem) : AtMost k s u := by
  obtain ⟨es, hl, ha⟩ := h
  exact ⟨es, Nat.le_trans hl hk, ha.congr rfl rfl rfl h1 h2 h3⟩

theorem AtMost.none (s : State) : AtMost 0 s s := ⟨[], Nat.le_refl 0, .refl s⟩

theorem busRead_accesses (w : Word) (s : State) : Accesses [.read w (busRead w s).1] s (busRead w s).2 := by
  refine ⟨rfl, rfl, fun ho => ?_⟩
  rw [busRead_ordinary w s (ho _ List.mem_cons_self)]
  rfl

theorem busWrite_accesses (w : Word) (v : Byte) (s : State) : Accesses [.write w v] s (busWrite w v s) := by
  refine ⟨rfl, rfl, fun ho => ?_⟩
  rw [busWrite_ordinary w v s (ho _ List.mem_cons_self)]
  rfl

theorem readPair_accesses (lo hi : Word) (s : State) :
    Accesses [.read hi (busRead hi (busRead lo s).2).1, .read lo (busRead lo s).1] s (readPair lo hi s).2 :=
  (busRead_accesses lo s).trans (busRead_accesses hi _)

theorem push_accesses (v : Byte) (s : State) : Accesses [.write (stackAddr s.s) v] s (push v s) :=
  (busWrite_accesses (stackAddr s.s) v s).congr rfl rfl rfl rfl rfl rfl

theorem pushWord_accesses (w : Word) (s : State) :
    Accesses [.write (stackAddr (s.s - 1)) (loByte w), .write (stackAddr s.s) (hiByte w)] s (pushWord w s) :=
  (push_accesses (hiByte w) s).trans (push_accesses (loByte w) _)

theorem pull_accesses (s : State) : Accesses [.read (stackAddr (s.s + 1)) (pull s).1] s (pull s).2 :=
  (busRead_accesses (stackAddr (s.s + 1)) (s.setS (s.s + 1))).congr rfl rfl rfl rfl rfl rfl

theorem pullWord_accesses (s : State) :
    Accesses [.read (stackAddr (s.s + 1 + 1)) (pull (pull s).2).1, .read (stackAddr (s.s + 1)) (pull s).1] s
      (pullWord s).2 :=
  (pull_accesses s).trans (pull_accesses (pull s).2)

theorem enterHandler_accesses (vector : Word) (b : Bool) (s : State) :
    ∃ es, es.length = 5 ∧ Accesses es s (enterHandler vector b s) := by
  have h := (pushWord_accesses s.pc s).trans (push_accesses (packP b s.p) _)
  have k := readPair_accesses vector (vector + 1)
    ((push (packP b s.p) (pushWord s.pc s)).setP { (push (packP b s.p) (pushWord s.pc s)).p with i := true })
  exact ⟨_, rfl, (h.trans (k.congr rfl rfl rfl rfl rfl rfl : Accesses _ (push (packP b s.p) (pushWord s.pc s)) _)).congr
    rfl rfl rfl rfl rfl rfl⟩

theorem returnFromHandler_accesses (s : State) :
    ∃ es, es.length = 3 ∧ Accesses es s (returnFromHandler s) := by
  have k := pullWord_accesses ((pull s).2.setP (unpackP (pull s).1))
  exact ⟨_, rfl, ((pull_accesses s).trans (k.congr rfl rfl rfl rfl rfl rfl : Accesses _ (pull s).2 _)).congr
    rfl rfl rfl rfl rfl rfl⟩

/-- The resolver makes no access, or two pointer reads. -/
theorem resolve_accesses (m : MemOperand) (s : State) :
    AtMost 2 s (resolve m s).st := by
  cases m with
  | indx b => exact ⟨_, by simp, readPair_accesses _ _ s⟩
  | indy b => exact ⟨_, by simp, readPair_accesses _ _ s⟩
  | zp b => exact ⟨[], Nat.zero_le 2, .refl s⟩
  | zpx b => exact ⟨[], Nat.zero_le 2, .refl s⟩
  | zpy b => exact ⟨[], Nat.zero_le 2, .refl s⟩
  | abs w => exact ⟨[], Nat.zero_le 2, .refl s⟩
  | absx w => exact ⟨[], Nat.zero_le 2, .refl s⟩
  | absy w => exact ⟨[], Nat.zero_le 2, .refl s⟩

theorem loadMem_accesses (m : MemOperand) (s : State) : AtMost 3 s (loadMem m s).st := by
  obtain ⟨es, hl, h⟩ := resolve_accesses m s
  exact ⟨_, by simp; omega, h.trans (busRead_accesses (resolve m s).ea (resolve m s).st)⟩

theorem loadOperand_accesses (o : ReadOperand) (s : State) :
    AtMost 3 s (loadOperand o s).st := by
  cases o with
  | imm v => exact ⟨[], Nat.zero_le 3, .refl s⟩
  | mem m => exact loadMem_accesses m s

theorem storeMem_accesses (m : MemOperand) (v : Byte) (s : State) :
    AtMost 3 s (storeMem m v s) := by
  obtain ⟨es, hl, h⟩ := resolve_accesses m s
  exact ⟨_, by simp; omega, h.trans (busWrite_accesses (resolve m s).ea v (resolve m s).st)⟩

theorem modifyMem_accesses (i : Instr) (m : MemOperand) (f : Byte → Bool → Byte) (flags : Status → Byte → Status)
    (s : State) : AtMost 4 s (modifyMem i m f flags s) := by
  obtain ⟨es, hl, h⟩ := resolve_accesses m s
  have k := (h.trans (busRead_accesses (resolve m s).ea (resolve m s).st)).trans
    (busWrite_accesses (resolve m s).ea (f (busRead (resolve m s).ea (resolve m s).st).1
      (busRead (resolve m s).ea (resolve m s).st).2.p.c) (busRead (resolve m s).ea (resolve m s).st).2)
  exact ⟨_, by simp; omega, k.congr rfl rfl rfl rfl rfl rfl⟩

theorem resolveJump_accesses (o : JumpOperand) (s : State) :
    AtMost 2 s (resolveJump o s).2 := by
  cases o with
  | abs w => exact ⟨[], Nat.zero_le 2, .refl s⟩
  | ind p => exact ⟨_, by simp, readPair_accesses _ _ s⟩

theorem fetchBytes_accesses (n : Nat) (w : Word) (s : State) :
    ∃ es, es.length = n ∧ Accesses es s (fetchBytes n w s).2 := by
  induction n generalizing w s with
  | zero => exact ⟨[], rfl, .refl s⟩
  | succ n ih =>
    obtain ⟨es, hl, h⟩ := ih (w + 1) (busRead w s).2
    exact ⟨_, by simp [hl], (busRead_accesses w s).trans h⟩

/-- A fetch makes one access for the opcode byte and one for each operand byte it reads. -/
theorem fetch_accesses (s : State) :
    ∃ es, es.length = 1 + fetchCount (decodeEntry (busRead s.pc s).1) s.params.undefinedPolicy ∧
      Accesses es s (fetch s).st := by
  obtain ⟨es, hl, h⟩ := fetchBytes_accesses (fetchCount (decodeEntry (busRead s.pc s).1) s.params.undefinedPolicy)
    (s.pc + 1) (busRead s.pc s).2
  exact ⟨_, by simp [hl, Nat.add_comm], ((busRead_accesses s.pc s).trans h).congr rfl rfl rfl rfl rfl rfl⟩

end Sys2Proof.Machine
end

