-- ==== Sys2Proof/Laws/Exec.lean ====
section
/-! SUPPORT. What any instruction's meaning leaves alone and how many accesses it makes, said once over all instructions. -/

namespace Sys2Proof.Machine

/-- What no instruction changes: the FSM, the host's inputs and the parameters; and memory stays canonical. -/
def Keeps (s t : State) : Prop :=
  t.fsm = s.fsm ∧ t.nmiPending = s.nmiPending ∧ t.irqLine = s.irqLine ∧ t.windows = s.windows ∧ t.params = s.params ∧
    (Memory.wf s.mem = true → Memory.wf t.mem = true)

theorem modifyMem_keeps (i : Instr) (m : MemOperand) (f : Byte → Bool → Byte) (flags : Status → Byte → Status) (s : State) :
    Keeps s (modifyMem i m f flags s) :=
  ⟨by simp [modifyMem], by simp [modifyMem], by simp [modifyMem], by simp [modifyMem], by simp [modifyMem],
    fun h => busWrite_memWf _ _ _ (busRead_memWf _ _ (resolve_memWf m s h))⟩

theorem accumulate_keeps (i : Instr) (o : ReadOperand) (f : Byte → Byte → Byte) (s : State) :
    Keeps s (accumulate i o f s) :=
  ⟨by simp [accumulate, State.setZN], by simp [accumulate, State.setZN], by simp [accumulate, State.setZN],
    by simp [accumulate, State.setZN], by simp [accumulate, State.setZN], loadOperand_memWf o s⟩

theorem accumulateCarry_keeps (i : Instr) (o : ReadOperand) (f : Bool → Byte → Byte → Bool → AluResult) (s : State) :
    Keeps s (accumulateCarry i o f s) :=
  ⟨by simp [accumulateCarry], by simp [accumulateCarry], by simp [accumulateCarry], by simp [accumulateCarry],
    by simp [accumulateCarry], loadOperand_memWf o s⟩

theorem compareWith_keeps (i : Instr) (o : ReadOperand) (r : State → Byte) (s : State) : Keeps s (compareWith i o r s) :=
  ⟨by simp [compareWith], by simp [compareWith], by simp [compareWith], by simp [compareWith], by simp [compareWith],
    loadOperand_memWf o s⟩

theorem storeRegister_keeps (i : Instr) (m : MemOperand) (v : Byte) (s : State) : Keeps s (storeRegister i m v s) :=
  ⟨by simp [storeRegister], by simp [storeRegister], by simp [storeRegister], by simp [storeRegister],
    by simp [storeRegister], fun h => by simpa [storeRegister] using storeMem_memWf m v s h⟩

theorem shiftOperand_keeps (i : Instr) (o : ShiftOperand) (f : Byte → Bool → AluResult) (s : State) :
    Keeps s (shiftOperand i o f s) := by
  cases o with
  | acc => exact ⟨rfl, rfl, rfl, rfl, rfl, id⟩
  | mem m =>
    simp only [shiftOperand]
    exact modifyMem_keeps _ _ _ _ s

theorem branchOn_keeps (i : Instr) (c : Bool) (d : Byte) (s : State) : Keeps s (branchOn i c d s) := by
  cases c <;> exact ⟨rfl, rfl, rfl, rfl, rfl, id⟩

/-- What the operand of LDX, LDY and BIT leaves, with any registers written. -/
theorem keeps_of_fields {s t u : State} (h : Keeps s t) (h1 : u.fsm = t.fsm) (h2 : u.nmiPending = t.nmiPending)
    (h3 : u.irqLine = t.irqLine) (h4 : u.windows = t.windows) (h5 : u.params = t.params) (h6 : u.mem = t.mem) :
    Keeps s u := by
  obtain ⟨k1, k2, k3, k4, k5, k6⟩ := h
  exact ⟨h1.trans k1, h2.trans k2, h3.trans k3, h4.trans k4, h5.trans k5, fun h => by rw [h6]; exact k6 h⟩

theorem loadOperand_keeps (o : ReadOperand) (s : State) : Keeps s (loadOperand o s).st :=
  ⟨by simp, by simp, by simp, by simp, by simp, loadOperand_memWf o s⟩

theorem loadMem_keeps (m : MemOperand) (s : State) : Keeps s (loadMem m s).st :=
  ⟨by simp, by simp, by simp, by simp, by simp, loadMem_memWf m s⟩

theorem enterHandler_keeps (vector : Word) (b : Bool) (s : State) : Keeps s (enterHandler vector b s) := by
  obtain ⟨_, _, _, _, _, hf, hn, hi, _, hw, hq⟩ := enterHandler_registers vector b s
  exact ⟨hf, hn, hi, hw, hq, enterHandler_memWf vector b s⟩

theorem returnFromHandler_keeps (s : State) : Keeps s (returnFromHandler s) := by
  obtain ⟨_, _, _, _, _, hf, hn, hi, _, hw, hq⟩ := returnFromHandler_registers s
  exact ⟨hf, hn, hi, hw, hq, returnFromHandler_memWf s⟩

/-- No instruction changes the FSM, a host input or a parameter, and every one keeps memory canonical. -/
theorem exec_keeps (i : Instr) (s t : State) (h : exec i s = .next t) : Keeps s t := by
  cases i with
  | adc o => cases h; exact accumulateCarry_keeps _ _ _ s
  | sbc o => cases h; exact accumulateCarry_keeps _ _ _ s
  | and o => cases h; exact accumulate_keeps _ _ _ s
  | ora o => cases h; exact accumulate_keeps _ _ _ s
  | eor o => cases h; exact accumulate_keeps _ _ _ s
  | lda o => cases h; exact accumulate_keeps _ _ _ s
  | ldx o => cases h; exact keeps_of_fields (loadOperand_keeps o s) rfl rfl rfl rfl rfl rfl
  | ldy o => cases h; exact keeps_of_fields (loadOperand_keeps o s) rfl rfl rfl rfl rfl rfl
  | bit m => cases h; exact keeps_of_fields (loadMem_keeps m s) rfl rfl rfl rfl rfl rfl
  | asl o => cases h; exact shiftOperand_keeps _ _ _ s
  | lsr o => cases h; exact shiftOperand_keeps _ _ _ s
  | rol o => cases h; exact shiftOperand_keeps _ _ _ s
  | ror o => cases h; exact shiftOperand_keeps _ _ _ s
  | sta m => cases h; exact storeRegister_keeps _ _ _ s
  | stx m => cases h; exact storeRegister_keeps _ _ _ s
  | sty m => cases h; exact storeRegister_keeps _ _ _ s
  | cmp o => cases h; exact compareWith_keeps _ _ _ s
  | cpx o => cases h; exact compareWith_keeps _ _ _ s
  | cpy o => cases h; exact compareWith_keeps _ _ _ s
  | inc m => cases h; exact modifyMem_keeps _ _ _ _ s
  | dec m => cases h; exact modifyMem_keeps _ _ _ _ s
  | bpl d => cases h; exact branchOn_keeps _ _ _ s
  | bmi d => cases h; exact branchOn_keeps _ _ _ s
  | bvc d => cases h; exact branchOn_keeps _ _ _ s
  | bvs d => cases h; exact branchOn_keeps _ _ _ s
  | bcc d => cases h; exact branchOn_keeps _ _ _ s
  | bcs d => cases h; exact branchOn_keeps _ _ _ s
  | bne d => cases h; exact branchOn_keeps _ _ _ s
  | beq d => cases h; exact branchOn_keeps _ _ _ s
  | jmp o =>
    cases h
    exact ⟨by simp, by simp, by simp, by simp, by simp, fun h => by simpa using resolveJump_memWf o s h⟩
  | jsr w => cases h; exact ⟨by simp, by simp, by simp, by simp, by simp, fun h => by simpa using pushWord_memWf _ s h⟩
  | rts => cases h; exact ⟨by simp, by simp, by simp, by simp, by simp, fun h => by simpa using pullWord_memWf s h⟩
  | pha => cases h; exact ⟨by simp, by simp, by simp, by simp, by simp, fun h => by simpa using push_memWf _ s h⟩
  | php => cases h; exact ⟨by simp, by simp, by simp, by simp, by simp, fun h => by simpa using push_memWf _ s h⟩
  | pla => cases h; exact ⟨by simp, by simp, by simp, by simp, by simp, fun h => by simpa using pull_memWf s h⟩
  | plp => cases h; exact ⟨by simp, by simp, by simp, by simp, by simp, fun h => by simpa using pull_memWf s h⟩
  | brk => cases h; exact keeps_of_fields (enterHandler_keeps irqBrkVector true s) (by simp) (by simp) (by simp) (by simp) (by simp) (by simp)
  | rti => cases h; exact keeps_of_fields (returnFromHandler_keeps s) (by simp) (by simp) (by simp) (by simp) (by simp) (by simp)
  | undefined op =>
    simp only [exec, execUndefined] at h
    split at h
    · cases h
    · cases h; exact ⟨rfl, rfl, rfl, rfl, rfl, id⟩
  | _ => cases h; exact ⟨rfl, rfl, rfl, rfl, rfl, id⟩

/-- Every instruction makes at most five accesses after its fetch. -/
theorem exec_accesses (i : Instr) (s t : State) (h : exec i s = .next t) : AtMost 5 s t := by
  have shift : ∀ (j : Instr) (o : ShiftOperand) (f : Byte → Bool → AluResult), AtMost 5 s (shiftOperand j o f s) := by
    intro j o f
    cases o with
    | acc => exact (AtMost.none s).regs (by decide) rfl rfl rfl
    | mem m =>
      simp only [shiftOperand]
      exact (modifyMem_accesses _ _ _ _ s).regs (by decide) rfl rfl rfl
  have branch : ∀ (j : Instr) (c : Bool) (d : Byte), AtMost 5 s (branchOn j c d s) := by
    intro j c d
    cases c <;> exact (AtMost.none s).regs (by decide) rfl rfl rfl
  cases i with
  | adc o => cases h; exact (loadOperand_accesses o s).regs (by decide) rfl rfl rfl
  | sbc o => cases h; exact (loadOperand_accesses o s).regs (by decide) rfl rfl rfl
  | and o => cases h; exact (loadOperand_accesses o s).regs (by decide) rfl rfl rfl
  | ora o => cases h; exact (loadOperand_accesses o s).regs (by decide) rfl rfl rfl
  | eor o => cases h; exact (loadOperand_accesses o s).regs (by decide) rfl rfl rfl
  | lda o => cases h; exact (loadOperand_accesses o s).regs (by decide) rfl rfl rfl
  | ldx o => cases h; exact (loadOperand_accesses o s).regs (by decide) rfl rfl rfl
  | ldy o => cases h; exact (loadOperand_accesses o s).regs (by decide) rfl rfl rfl
  | cmp o => cases h; exact (loadOperand_accesses o s).regs (by decide) rfl rfl rfl
  | cpx o => cases h; exact (loadOperand_accesses o s).regs (by decide) rfl rfl rfl
  | cpy o => cases h; exact (loadOperand_accesses o s).regs (by decide) rfl rfl rfl
  | bit m => cases h; exact (loadMem_accesses m s).regs (by decide) rfl rfl rfl
  | sta m => cases h; exact (storeMem_accesses m _ s).regs (by decide) rfl rfl rfl
  | stx m => cases h; exact (storeMem_accesses m _ s).regs (by decide) rfl rfl rfl
  | sty m => cases h; exact (storeMem_accesses m _ s).regs (by decide) rfl rfl rfl
  | inc m => cases h; exact (modifyMem_accesses _ _ _ _ s).regs (by decide) rfl rfl rfl
  | dec m => cases h; exact (modifyMem_accesses _ _ _ _ s).regs (by decide) rfl rfl rfl
  | asl o => cases h; exact shift _ _ _
  | lsr o => cases h; exact shift _ _ _
  | rol o => cases h; exact shift _ _ _
  | ror o => cases h; exact shift _ _ _
  | bpl d => cases h; exact branch _ _ _
  | bmi d => cases h; exact branch _ _ _
  | bvc d => cases h; exact branch _ _ _
  | bvs d => cases h; exact branch _ _ _
  | bcc d => cases h; exact branch _ _ _
  | bcs d => cases h; exact branch _ _ _
  | bne d => cases h; exact branch _ _ _
  | beq d => cases h; exact branch _ _ _
  | jmp o => cases h; exact (resolveJump_accesses o s).regs (by decide) rfl rfl rfl
  | jsr w => cases h; exact (pushWord_accesses (s.pc - 1) s).atMost.regs (by simp) (by simp) (by simp) (by simp)
  | rts => cases h; exact (pullWord_accesses s).atMost.regs (by simp) (by simp) (by simp) (by simp)
  | pha => cases h; exact (push_accesses s.a s).atMost.regs (by simp) (by simp) (by simp) (by simp)
  | php => cases h; exact (push_accesses (packP true s.p) s).atMost.regs (by simp) (by simp) (by simp) (by simp)
  | pla => cases h; exact (pull_accesses s).atMost.regs (by simp) (by simp) (by simp) (by simp)
  | plp => cases h; exact (pull_accesses s).atMost.regs (by simp) (by simp) (by simp) (by simp)
  | brk =>
    cases h
    obtain ⟨es, hl, ha⟩ := enterHandler_accesses irqBrkVector true s
    exact ha.atMost.regs (by omega) (by simp) (by simp) (by simp)
  | rti =>
    cases h
    obtain ⟨es, hl, ha⟩ := returnFromHandler_accesses s
    exact ha.atMost.regs (by omega) (by simp) (by simp) (by simp)
  | undefined op =>
    simp only [exec, execUndefined] at h
    split at h
    · cases h
    · cases h; exact (AtMost.none s).regs (by decide) rfl rfl rfl
  | _ => cases h; exact (AtMost.none s).regs (by decide) rfl rfl rfl

end Sys2Proof.Machine
end

