-- ==== Sys2Proof/Laws/PerInstr.lean ====
section
/-! SUPPORT. Per-instruction families: `OpcodeExists`, that the instruction has an opcode byte exactly when it is well-formed. -/

namespace Sys2Proof.Laws.OpcodeExists

/-- The encoder finds an opcode byte exactly for the pairings that WellFormed.lean lists (41_addressing_modes.md R159). -/
def Statement (i : Instr) : Prop := (opcodeOf i).isSome = i.wf

theorem adc (q : ReadOperand) : Statement (.adc q) := by
  rcases q with _ | m
  · rfl
  · cases m <;> rfl

theorem sbc (q : ReadOperand) : Statement (.sbc q) := by
  rcases q with _ | m
  · rfl
  · cases m <;> rfl

theorem and (q : ReadOperand) : Statement (.and q) := by
  rcases q with _ | m
  · rfl
  · cases m <;> rfl

theorem ora (q : ReadOperand) : Statement (.ora q) := by
  rcases q with _ | m
  · rfl
  · cases m <;> rfl

theorem eor (q : ReadOperand) : Statement (.eor q) := by
  rcases q with _ | m
  · rfl
  · cases m <;> rfl

theorem bit (q : MemOperand) : Statement (.bit q) := by cases q <;> rfl

theorem asl (q : ShiftOperand) : Statement (.asl q) := by
  rcases q with _ | m
  · rfl
  · cases m <;> rfl

theorem lsr (q : ShiftOperand) : Statement (.lsr q) := by
  rcases q with _ | m
  · rfl
  · cases m <;> rfl

theorem rol (q : ShiftOperand) : Statement (.rol q) := by
  rcases q with _ | m
  · rfl
  · cases m <;> rfl

theorem ror (q : ShiftOperand) : Statement (.ror q) := by
  rcases q with _ | m
  · rfl
  · cases m <;> rfl

theorem lda (q : ReadOperand) : Statement (.lda q) := by
  rcases q with _ | m
  · rfl
  · cases m <;> rfl

theorem ldx (q : ReadOperand) : Statement (.ldx q) := by
  rcases q with _ | m
  · rfl
  · cases m <;> rfl

theorem ldy (q : ReadOperand) : Statement (.ldy q) := by
  rcases q with _ | m
  · rfl
  · cases m <;> rfl

theorem sta (q : MemOperand) : Statement (.sta q) := by cases q <;> rfl

theorem stx (q : MemOperand) : Statement (.stx q) := by cases q <;> rfl

theorem sty (q : MemOperand) : Statement (.sty q) := by cases q <;> rfl

theorem tax : Statement (.tax) := rfl

theorem tay : Statement (.tay) := rfl

theorem txa : Statement (.txa) := rfl

theorem tya : Statement (.tya) := rfl

theorem tsx : Statement (.tsx) := rfl

theorem txs : Statement (.txs) := rfl

theorem cmp (q : ReadOperand) : Statement (.cmp q) := by
  rcases q with _ | m
  · rfl
  · cases m <;> rfl

theorem cpx (q : ReadOperand) : Statement (.cpx q) := by
  rcases q with _ | m
  · rfl
  · cases m <;> rfl

theorem cpy (q : ReadOperand) : Statement (.cpy q) := by
  rcases q with _ | m
  · rfl
  · cases m <;> rfl

theorem inc (q : MemOperand) : Statement (.inc q) := by cases q <;> rfl

theorem dec (q : MemOperand) : Statement (.dec q) := by cases q <;> rfl

theorem inx : Statement (.inx) := rfl

theorem iny : Statement (.iny) := rfl

theorem dex : Statement (.dex) := rfl

theorem dey : Statement (.dey) := rfl

theorem bpl (q : Byte) : Statement (.bpl q) := rfl

theorem bmi (q : Byte) : Statement (.bmi q) := rfl

theorem bvc (q : Byte) : Statement (.bvc q) := rfl

theorem bvs (q : Byte) : Statement (.bvs q) := rfl

theorem bcc (q : Byte) : Statement (.bcc q) := rfl

theorem bcs (q : Byte) : Statement (.bcs q) := rfl

theorem bne (q : Byte) : Statement (.bne q) := rfl

theorem beq (q : Byte) : Statement (.beq q) := rfl

theorem jmp (q : JumpOperand) : Statement (.jmp q) := by cases q <;> rfl

theorem jsr (q : Word) : Statement (.jsr q) := rfl

theorem rts : Statement (.rts) := rfl

theorem pha : Statement (.pha) := rfl

theorem php : Statement (.php) := rfl

theorem pla : Statement (.pla) := rfl

theorem plp : Statement (.plp) := rfl

theorem clc : Statement (.clc) := rfl

theorem sec : Statement (.sec) := rfl

theorem cli : Statement (.cli) := rfl

theorem sei : Statement (.sei) := rfl

theorem clv : Statement (.clv) := rfl

theorem cld : Statement (.cld) := rfl

theorem sed : Statement (.sed) := rfl

theorem brk : Statement (.brk) := rfl

theorem rti : Statement (.rti) := rfl

theorem nop : Statement (.nop) := rfl

theorem undefined (q : Byte) : Statement (.undefined q) := by
  show (if undefinedBytes.contains q then some q else none).isSome = undefinedBytes.contains q
  cases undefinedBytes.contains q <;> rfl

end Sys2Proof.Laws.OpcodeExists
end

