-- ==== Sys2Proof/Tests/Slice0.lean ====
section
/-! SUPPORT. Tests and witnesses. Expected values are those of spec/95_test_vectors.md (V<n>, X<n>) or worked out by hand from the
rule a comment names; encodings are those of 30_encoding.md R109 and R111. -/

open Sys2Proof Sys2Proof.Machine Sys2Proof.Claims

namespace Sys2Proof.Tests

/-! ## Small states -/

/-- Flags in the order of the test vectors, NVDIZC; B is 0. -/
def flags (n v d i z c : Bool) : Status := { n, v, b := false, d, i, z, c }

/-- The default start state of 95_test_vectors.md Part 2, with the instruction bytes at 0x0200 and the bytes a row lists; one
device window far away makes "ordinary memory" a real condition. -/
def boot (code : List Byte) (data : List (Word × Byte)) : State :=
  { State.reset with
    pc := 0x0200
    p := flags false false false false false false
    mem := (hostLoad 0x0200 code { State.reset with mem := memWriteAll [] data }).mem
    windows := [⟨0xD000, 0xD0FF, 7⟩]
    history := [] }

/-- The next state of an outcome. -/
def next? : Result → Option State
  | .next t => some t
  | .fault _ => none
  | .refused _ => none

/-- The fault of an outcome. -/
def fault? : Result → Option Fault
  | .fault r => some r
  | .next _ => none
  | .refused _ => none

/-- A, X, Y, S, PC, the status byte with its B flag, and the cycles of a step. -/
structure Regs where
  a : Byte
  x : Byte
  y : Byte
  s : Byte
  pc : Word
  p : Byte
  cycles : Nat
deriving DecidableEq, Repr

/-- The registers after one step. -/
def after (s : State) : Option Regs :=
  (next? (step s)).map fun t => ⟨t.a, t.x, t.y, t.s, t.pc, packP t.p.b t.p, t.cycleTotal⟩

/-- A byte of memory after one step. -/
def byteAfter (s : State) (w : Word) : Option Byte := (next? (step s)).map fun t => plainByte t w

/-- The bus accesses of one step, the oldest first. -/
def busOf (s : State) : Option (List BusEvent) := (next? (step s)).map fun t => t.history.reverse

/-! ## WellFormed refuses ill-formed terms -/

/-- No accumulator instruction has a zero page,Y form (R180 to R184, R195, R198, R210). -/
theorem test_wf_refuses_acc_zpy :
    Instr.wf (.adc (.mem (.zpy 0x10))) = false ∧ Instr.wf (.sbc (.mem (.zpy 0x10))) = false ∧
    Instr.wf (.and (.mem (.zpy 0x10))) = false ∧ Instr.wf (.ora (.mem (.zpy 0x10))) = false ∧
    Instr.wf (.eor (.mem (.zpy 0x10))) = false ∧ Instr.wf (.lda (.mem (.zpy 0x10))) = false ∧
    Instr.wf (.cmp (.mem (.zpy 0x10))) = false ∧ Instr.wf (.sta (.zpy 0x10)) = false := by decide

/-- The modify forms exclude every Y form and both indirect forms (R190 to R193, R213, R214), as LDY's do (R197). -/
theorem test_wf_refuses_modify_forms :
    Instr.wf (.asl (.mem (.zpy 0x10))) = false ∧ Instr.wf (.lsr (.mem (.absy 0x1234))) = false ∧
    Instr.wf (.rol (.mem (.indx 0x10))) = false ∧ Instr.wf (.ror (.mem (.indy 0x10))) = false ∧
    Instr.wf (.inc (.absy 0x1234)) = false ∧ Instr.wf (.dec (.indy 0x10)) = false ∧
    Instr.wf (.ldy (.mem (.zpy 0x10))) = false ∧ Instr.wf (.ldy (.mem (.absy 0x1234))) = false := by decide

/-- BIT, CPX and CPY have zero page and absolute only (R185, R211, R212). -/
theorem test_wf_refuses_plain_forms :
    Instr.wf (.bit (.zpx 0x10)) = false ∧ Instr.wf (.bit (.absx 0x1234)) = false ∧
    Instr.wf (.cpx (.mem (.zpx 0x10))) = false ∧ Instr.wf (.cpy (.mem (.absy 0x1234))) = false := by decide

/-- STX, STY and LDX lack the other register's forms (R196, R199, R200). -/
theorem test_wf_refuses_index_forms :
    Instr.wf (.stx (.zpx 0x10)) = false ∧ Instr.wf (.stx (.absy 0x1234)) = false ∧ Instr.wf (.sty (.zpy 0x10)) = false ∧
    Instr.wf (.sty (.absx 0x1234)) = false ∧ Instr.wf (.ldx (.mem (.zpx 0x10))) = false ∧
    Instr.wf (.ldx (.mem (.absx 0x1234))) = false := by decide

/-- An official byte is no undefined byte (R110). -/
theorem test_wf_refuses_official_as_undefined :
    Instr.wf (.undefined 0xEA) = false ∧ Instr.wf (.undefined 0x00) = false ∧ Instr.wf (.undefined 0x02) = true := by decide

/-! ## Words of 30_encoding.md R109 decode to what they stand for -/

theorem test_decode_arith_logic :
    decode [0x61, 0x9C] = .ok (.adc (.mem (.indx 0x9C))) [] ∧ decode [0x65, 0x9C] = .ok (.adc (.mem (.zp 0x9C))) [] ∧
    decode [0x69, 0x9C] = .ok (.adc (.imm 0x9C)) [] ∧ decode [0x6D, 0x34, 0x12] = .ok (.adc (.mem (.abs 0x1234))) [] ∧
    decode [0x71, 0x9C] = .ok (.adc (.mem (.indy 0x9C))) [] ∧ decode [0x75, 0x9C] = .ok (.adc (.mem (.zpx 0x9C))) [] ∧
    decode [0x79, 0x34, 0x12] = .ok (.adc (.mem (.absy 0x1234))) [] ∧
    decode [0x7D, 0x34, 0x12] = .ok (.adc (.mem (.absx 0x1234))) [] ∧
    decode [0xE1, 0x9C] = .ok (.sbc (.mem (.indx 0x9C))) [] ∧ decode [0xE5, 0x9C] = .ok (.sbc (.mem (.zp 0x9C))) [] ∧
    decode [0xE9, 0x9C] = .ok (.sbc (.imm 0x9C)) [] ∧ decode [0xED, 0x34, 0x12] = .ok (.sbc (.mem (.abs 0x1234))) [] ∧
    decode [0xF1, 0x9C] = .ok (.sbc (.mem (.indy 0x9C))) [] ∧ decode [0xF5, 0x9C] = .ok (.sbc (.mem (.zpx 0x9C))) [] ∧
    decode [0xF9, 0x34, 0x12] = .ok (.sbc (.mem (.absy 0x1234))) [] ∧
    decode [0xFD, 0x34, 0x12] = .ok (.sbc (.mem (.absx 0x1234))) [] := by decide

theorem test_decode_logic :
    decode [0x21, 0x9C] = .ok (.and (.mem (.indx 0x9C))) [] ∧ decode [0x25, 0x9C] = .ok (.and (.mem (.zp 0x9C))) [] ∧
    decode [0x29, 0x9C] = .ok (.and (.imm 0x9C)) [] ∧ decode [0x2D, 0x34, 0x12] = .ok (.and (.mem (.abs 0x1234))) [] ∧
    decode [0x31, 0x9C] = .ok (.and (.mem (.indy 0x9C))) [] ∧ decode [0x35, 0x9C] = .ok (.and (.mem (.zpx 0x9C))) [] ∧
    decode [0x39, 0x34, 0x12] = .ok (.and (.mem (.absy 0x1234))) [] ∧
    decode [0x3D, 0x34, 0x12] = .ok (.and (.mem (.absx 0x1234))) [] ∧
    decode [0x01, 0x9C] = .ok (.ora (.mem (.indx 0x9C))) [] ∧ decode [0x05, 0x9C] = .ok (.ora (.mem (.zp 0x9C))) [] ∧
    decode [0x09, 0x9C] = .ok (.ora (.imm 0x9C)) [] ∧ decode [0x0D, 0x34, 0x12] = .ok (.ora (.mem (.abs 0x1234))) [] ∧
    decode [0x11, 0x9C] = .ok (.ora (.mem (.indy 0x9C))) [] ∧ decode [0x15, 0x9C] = .ok (.ora (.mem (.zpx 0x9C))) [] ∧
    decode [0x19, 0x34, 0x12] = .ok (.ora (.mem (.absy 0x1234))) [] ∧
    decode [0x1D, 0x34, 0x12] = .ok (.ora (.mem (.absx 0x1234))) [] ∧
    decode [0x41, 0x9C] = .ok (.eor (.mem (.indx 0x9C))) [] ∧ decode [0x45, 0x9C] = .ok (.eor (.mem (.zp 0x9C))) [] ∧
    decode [0x49, 0x9C] = .ok (.eor (.imm 0x9C)) [] ∧ decode [0x4D, 0x34, 0x12] = .ok (.eor (.mem (.abs 0x1234))) [] ∧
    decode [0x51, 0x9C] = .ok (.eor (.mem (.indy 0x9C))) [] ∧ decode [0x55, 0x9C] = .ok (.eor (.mem (.zpx 0x9C))) [] ∧
    decode [0x59, 0x34, 0x12] = .ok (.eor (.mem (.absy 0x1234))) [] ∧
    decode [0x5D, 0x34, 0x12] = .ok (.eor (.mem (.absx 0x1234))) [] ∧ decode [0x24, 0x9C] = .ok (.bit (.zp 0x9C)) [] ∧
    decode [0x2C, 0x34, 0x12] = .ok (.bit (.abs 0x1234)) [] := by decide

theorem test_decode_shift :
    decode [0x06, 0x9C] = .ok (.asl (.mem (.zp 0x9C))) [] ∧ decode [0x0A] = .ok (.asl .acc) [] ∧
    decode [0x0E, 0x34, 0x12] = .ok (.asl (.mem (.abs 0x1234))) [] ∧
    decode [0x16, 0x9C] = .ok (.asl (.mem (.zpx 0x9C))) [] ∧
    decode [0x1E, 0x34, 0x12] = .ok (.asl (.mem (.absx 0x1234))) [] ∧
    decode [0x46, 0x9C] = .ok (.lsr (.mem (.zp 0x9C))) [] ∧ decode [0x4A] = .ok (.lsr .acc) [] ∧
    decode [0x4E, 0x34, 0x12] = .ok (.lsr (.mem (.abs 0x1234))) [] ∧
    decode [0x56, 0x9C] = .ok (.lsr (.mem (.zpx 0x9C))) [] ∧
    decode [0x5E, 0x34, 0x12] = .ok (.lsr (.mem (.absx 0x1234))) [] ∧
    decode [0x26, 0x9C] = .ok (.rol (.mem (.zp 0x9C))) [] ∧ decode [0x2A] = .ok (.rol .acc) [] ∧
    decode [0x2E, 0x34, 0x12] = .ok (.rol (.mem (.abs 0x1234))) [] ∧
    decode [0x36, 0x9C] = .ok (.rol (.mem (.zpx 0x9C))) [] ∧
    decode [0x3E, 0x34, 0x12] = .ok (.rol (.mem (.absx 0x1234))) [] ∧
    decode [0x66, 0x9C] = .ok (.ror (.mem (.zp 0x9C))) [] ∧ decode [0x6A] = .ok (.ror .acc) [] ∧
    decode [0x6E, 0x34, 0x12] = .ok (.ror (.mem (.abs 0x1234))) [] ∧
    decode [0x76, 0x9C] = .ok (.ror (.mem (.zpx 0x9C))) [] ∧
    decode [0x7E, 0x34, 0x12] = .ok (.ror (.mem (.absx 0x1234))) [] := by decide

theorem test_decode_load :
    decode [0xA1, 0x9C] = .ok (.lda (.mem (.indx 0x9C))) [] ∧ decode [0xA5, 0x9C] = .ok (.lda (.mem (.zp 0x9C))) [] ∧
    decode [0xA9, 0x9C] = .ok (.lda (.imm 0x9C)) [] ∧ decode [0xAD, 0x34, 0x12] = .ok (.lda (.mem (.abs 0x1234))) [] ∧
    decode [0xB1, 0x9C] = .ok (.lda (.mem (.indy 0x9C))) [] ∧ decode [0xB5, 0x9C] = .ok (.lda (.mem (.zpx 0x9C))) [] ∧
    decode [0xB9, 0x34, 0x12] = .ok (.lda (.mem (.absy 0x1234))) [] ∧
    decode [0xBD, 0x34, 0x12] = .ok (.lda (.mem (.absx 0x1234))) [] ∧
    decode [0xA2, 0x9C] = .ok (.ldx (.imm 0x9C)) [] ∧ decode [0xA6, 0x9C] = .ok (.ldx (.mem (.zp 0x9C))) [] ∧
    decode [0xAE, 0x34, 0x12] = .ok (.ldx (.mem (.abs 0x1234))) [] ∧
    decode [0xB6, 0x9C] = .ok (.ldx (.mem (.zpy 0x9C))) [] ∧
    decode [0xBE, 0x34, 0x12] = .ok (.ldx (.mem (.absy 0x1234))) [] ∧
    decode [0xA0, 0x9C] = .ok (.ldy (.imm 0x9C)) [] ∧ decode [0xA4, 0x9C] = .ok (.ldy (.mem (.zp 0x9C))) [] ∧
    decode [0xAC, 0x34, 0x12] = .ok (.ldy (.mem (.abs 0x1234))) [] ∧
    decode [0xB4, 0x9C] = .ok (.ldy (.mem (.zpx 0x9C))) [] ∧
    decode [0xBC, 0x34, 0x12] = .ok (.ldy (.mem (.absx 0x1234))) [] := by decide

theorem test_decode_store :
    decode [0x81, 0x9C] = .ok (.sta (.indx 0x9C)) [] ∧ decode [0x85, 0x9C] = .ok (.sta (.zp 0x9C)) [] ∧
    decode [0x8D, 0x34, 0x12] = .ok (.sta (.abs 0x1234)) [] ∧ decode [0x91, 0x9C] = .ok (.sta (.indy 0x9C)) [] ∧
    decode [0x95, 0x9C] = .ok (.sta (.zpx 0x9C)) [] ∧ decode [0x99, 0x34, 0x12] = .ok (.sta (.absy 0x1234)) [] ∧
    decode [0x9D, 0x34, 0x12] = .ok (.sta (.absx 0x1234)) [] ∧ decode [0x86, 0x9C] = .ok (.stx (.zp 0x9C)) [] ∧
    decode [0x8E, 0x34, 0x12] = .ok (.stx (.abs 0x1234)) [] ∧ decode [0x96, 0x9C] = .ok (.stx (.zpy 0x9C)) [] ∧
    decode [0x84, 0x9C] = .ok (.sty (.zp 0x9C)) [] ∧ decode [0x8C, 0x34, 0x12] = .ok (.sty (.abs 0x1234)) [] ∧
    decode [0x94, 0x9C] = .ok (.sty (.zpx 0x9C)) [] := by decide

theorem test_decode_transfer :
    decode [0xAA] = .ok .tax [] ∧ decode [0xA8] = .ok .tay [] ∧ decode [0x8A] = .ok .txa [] ∧
    decode [0x98] = .ok .tya [] ∧ decode [0xBA] = .ok .tsx [] ∧ decode [0x9A] = .ok .txs [] := by decide

theorem test_decode_compare :
    decode [0xC1, 0x9C] = .ok (.cmp (.mem (.indx 0x9C))) [] ∧ decode [0xC5, 0x9C] = .ok (.cmp (.mem (.zp 0x9C))) [] ∧
    decode [0xC9, 0x9C] = .ok (.cmp (.imm 0x9C)) [] ∧ decode [0xCD, 0x34, 0x12] = .ok (.cmp (.mem (.abs 0x1234))) [] ∧
    decode [0xD1, 0x9C] = .ok (.cmp (.mem (.indy 0x9C))) [] ∧ decode [0xD5, 0x9C] = .ok (.cmp (.mem (.zpx 0x9C))) [] ∧
    decode [0xD9, 0x34, 0x12] = .ok (.cmp (.mem (.absy 0x1234))) [] ∧
    decode [0xDD, 0x34, 0x12] = .ok (.cmp (.mem (.absx 0x1234))) [] ∧
    decode [0xE0, 0x9C] = .ok (.cpx (.imm 0x9C)) [] ∧ decode [0xE4, 0x9C] = .ok (.cpx (.mem (.zp 0x9C))) [] ∧
    decode [0xEC, 0x34, 0x12] = .ok (.cpx (.mem (.abs 0x1234))) [] ∧ decode [0xC0, 0x9C] = .ok (.cpy (.imm 0x9C)) [] ∧
    decode [0xC4, 0x9C] = .ok (.cpy (.mem (.zp 0x9C))) [] ∧
    decode [0xCC, 0x34, 0x12] = .ok (.cpy (.mem (.abs 0x1234))) [] := by decide

theorem test_decode_incdec :
    decode [0xE6, 0x9C] = .ok (.inc (.zp 0x9C)) [] ∧ decode [0xEE, 0x34, 0x12] = .ok (.inc (.abs 0x1234)) [] ∧
    decode [0xF6, 0x9C] = .ok (.inc (.zpx 0x9C)) [] ∧ decode [0xFE, 0x34, 0x12] = .ok (.inc (.absx 0x1234)) [] ∧
    decode [0xC6, 0x9C] = .ok (.dec (.zp 0x9C)) [] ∧ decode [0xCE, 0x34, 0x12] = .ok (.dec (.abs 0x1234)) [] ∧
    decode [0xD6, 0x9C] = .ok (.dec (.zpx 0x9C)) [] ∧ decode [0xDE, 0x34, 0x12] = .ok (.dec (.absx 0x1234)) [] ∧
    decode [0xE8] = .ok .inx [] ∧ decode [0xC8] = .ok .iny [] ∧ decode [0xCA] = .ok .dex [] ∧
    decode [0x88] = .ok .dey [] := by decide

theorem test_decode_branch :
    decode [0x10, 0x9C] = .ok (.bpl 0x9C) [] ∧ decode [0x30, 0x9C] = .ok (.bmi 0x9C) [] ∧
    decode [0x50, 0x9C] = .ok (.bvc 0x9C) [] ∧ decode [0x70, 0x9C] = .ok (.bvs 0x9C) [] ∧
    decode [0x90, 0x9C] = .ok (.bcc 0x9C) [] ∧ decode [0xB0, 0x9C] = .ok (.bcs 0x9C) [] ∧
    decode [0xD0, 0x9C] = .ok (.bne 0x9C) [] ∧ decode [0xF0, 0x9C] = .ok (.beq 0x9C) [] := by decide

theorem test_decode_jump_call :
    decode [0x4C, 0x34, 0x12] = .ok (.jmp (.abs 0x1234)) [] ∧
    decode [0x6C, 0x34, 0x12] = .ok (.jmp (.ind 0x1234)) [] ∧ decode [0x20, 0x34, 0x12] = .ok (.jsr 0x1234) [] ∧
    decode [0x60] = .ok .rts [] := by decide

theorem test_decode_stack_flags :
    decode [0x48] = .ok .pha [] ∧ decode [0x08] = .ok .php [] ∧ decode [0x68] = .ok .pla [] ∧
    decode [0x28] = .ok .plp [] ∧ decode [0x18] = .ok .clc [] ∧ decode [0x38] = .ok .sec [] ∧
    decode [0x58] = .ok .cli [] ∧ decode [0x78] = .ok .sei [] ∧ decode [0xB8] = .ok .clv [] ∧
    decode [0xD8] = .ok .cld [] ∧ decode [0xF8] = .ok .sed [] := by decide

theorem test_decode_system :
    decode [0x00, 0x9C] = .ok .brk [] ∧ decode [0x40] = .ok .rti [] ∧ decode [0xEA] = .ok .nop [] := by decide

/-- Every byte of R111 decodes to the undefined instruction with its own byte, and skips its nominal operand bytes. -/
theorem test_decode_undefined :
    (undefinedBytes.all fun op => (decode [op, 0x11, 0x22]).instr? == some (.undefined op)) = true ∧
    decode [0x02, 0x11, 0x22] = .ok (.undefined 0x02) [0x11, 0x22] ∧ decode [0x80, 0x34, 0x22] = .ok (.undefined 0x80) [0x22] ∧
    decode [0x0C, 0x34, 0x12] = .ok (.undefined 0x0C) [] := by decide +kernel

/-- Bytes that end early are rejected by name, and what follows an instruction stays. -/
theorem test_decode_rejects_by_name :
    decode [] = .rejected .noBytes ∧ decode [0x6D, 0x34] = .rejected (.truncated 0x6D) ∧
    decode [0xD0] = .rejected (.truncated 0xD0) ∧ decode [0xEA, 0x01] = .ok .nop [0x01] ∧
    decode [0x00, 0xEA, 0x07] = .ok .brk [0x07] := by decide

/-- opcode_table.json numbers the first byte as bits 7..0 and the next as bits 15..8. -/
theorem test_decodeTableWord :
    decodeTableWord 24 0x12347E = some (.ror (.mem (.absx 0x1234))) ∧ decodeTableWord 8 0xFFEA = some .nop ∧
    decodeTableWord 8 0xA9 = some (.lda (.imm 0x00)) := by decide

theorem test_encode :
    encode (.lda (.mem (.absx 0x12F0))) = some [0xBD, 0xF0, 0x12] ∧ encode (.jsr 0x1234) = some [0x20, 0x34, 0x12] ∧
    encode .brk = some [0x00, 0x00] ∧ encode (.undefined 0x0C) = some [0x0C, 0x00, 0x00] ∧
    encode (.stx (.zpx 0x10)) = none := by decide

/-- The fields of an entry (R109): a branch, a page-penalised read, a store without the penalty. -/
theorem test_table_entries :
    (decodeEntry 0xBD).baseCycles = 4 ∧ (decodeEntry 0xBD).pagePenalty = true ∧ (decodeEntry 0x9D).baseCycles = 5 ∧
    (decodeEntry 0x9D).pagePenalty = false ∧ (decodeEntry 0x90).baseCycles = 2 ∧ (decodeEntry 0x00).length = 2 ∧
    (decodeEntry 0x6C).mode = .indirect := by decide

/-! ## Single steps -/

/-- V12: Z comes from the binary sum. -/
theorem test_adc_decimal_zero_from_binary :
    after
      { boot [0x69, 0x01] [] with a := 0x99, p := flags false false true false false false } = some ⟨0x00, 0x00, 0x00, 0xFF, 0x0202, 0xA9, 2⟩ := by decide

/-- V29. -/
theorem test_adc_page_cross :
    after
      { boot [0x7D, 0xF0, 0x12] [(0x1310, 0x01)] with a := 0x01, x := 0x20 } = some ⟨0x02, 0x20, 0x00, 0xFF, 0x0203, 0x20, 5⟩ := by decide

/-- V10. -/
theorem test_sbc_overflow :
    after
      { boot [0xE9, 0xFF] [] with a := 0x7F, p := flags false false false false false true } = some ⟨0x80, 0x00, 0x00, 0xFF, 0x0202, 0xE0, 2⟩ := by decide

/-- V20: the flags stay binary. -/
theorem test_sbc_decimal_borrow :
    after
      { boot [0xE9, 0x21] [] with a := 0x12, p := flags false false true false false true } = some ⟨0x91, 0x00, 0x00, 0xFF, 0x0202, 0xA8, 2⟩ := by decide

/-- V24. -/
theorem test_and :
    after { boot [0x29, 0x0F] [] with a := 0xF0 } = some ⟨0x00, 0x00, 0x00, 0xFF, 0x0202, 0x22, 2⟩ := by decide

/-- V25. -/
theorem test_ora :
    after { boot [0x09, 0x80] [] with a := 0x01 } = some ⟨0x81, 0x00, 0x00, 0xFF, 0x0202, 0xA0, 2⟩ := by decide

/-- V26. -/
theorem test_eor :
    after { boot [0x49, 0xFF] [] with a := 0xFF } = some ⟨0x00, 0x00, 0x00, 0xFF, 0x0202, 0x22, 2⟩ := by decide

/-- V27. -/
theorem test_bit_flags_from_memory :
    after
      { boot [0x24, 0x10] [(0x0010, 0xC0)] with a := 0x01 } = some ⟨0x01, 0x00, 0x00, 0xFF, 0x0202, 0xE2, 3⟩ := by decide

/-- V30. -/
theorem test_asl_accumulator :
    after { boot [0x0A] [] with a := 0x81 } = some ⟨0x02, 0x00, 0x00, 0xFF, 0x0201, 0x21, 2⟩ := by decide

/-- V35. -/
theorem test_asl_memory_one_write :
    after (boot [0x06, 0x10] [(0x0010, 0x40)]) = some ⟨0x00, 0x00, 0x00, 0xFF, 0x0202, 0xA0, 5⟩ ∧
    byteAfter (boot [0x06, 0x10] [(0x0010, 0x40)]) 0x0010 = some 0x80 ∧
    busOf
      (boot [0x06, 0x10] [(0x0010, 0x40)]) = some [.read 0x0200 0x06, .read 0x0201 0x10, .read 0x0010 0x40, .write 0x0010 0x80] := by decide

/-- V31. -/
theorem test_lsr :
    after { boot [0x4A] [] with a := 0x01 } = some ⟨0x00, 0x00, 0x00, 0xFF, 0x0201, 0x23, 2⟩ := by decide

/-- V32. -/
theorem test_rol_carry_in :
    after
      { boot [0x2A] [] with a := 0x80, p := flags false false false false false true } = some ⟨0x01, 0x00, 0x00, 0xFF, 0x0201, 0x21, 2⟩ := by decide

/-- V33. -/
theorem test_ror_carry_in :
    after
      { boot [0x6A] [] with a := 0x01, p := flags false false false false false true } = some ⟨0x80, 0x00, 0x00, 0xFF, 0x0201, 0xA1, 2⟩ := by decide

/-- V36. -/
theorem test_ror_memory :
    after
      { boot [0x7E, 0x34, 0x12] [(0x1235, 0x01)] with x := 0x01 } = some ⟨0x00, 0x01, 0x00, 0xFF, 0x0203, 0x23, 7⟩ ∧
    byteAfter { boot [0x7E, 0x34, 0x12] [(0x1235, 0x01)] with x := 0x01 } 0x1235 = some 0x00 := by decide

/-- V104. -/
theorem test_lda_indexed_indirect_pointer_wraps :
    after
      (boot [0xA1, 0xFF] [(0x00FF, 0x34), (0x0000, 0x12), (0x0100, 0x56), (0x1234, 0x99)]) = some ⟨0x99, 0x00, 0x00, 0xFF, 0x0202, 0xA0, 6⟩ ∧
    busOf
      (boot [0xA1, 0xFF] [(0x00FF, 0x34), (0x0000, 0x12), (0x0100, 0x56), (0x1234, 0x99)]) = some [.read 0x0200 0xA1, .read 0x0201 0xFF, .read 0x00FF 0x34, .read 0x0000 0x12, .read 0x1234 0x99] := by decide

/-- V106. -/
theorem test_lda_indirect_indexed_crosses :
    after
      { boot [0xB1, 0x10] [(0x0010, 0xF8), (0x0011, 0x12), (0x1308, 0x42)] with y := 0x10 } = some ⟨0x42, 0x00, 0x10, 0xFF, 0x0202, 0x20, 6⟩ := by decide

/-- V42. -/
theorem test_ldx_zero_page_y_wraps :
    after
      { boot [0xB6, 0x10] [(0x0005, 0x33)] with y := 0xF5 } = some ⟨0x00, 0x33, 0xF5, 0xFF, 0x0202, 0x20, 4⟩ := by decide

/-- V110 with LDX: the operand byte of an instruction at 0xFFFF is read from 0x0000 (R124). -/
theorem test_ldx_immediate_wraps_address_space :
    after
      { boot [] [(0xFFFF, 0xA2), (0x0000, 0x42)] with pc := 0xFFFF } = some ⟨0x00, 0x42, 0x00, 0xFF, 0x0001, 0x20, 2⟩ := by decide

/-- V51. -/
theorem test_ldy_absolute_x :
    after { boot [0xBC, 0x00, 0x12] [] with x := 0xFF } = some ⟨0x00, 0xFF, 0x00, 0xFF, 0x0203, 0x22, 4⟩ := by decide

/-- V43. -/
theorem test_sta_no_page_cross_cycle :
    after
      { boot [0x9D, 0xF0, 0x12] [] with a := 0x9A, x := 0x20, p := flags true false false false false false } = some ⟨0x9A, 0x20, 0x00, 0xFF, 0x0203, 0xA0, 5⟩ ∧
    byteAfter
      { boot [0x9D, 0xF0, 0x12] [] with a := 0x9A, x := 0x20, p := flags true false false false false false } 0x1310 = some 0x9A := by decide

/-- V45: no data read of the address written. -/
theorem test_sta_indirect_indexed :
    after
      { boot [0x91, 0x10] [(0x0010, 0xFF), (0x0011, 0x20)] with a := 0x5A, y := 0x01 } = some ⟨0x5A, 0x00, 0x01, 0xFF, 0x0202, 0x20, 6⟩ ∧
    busOf
      { boot [0x91, 0x10] [(0x0010, 0xFF), (0x0011, 0x20)] with a := 0x5A, y := 0x01 } = some [.read 0x0200 0x91, .read 0x0201 0x10, .read 0x0010 0xFF, .read 0x0011 0x20, .write 0x2100 0x5A] := by decide

/-- V44. -/
theorem test_stx_zero_page_y_wraps :
    after { boot [0x96, 0xFF] [] with x := 0x44, y := 0x02 } = some ⟨0x00, 0x44, 0x02, 0xFF, 0x0202, 0x20, 4⟩ ∧
    byteAfter { boot [0x96, 0xFF] [] with x := 0x44, y := 0x02 } 0x0001 = some 0x44 := by decide

/-- V52. -/
theorem test_sty :
    after { boot [0x84, 0x10] [] with y := 0xC3 } = some ⟨0x00, 0x00, 0xC3, 0xFF, 0x0202, 0x20, 3⟩ ∧
    byteAfter { boot [0x84, 0x10] [] with y := 0xC3 } 0x0010 = some 0xC3 := by decide

/-- V46. -/
theorem test_tax :
    after { boot [0xAA] [] with x := 0x11 } = some ⟨0x00, 0x00, 0x00, 0xFF, 0x0201, 0x22, 2⟩ := by decide

/-- V50. -/
theorem test_tay :
    after { boot [0xA8] [] with y := 0x07 } = some ⟨0x00, 0x00, 0x00, 0xFF, 0x0201, 0x22, 2⟩ := by decide

/-- V50. -/
theorem test_txa :
    after { boot [0x8A] [] with x := 0x81 } = some ⟨0x81, 0x81, 0x00, 0xFF, 0x0201, 0xA0, 2⟩ := by decide

/-- V49. -/
theorem test_tya :
    after { boot [0x98] [] with y := 0x80 } = some ⟨0x80, 0x00, 0x80, 0xFF, 0x0201, 0xA0, 2⟩ := by decide

/-- V47. -/
theorem test_tsx :
    after (boot [0xBA] []) = some ⟨0x00, 0xFF, 0x00, 0xFF, 0x0201, 0xA0, 2⟩ := by decide

/-- V48. -/
theorem test_txs_no_flags :
    after
      { boot [0x9A] [] with p := flags true false false false false false } = some ⟨0x00, 0x00, 0x00, 0x00, 0x0201, 0xA0, 2⟩ := by decide

/-- V53. -/
theorem test_cmp_equal :
    after { boot [0xC9, 0x40] [] with a := 0x40 } = some ⟨0x40, 0x00, 0x00, 0xFF, 0x0202, 0x23, 2⟩ := by decide

/-- V55. -/
theorem test_cmp_unsigned :
    after { boot [0xC9, 0x01] [] with a := 0x80 } = some ⟨0x80, 0x00, 0x00, 0xFF, 0x0202, 0x21, 2⟩ := by decide

/-- V57. -/
theorem test_cpx :
    after { boot [0xE0, 0x10] [] with x := 0x20 } = some ⟨0x00, 0x20, 0x00, 0xFF, 0x0202, 0x21, 2⟩ := by decide

/-- V58. -/
theorem test_cpy :
    after
      { boot [0xC4, 0x10] [(0x0010, 0x06)] with y := 0x05 } = some ⟨0x00, 0x00, 0x05, 0xFF, 0x0202, 0xA0, 3⟩ := by decide

/-- V59, with C set: INC has no carry effect (R172). -/
theorem test_inc_keeps_carry :
    after
      { boot [0xE6, 0x10] [(0x0010, 0xFF)] with p := flags false false false false false true } = some ⟨0x00, 0x00, 0x00, 0xFF, 0x0202, 0x23, 5⟩ ∧
    byteAfter
      { boot [0xE6, 0x10] [(0x0010, 0xFF)] with p := flags false false false false false true } 0x0010 = some 0x00 := by decide

/-- V60. -/
theorem test_dec :
    after (boot [0xC6, 0x10] []) = some ⟨0x00, 0x00, 0x00, 0xFF, 0x0202, 0xA0, 5⟩ ∧
    byteAfter (boot [0xC6, 0x10] []) 0x0010 = some 0xFF := by decide

/-- V62. -/
theorem test_inx :
    after { boot [0xE8] [] with x := 0xFF } = some ⟨0x00, 0x00, 0x00, 0xFF, 0x0201, 0x22, 2⟩ := by decide

/-- V63. -/
theorem test_iny :
    after { boot [0xC8] [] with y := 0x7F } = some ⟨0x00, 0x00, 0x80, 0xFF, 0x0201, 0xA0, 2⟩ := by decide

/-- V64. -/
theorem test_dex :
    after { boot [0xCA] [] with x := 0x01 } = some ⟨0x00, 0x00, 0x00, 0xFF, 0x0201, 0x22, 2⟩ := by decide

/-- V65. -/
theorem test_dey :
    after (boot [0x88] []) = some ⟨0x00, 0x00, 0xFF, 0xFF, 0x0201, 0xA0, 2⟩ := by decide

/-- V67. -/
theorem test_bne_taken :
    after (boot [0xD0, 0x05] []) = some ⟨0x00, 0x00, 0x00, 0xFF, 0x0207, 0x20, 3⟩ := by decide

/-- V66. -/
theorem test_bne_not_taken :
    after
      { boot [0xD0, 0x05] [] with p := flags false false false false true false } = some ⟨0x00, 0x00, 0x00, 0xFF, 0x0202, 0x22, 2⟩ := by decide

/-- V68. -/
theorem test_beq_backwards_other_page :
    after
      { boot [0xF0, 0xFC] [] with p := flags false false false false true false } = some ⟨0x00, 0x00, 0x00, 0xFF, 0x01FE, 0x22, 4⟩ := by decide

/-- V69, X8. -/
theorem test_bcc_offset_80 :
    after (boot [0x90, 0x80] []) = some ⟨0x00, 0x00, 0x00, 0xFF, 0x0182, 0x20, 4⟩ := by decide

/-- V70, X8. -/
theorem test_bcc_same_page :
    after
      { boot [] [(0x0280, 0x90), (0x0281, 0x7D)] with pc := 0x0280 } = some ⟨0x00, 0x00, 0x00, 0xFF, 0x02FF, 0x20, 3⟩ := by decide

/-- V71. -/
theorem test_bpl_not_taken :
    after
      { boot [0x10, 0x10] [] with p := flags true false false false false false } = some ⟨0x00, 0x00, 0x00, 0xFF, 0x0202, 0xA0, 2⟩ := by decide

/-- V72. -/
theorem test_bmi_taken :
    after
      { boot [0x30, 0x10] [] with p := flags true false false false false false } = some ⟨0x00, 0x00, 0x00, 0xFF, 0x0212, 0xA0, 3⟩ := by decide

/-- V73. -/
theorem test_bvc_taken :
    after (boot [0x50, 0x10] []) = some ⟨0x00, 0x00, 0x00, 0xFF, 0x0212, 0x20, 3⟩ := by decide

/-- V74. -/
theorem test_bvs_not_taken :
    after (boot [0x70, 0x10] []) = some ⟨0x00, 0x00, 0x00, 0xFF, 0x0202, 0x20, 2⟩ := by decide

/-- V75. -/
theorem test_bcs_taken :
    after
      { boot [0xB0, 0x10] [] with p := flags false false false false false true } = some ⟨0x00, 0x00, 0x00, 0xFF, 0x0212, 0x21, 3⟩ := by decide

/-- V76. -/
theorem test_jmp_absolute :
    after (boot [0x4C, 0x34, 0x12] []) = some ⟨0x00, 0x00, 0x00, 0xFF, 0x1234, 0x20, 3⟩ := by decide

/-- V78, X7. -/
theorem test_jmp_indirect_page_wrap :
    after
      (boot [0x6C, 0xFF, 0x30] [(0x30FF, 0x80), (0x3000, 0x50), (0x3100, 0x40)]) = some ⟨0x00, 0x00, 0x00, 0xFF, 0x5080, 0x20, 5⟩ := by decide

/-- V79. -/
theorem test_jsr :
    after (boot [0x20, 0x34, 0x12] []) = some ⟨0x00, 0x00, 0x00, 0xFD, 0x1234, 0x20, 6⟩ ∧
    busOf
      (boot [0x20, 0x34, 0x12] []) = some [.read 0x0200 0x20, .read 0x0201 0x34, .read 0x0202 0x12, .write 0x01FF 0x02, .write 0x01FE 0x02] := by decide

/-- V80. -/
theorem test_rts :
    after
      { boot [0x60] [(0x01FE, 0x02), (0x01FF, 0x03)] with s := 0xFD } = some ⟨0x00, 0x00, 0x00, 0xFF, 0x0303, 0x20, 6⟩ := by decide

/-- V88. -/
theorem test_pha_wraps :
    after { boot [0x48] [] with a := 0x77, s := 0x00 } = some ⟨0x77, 0x00, 0x00, 0xFF, 0x0201, 0x20, 3⟩ ∧
    byteAfter { boot [0x48] [] with a := 0x77, s := 0x00 } 0x0100 = some 0x77 := by decide

/-- V82. -/
theorem test_php_sets_break_and_unused :
    after
      { boot [0x08] [] with p := flags true false false false false true } = some ⟨0x00, 0x00, 0x00, 0xFE, 0x0201, 0xA1, 3⟩ ∧
    byteAfter { boot [0x08] [] with p := flags true false false false false true } 0x01FF = some 0xB1 := by decide

/-- V89. -/
theorem test_pla_wraps :
    after (boot [0x68] [(0x0100, 0x66)]) = some ⟨0x66, 0x00, 0x00, 0x00, 0x0201, 0x20, 4⟩ := by decide

/-- V84. -/
theorem test_pla_zero :
    after { boot [0x68] [] with s := 0xFE, a := 0x05 } = some ⟨0x00, 0x00, 0x00, 0xFF, 0x0201, 0x22, 4⟩ := by decide

/-- V86. -/
theorem test_plp_all_ones :
    after { boot [0x28] [(0x01FF, 0xFF)] with s := 0xFE } = some ⟨0x00, 0x00, 0x00, 0xFF, 0x0201, 0xFF, 4⟩ := by decide

/-- V87: the pulled 00 leaves U at 1. -/
theorem test_plp_ignores_bit_5 :
    after
      { boot [0x28] [] with s := 0xFE, p := flags true false false false false true } = some ⟨0x00, 0x00, 0x00, 0xFF, 0x0201, 0x20, 4⟩ := by decide

/-- V90. -/
theorem test_clc :
    after
      { boot [0x18] [] with p := flags false false false false false true } = some ⟨0x00, 0x00, 0x00, 0xFF, 0x0201, 0x20, 2⟩ := by decide

/-- V91. -/
theorem test_sec :
    after (boot [0x38] []) = some ⟨0x00, 0x00, 0x00, 0xFF, 0x0201, 0x21, 2⟩ := by decide

/-- V92. -/
theorem test_cli :
    after
      { boot [0x58] [] with p := flags false false false true false false } = some ⟨0x00, 0x00, 0x00, 0xFF, 0x0201, 0x20, 2⟩ := by decide

/-- V93. -/
theorem test_sei :
    after (boot [0x78] []) = some ⟨0x00, 0x00, 0x00, 0xFF, 0x0201, 0x24, 2⟩ := by decide

/-- V94. -/
theorem test_clv :
    after
      { boot [0xB8] [] with p := flags false true false false false false } = some ⟨0x00, 0x00, 0x00, 0xFF, 0x0201, 0x20, 2⟩ := by decide

/-- V95. -/
theorem test_cld :
    after
      { boot [0xD8] [] with p := flags false false true false false false } = some ⟨0x00, 0x00, 0x00, 0xFF, 0x0201, 0x20, 2⟩ := by decide

/-- V96. -/
theorem test_sed :
    after (boot [0xF8] []) = some ⟨0x00, 0x00, 0x00, 0xFF, 0x0201, 0x28, 2⟩ := by decide

/-- X3, V97: status byte 30, then 02 and 04, on the stack. -/
theorem test_brk :
    after { boot [] [(0xFFFF, 0x05)] with pc := 0x0400 } = some ⟨0x00, 0x00, 0x00, 0xFC, 0x0500, 0x24, 7⟩ ∧
    busOf
      { boot [] [(0xFFFF, 0x05)] with pc := 0x0400 } = some [.read 0x0400 0x00, .write 0x01FF 0x04, .write 0x01FE 0x02, .write 0x01FD 0x30, .read 0xFFFE 0x00, .read 0xFFFF 0x05] := by decide

/-- V98: no + 1. -/
theorem test_rti :
    after
      { boot [0x40] [(0x01FD, 0xC3), (0x01FE, 0x34), (0x01FF, 0x12)] with s := 0xFC } = some ⟨0x00, 0x00, 0x00, 0xFF, 0x1234, 0xE3, 6⟩ := by decide

/-- X4, V99. -/
theorem test_nop :
    after
      { boot [0xEA] [] with a := 0x01, x := 0x02, y := 0x03 } = some ⟨0x01, 0x02, 0x03, 0xFF, 0x0201, 0x20, 2⟩ ∧
    busOf { boot [0xEA] [] with a := 0x01, x := 0x02, y := 0x03 } = some [.read 0x0200 0xEA] := by decide

/-- V100: the report names the byte and its own address, and the bus shows `R 0200 02` only. -/
theorem test_undefined_report :
    fault? (step (boot [0x02] [])) =
      some (.illegalOpcode 0x02 0x0200 { boot [0x02] [] with history := [.read 0x0200 0x02] }) := by decide

/-- V101: the step repeated gives the same report. Its own opcode read joins the history. -/
theorem test_undefined_report_repeats :
    hostStep (hostStep (boot [0x02] [])).2 =
      (.illegalOpcode 0x02 0x0200, { boot [0x02] [] with history := [.read 0x0200 0x02, .read 0x0200 0x02] }) := by decide

/-- V102: under `Nop` the nominal three bytes are read and skipped. -/
theorem test_undefined_nop :
    (next? (step { boot [0x0C, 0x34, 0x12] [] with params := { Params.default with undefinedPolicy := .nop } })).map (fun t => (t.pc, t.history.reverse)) =
      some (0x0203, [.read 0x0200 0x0C, .read 0x0201 0x34, .read 0x0202 0x12]) := by decide

/-! ## Interrupts and reset -/

/-- The start of V111. -/
def pending : State :=
  assertNmi (setIrq true { boot [] [(0xFFFF, 0x05), (0xFFFB, 0x06)] with
    pc := 0x0234, p := flags false false false false false true })

/-- V111: the NMI first, with the pushed status 31. -/
theorem test_nmi_before_irq :
    after pending = some ⟨0x00, 0x00, 0x00, 0xFC, 0x0500, 0x25, 7⟩ ∧
    busOf pending = some [.write 0x01FF 0x02, .write 0x01FE 0x34, .write 0x01FD 0x31, .read 0xFFFE 0x00,
      .read 0xFFFF 0x05] ∧
    (next? (step pending)).map (fun t => (t.nmiPending, t.irqLine)) = some (false, true) := by decide

/-- V112, V113: `INT_PUSH_B` is bit 4 of the pushed status; `NMI_VECTOR` is where the target comes from. -/
theorem test_interrupt_parameters :
    byteAfter { pending with params := { Params.default with intPushB := false } } 0x01FD = some 0x21 ∧
    (next? (step { pending with params := { Params.default with nmiVector := 0xFFFA } })).map State.pc =
      some 0x0600 := by decide

/-- V116 and V115: an IRQ is taken with I = 0 and not with I = 1. -/
theorem test_irq_masked_by_i :
    after (setIrq true { boot [0xEA] [(0xFFFF, 0x05)] with p := flags false false false false false true }) =
      some ⟨0x00, 0x00, 0x00, 0xFC, 0x0500, 0x25, 7⟩ ∧
    after (setIrq true { boot [0xEA] [(0xFFFF, 0x05)] with p := flags false false false true false false }) =
      some ⟨0x00, 0x00, 0x00, 0xFF, 0x0201, 0x24, 2⟩ := by decide

/-- A power-on state with registers that are not zero, and the reset vector 0x0400. -/
def powered : State :=
  State.powerOn 0x11 0x22 0x33 0x44 0x5566 (flags true true true false true true) [(0xFFFD, 0x04)] Params.default

/-- X2, V118. -/
theorem test_reset_vector :
    hostReset powered = { powered with
      pc := 0x0400
      s := 0xFF
      p := flags true true true true true true
      fsm := .ready
      history := [.read 0xFFFD 0x04, .read 0xFFFC 0x00] } := by decide

/-- V117. -/
theorem test_step_before_reset : (hostStep powered).1 = .notReset ∧ (hostStep powered).2 = powered := by decide

/-- `withFetchWord` places exactly the instruction that the next step runs. -/
theorem test_withFetchWord :
    (next? (step (State.reset.withFetchWord 16 0x42A9))).map (fun t => (t.a, t.pc)) = some (0x42, 0x0002) := by decide

/-! ## Witnesses: a state and operands that meet every hypothesis of a statement together -/

/-- In a state whose only device window is 0xD000 to 0xD0FF. -/
theorem ordinary_of_list {s : State} {ws : List Word} (h : (ws.all fun w => s.deviceAt w == none) = true) : Ordinary s ws := by
  intro w hw
  simpa using List.all_eq_true.mp h w hw

/-- Fetching, as a condition on four fields. -/
theorem fetches_of_fields {s : State} (h1 : s.fsm = .ready) (h2 : s.nmiPending = false)
    (h3 : s.irqLine = false ∨ s.p.i = true) : Fetches s := by
  refine ⟨h1, fun h => ?_⟩
  rcases h with h | ⟨h, k⟩
  · simp [h2] at h
  · rcases h3 with h3 | h3 <;> simp_all

/-- An address in the window is not ordinary, so the premise is a real condition. -/
theorem witness_window_is_not_ordinary : (boot [] []).deviceAt 0xD0FF = some 7 ∧ (boot [] []).deviceAt 0xD100 = none := by
  decide

theorem witness_HostResetSetsResetState :
    Ordinary powered [0xFFFC, 0xFFFD] ∧ plainWord powered 0xFFFC 0xFFFD = 0x0400 :=
  ⟨ordinary_of_list (by decide), by decide⟩

theorem witness_SecondResetChangesNothing : Ordinary (boot [] [(0xFFFD, 0x02)]) [0xFFFC, 0xFFFD] :=
  ordinary_of_list (by decide)

theorem witness_StepBeforeResetReportsNotReset : powered.fsm = .powerOn := rfl

/-- An instruction whose bytes wrap from 0xFFFF to 0x0001. -/
theorem witness_StepRunsTheInstructionAtPc :
    let s : State := { boot [] [(0xFFFF, 0x7D), (0x0000, 0xF0), (0x0001, 0x12)] with pc := 0xFFFF }
    Fetches s ∧ Ordinary s (fetchAddrs s) ∧
      decode [plainByte s s.pc, plainByte s (s.pc + 1), plainByte s (s.pc + 2)] = .ok (.adc (.mem (.absx 0x12F0))) [] :=
  ⟨fetches_of_fields rfl rfl (.inl rfl), ordinary_of_list (by decide), by decide⟩

/-- One state for each of the three clauses; the third clause in both its ways. -/
theorem witness_InterruptCheckOrder :
    (pending.fsm = .ready ∧ pending.nmiPending = true) ∧
    (let s := setIrq true (boot [] [])
     s.fsm = .ready ∧ s.nmiPending = false ∧ s.irqLine = true ∧ s.p.i = false) ∧
    (let s := boot [] []
     s.fsm = .ready ∧ s.nmiPending = false ∧ s.irqLine = false) ∧
    (let s := setIrq true State.reset
     s.fsm = .ready ∧ s.nmiPending = false ∧ s.irqLine = true ∧ s.p.i = true) := by decide

/-- The stack pointer at 0x01, so that the third push wraps, and a vector whose second byte wraps to 0x0000. -/
theorem witness_InterruptEntrySavesAndVectors :
    let s : State := { boot [] [] with s := 0x01 }
    Ordinary s [stackAddr s.s, stackAddr (s.s - 1), stackAddr (s.s - 2), 0xFFFF, 0xFFFF + 1] ∧
      stackAddr (s.s - 2) = 0x01FF ∧ (0xFFFF : Word) + 1 = 0x0000 :=
  ⟨ordinary_of_list (by decide), by decide, by decide⟩

/-- V120: an `s` and, for each of the four instructions, a next state; PLP and RTI pull a byte with I = 0. -/
theorem witness_InterruptMaskActsAtNextBoundary :
    let s := setIrq true { boot [] [] with s := 0xF0, p := flags false false false true false false }
    s.fsm = .ready ∧ s.nmiPending = false ∧ s.irqLine = true ∧
      (next? (exec .cli s)).map (fun t => t.p.i) = some false ∧
      (next? (exec .sei s)).map (fun t => t.p.i) = some true ∧
      (next? (exec .plp s)).map (fun t => t.p.i) = some false ∧
      (next? (exec .rti s)).map (fun t => t.p.i) = some false := by decide

/-- V107's pointer, which wraps within page 0, with a page cross: the hardest operand of the reads. -/
def readState : State := { boot [] [(0x00FF, 0xF8), (0x0000, 0x12), (0x1308, 0x42), (0x1300, 0x55)] with y := 0x10, x := 0x02 }

/-- The premise of AdcAddsOperandAndCarry, SbcSubtractsOperandAndBorrow, LogicSetsAccumulatorNegativeZero,
LoadsSetRegisterNegativeZero and ComparesSetNegativeZeroCarry. -/
theorem witness_ReadsOperand :
    Ordinary readState (operandAddrs (.mem (.indy 0xFF)) readState) ∧
      operandByte (.mem (.indy 0xFF)) readState = 0x42 ∧ operandCrosses (.mem (.indy 0xFF)) readState = true ∧
    Ordinary readState (operandAddrs (.imm 0x07) readState) ∧ operandByte (.imm 0x07) readState = 0x07 ∧
    Ordinary readState (operandAddrs (.mem (.absx 0xFFFE)) readState) ∧
      operandByte (.mem (.absx 0xFFFE)) readState = 0x12 :=
  ⟨ordinary_of_list (by decide), by decide, by decide, ordinary_of_list (by decide), by decide,
    ordinary_of_list (by decide), by decide⟩

theorem witness_AdcAddsOperandAndCarry : Ordinary readState (operandAddrs (.mem (.indx 0xFD)) readState) ∧
    operandByte (.mem (.indx 0xFD)) readState = plainByte readState 0x12F8 :=
  ⟨ordinary_of_list (by decide), by decide⟩

theorem witness_BitTestsMemoryAgainstAccumulator :
    Ordinary readState (memAddrs (.abs 0x1308) readState) ∧ plainByte readState (effAddr (.abs 0x1308) readState) = 0x42 :=
  ⟨ordinary_of_list (by decide), by decide⟩

theorem witness_DecimalAddMeetsDecimalSum : ValidBcd 0x99 ∧ ValidBcd 0x00 ∧ ¬ ValidBcd 0x0A ∧ ¬ ValidBcd 0xA0 := by
  unfold ValidBcd; decide

theorem witness_DecimalSubMeetsDecimalDifference : ValidBcd 0x00 ∧ ValidBcd 0x99 := by
  unfold ValidBcd; decide

/-- The premise of StoresWriteRegister (STA, STX, STY): a pointer form, and the wrapped zero page form. -/
theorem witness_StoresByte :
    Ordinary readState (memAddrs (.indy 0xFF) readState) ∧ effAddr (.indy 0xFF) readState = 0x1308 ∧
    Ordinary readState (memAddrs (.zpx 0xFF) readState) ∧ effAddr (.zpx 0xFF) readState = 0x0001 :=
  ⟨ordinary_of_list (by decide), by decide, ordinary_of_list (by decide), by decide⟩

/-- The premise of ShiftsAndRotates and IncDecModifyMemory. -/
theorem witness_ModifiesByte :
    Ordinary readState (memAddrs (.absx 0xFFFE) readState) ∧ effAddr (.absx 0xFFFE) readState = 0x0000 ∧
      plainByte readState 0x0000 = 0x12 :=
  ⟨ordinary_of_list (by decide), by decide, by decide⟩

/-- Taken and not taken for each flag; a taken branch within the page and one out of it. -/
theorem witness_BranchesFollowTheirFlag :
    (boot [] []).p.n = false ∧ (boot [] []).p.v = false ∧ (boot [] []).p.c = false ∧ (boot [] []).p.z = false ∧
    (flags true true false false true true).n = true ∧ (flags true true false false true true).v = true ∧
    (flags true true false false true true).c = true ∧ (flags true true false false true true).z = true ∧
    hiByte ((0x0282 : Word) + (0x7D : Byte).signExtend 16) = hiByte (0x0282 : Word) ∧
    hiByte ((0x0202 : Word) + (0x80 : Byte).signExtend 16) ≠ hiByte (0x0202 : Word) := by decide

theorem witness_JumpSetsPc :
    let s := boot [] [(0x30FF, 0x80), (0x3000, 0x50)]
    Ordinary s [0x30FF, wordOf (hiByte 0x30FF) (loByte 0x30FF + 1)] ∧
      plainWord s 0x30FF (wordOf (hiByte 0x30FF) (loByte 0x30FF + 1)) = 0x5080 :=
  ⟨ordinary_of_list (by decide), by decide⟩

/-- `S` at its wrap. -/
def stackState : State := { boot [] [(0x0100, 0x66), (0x0101, 0x77), (0x01FF, 0x88)] with s := 0x00, pc := 0x0203 }

theorem witness_JsrPushesReturnAddress :
    Ordinary stackState [stackAddr stackState.s, stackAddr (stackState.s - 1)] ∧ stackAddr (stackState.s - 1) = 0x01FF :=
  ⟨ordinary_of_list (by decide), by decide⟩

theorem witness_RtsReturnsPastPulledWord :
    let s : State := { stackState with s := 0xFE }
    Ordinary s [stackAddr (s.s + 1), stackAddr (s.s + 2)] ∧ stackAddr (s.s + 2) = 0x0100 :=
  ⟨ordinary_of_list (by decide), by decide⟩

theorem witness_RtsAfterJsrReturns :
    Ordinary stackState [stackAddr stackState.s, stackAddr (stackState.s - 1)] ∧
      ∃ t, exec (.jsr 0x1234) stackState = .next t ∧ t.pc = 0x1234 :=
  ⟨ordinary_of_list (by decide), _, rfl, rfl⟩

theorem witness_PushesWriteStack : Ordinary stackState [stackAddr stackState.s] := ordinary_of_list (by decide)

theorem witness_PullsReadStack :
    let s : State := { stackState with s := 0xFF }
    Ordinary s [stackAddr (s.s + 1)] ∧ plainByte s (stackAddr (s.s + 1)) = 0x66 :=
  ⟨ordinary_of_list (by decide), by decide⟩

theorem witness_PullUndoesPush : Ordinary stackState [stackAddr stackState.s] := ordinary_of_list (by decide)

theorem witness_BrkEntersBreakHandler :
    let s : State := { boot [] [(0xFFFF, 0x05)] with pc := 0x0400 }
    Ordinary s [s.pc] ∧ plainByte s s.pc = 0x00 ∧
      Ordinary s [stackAddr s.s, stackAddr (s.s - 1), stackAddr (s.s - 2), 0xFFFE, 0xFFFE + 1] :=
  ⟨ordinary_of_list (by decide), by decide, ordinary_of_list (by decide)⟩

theorem witness_RtiRestoresStatusAndPc :
    let s : State := { stackState with s := 0xFD }
    Ordinary s [stackAddr (s.s + 1), stackAddr (s.s + 2), stackAddr (s.s + 3)] ∧ stackAddr (s.s + 3) = 0x0100 :=
  ⟨ordinary_of_list (by decide), by decide⟩

theorem witness_RtiAfterEntryRestores :
    Ordinary stackState [stackAddr stackState.s, stackAddr (stackState.s - 1), stackAddr (stackState.s - 2), 0xFFFE,
      0xFFFE + 1] :=
  ordinary_of_list (by decide)

theorem witness_NopAdvancesPcOnly :
    Fetches (boot [0xEA] []) ∧ Ordinary (boot [0xEA] []) [(boot [0xEA] []).pc] ∧
      plainByte (boot [0xEA] []) (boot [0xEA] []).pc = 0xEA :=
  ⟨fetches_of_fields rfl rfl (.inl rfl), ordinary_of_list (by decide), by decide⟩

theorem witness_UndefinedByteIsReported :
    Fetches (boot [0x02] []) ∧ (boot [0x02] []).params.undefinedPolicy = .report ∧
      (decodeEntry (busRead (boot [0x02] []).pc (boot [0x02] [])).1).defined = false ∧
      Ordinary (boot [0x02] []) [(boot [0x02] []).pc] :=
  ⟨fetches_of_fields rfl rfl (.inl rfl), by decide, by decide, ordinary_of_list (by decide)⟩

/-- A step that reports leaves a state, in which it has made one access. -/
theorem witness_Leaves_report :
    ∃ t, Leaves (boot [0x02] []) t ∧ Inv (boot [0x02] []) ∧ (∀ u, step (boot [0x02] []) ≠ .next u) ∧ t.history.length = 1 :=
  have h : step (boot [0x02] []) =
      .fault (.illegalOpcode 0x02 0x0200 { boot [0x02] [] with history := [.read 0x0200 0x02] }) := rfl
  ⟨_, .inr ⟨_, _, h⟩, ⟨rfl, by decide⟩, fun _ e => (by rw [h] at e; cases e), rfl⟩

/-- The longest nominal length and the shortest. -/
theorem witness_UndefinedByteIsSkipped :
    let policy : Params := { Params.default with undefinedPolicy := .nop }
    let s : State := { boot [0x0C, 0x34, 0x12] [] with params := policy }
    let r : State := { boot [0x02] [] with params := policy }
    (decodeEntry (busRead s.pc s).1).defined = false ∧
    (Fetches s ∧ s.params.undefinedPolicy = .nop ∧ (decodeEntry (plainByte s s.pc)).defined = false ∧
      Ordinary s (consecutive s.pc (decodeEntry (plainByte s s.pc)).length) ∧
      (decodeEntry (plainByte s s.pc)).length = 3) ∧
    (Fetches r ∧ r.params.undefinedPolicy = .nop ∧ (decodeEntry (plainByte r r.pc)).defined = false ∧
      Ordinary r (consecutive r.pc (decodeEntry (plainByte r r.pc)).length) ∧
      (decodeEntry (plainByte r r.pc)).length = 1) :=
  ⟨by decide, ⟨fetches_of_fields rfl rfl (.inl rfl), rfl, by decide, ordinary_of_list (by decide), by decide⟩,
    fetches_of_fields rfl rfl (.inl rfl), rfl, by decide, ordinary_of_list (by decide), by decide⟩

theorem witness_WrittenByteReadsBack : (boot [] []).deviceAt 0x1234 = none ∧ (boot [] []).deviceAt 0xFFFF = none := by decide

theorem witness_WordReadsWrap :
    Ordinary readState [0xFFFF, 0xFFFF + 1] ∧ Ordinary readState [zext 0xFF, zext (0xFF + 1)] ∧
      Ordinary readState [0x30FF, wordOf (hiByte 0x30FF) (loByte 0x30FF + 1)] ∧ zext (0xFF + 1) = 0x0000 ∧
      wordOf (hiByte 0x30FF) (loByte 0x30FF + 1) = 0x3000 :=
  ⟨ordinary_of_list (by decide), ordinary_of_list (by decide), ordinary_of_list (by decide), by decide, by decide⟩

theorem witness_EffectiveAddresses :
    Ordinary readState [((0xFD : Byte) + readState.x).setWidth 16, ((0xFD : Byte) + readState.x + 1).setWidth 16] ∧
      Ordinary readState [(0xFF : Byte).setWidth 16, ((0xFF : Byte) + 1).setWidth 16] :=
  ⟨ordinary_of_list (by decide), ordinary_of_list (by decide)⟩

/-- A step that writes memory and whose every access is ordinary. -/
theorem witness_MemoryIsReplayOfBusWrites :
    (next? (step (boot [0xE6, 0x10] [(0x0010, 0xFF)]))).map (fun t =>
      ((t.history.all fun e => (boot [0xE6, 0x10] []).deviceAt e.addr == none), t.history.length)) = some (true, 4) := by
  decide

/-- Two orders of the same writes, one of which writes a byte that is then cleared, give the same canonical list. -/
theorem witness_CanonicalMemoriesEqualIfReadAlike :
    let m := memWriteAll [] [(0x0010, 0x01), (0x0200, 0x02)]
    let n := memWriteAll [] [(0x0200, 0x02), (0x0300, 0x03), (0x0010, 0x01), (0x0300, 0x00)]
    Memory.wf m = true ∧ Memory.wf n = true ∧ m = n ∧ Memory.wf [(0x0010, 0x00)] = false ∧ Memory.wf [(2, 1), (1, 1)] = false ∧
      Memory.wf [(65536, 1)] = false := by decide

theorem witness_DecodeOfEncodeIsSame :
    Instr.wf (.jmp (.ind 0xFFFF)) = true ∧ Instr.wf (.sta (.absy 0xFFFF)) = true ∧ Instr.wf (.undefined 0xFF) = true := by
  decide

theorem witness_DecodedBytesReencode :
    decode [0x6C, 0xFF, 0x30, 0x07] = .ok (.jmp (.ind 0x30FF)) [0x07] ∧ Instr.jmp (.ind 0x30FF) ≠ .brk ∧
      ∀ op, Instr.jmp (.ind 0x30FF) ≠ .undefined op :=
  ⟨by decide, nofun, nofun⟩

/-- Each disjunction of operations has its members. -/
theorem witness_CycleCountsByClass :
    (∃ k : ReadOperand → Instr, k = .adc ∨ k = .and ∨ k = .cmp ∨ k = .eor ∨ k = .lda ∨ k = .ora ∨ k = .sbc) ∧
    (∃ k : ReadOperand → Instr, k = .cpx ∨ k = .cpy) ∧
    (∃ k : ShiftOperand → Instr, k = .asl ∨ k = .lsr ∨ k = .rol ∨ k = .ror) ∧
    (∃ k : MemOperand → Instr, k = .inc ∨ k = .dec) :=
  ⟨⟨_, .inl rfl⟩, ⟨_, .inl rfl⟩, ⟨_, .inl rfl⟩, ⟨_, .inl rfl⟩⟩

theorem reset_inv : Inv State.reset := ⟨rfl, rfl⟩

theorem witness_StepKeepsInvariant :
    Inv (boot [0x48] []) ∧ ∃ t, step (boot [0x48] []) = .next t ∧ memRead t.mem 0x01FF = 0x00 :=
  ⟨⟨rfl, by decide⟩, _, rfl, by decide⟩

theorem witness_OfficialInstructionsNeverFail : ∀ op, Instr.nop ≠ .undefined op := nofun

/-- For each clause an instruction that does change the flag. -/
theorem witness_FlagsChangeOnlyByTheirWriters :
    let s : State := { boot [] [(0x0100, 0xFF)] with a := 0xFF }
    (next? (exec .tax s)).map (fun t => t.p.n) = some true ∧ s.p.n = false ∧
    (next? (exec (.lda (.imm 0x00)) s)).map (fun t => t.p.z) = some true ∧ s.p.z = false ∧
    (next? (exec .plp s)).map (fun t => t.p.b) = some true ∧ s.p.b = false ∧
    (next? (exec .sed s)).map (fun t => t.p.d) = some true ∧ s.p.d = false ∧
    (next? (exec .sei s)).map (fun t => t.p.i) = some true ∧ s.p.i = false ∧
    (next? (exec (.bit (.abs 0x0100)) s)).map (fun t => t.p.v) = some true ∧ s.p.v = false ∧
    (next? (exec (.adc (.imm 0x01)) s)).map (fun t => t.p.c) = some true ∧ s.p.c = false := by decide

theorem witness_RegistersChangeOnlyByTheirWriters :
    let s : State := { boot [] [] with a := 0x01, s := 0x80 }
    (next? (exec (.lda (.imm 0x07)) s)).map State.a = some 0x07 ∧ (next? (exec .tax s)).map State.x = some 0x01 ∧
      (next? (exec .dey s)).map State.y = some 0xFF ∧ (next? (exec .pha s)).map State.s = some 0x7F := by decide

theorem witness_PcChangesOnlyByControlTransfer :
    (next? (exec (.bne 0x05) (boot [] []))).map State.pc = some 0x0205 ∧ (boot [] []).pc = 0x0200 := by decide

/-- A step that takes the NMI and one that does not. -/
theorem witness_HostInputsChangeOnlyByHost :
    pending.nmiPending = true ∧ (next? (step pending)).map State.nmiPending = some false ∧
      (next? (step (boot [0xEA] []))).map State.nmiPending = some false := by decide

/-- The fewest accesses and many. -/
theorem witness_StepMakesBoundedBusAccesses :
    (next? (step (boot [0xEA] []))).map (fun t => t.history.length) = some 1 ∧
      (next? (step (boot [0x00] []))).map (fun t => t.history.length) = some 6 := by decide

/-- `free_run()` runs a NOP and stops at the undefined byte after it. -/
theorem witness_FreeRunStopsAtARepeatingReport :
    (freeRun 5 (boot [0xEA, 0x02] [])).1 = some (.illegalOpcode 0x02 0x0201) ∧
      (freeRun 5 (boot [0xEA, 0x02] [])).2.pc = 0x0201 ∧
      (freeRun 5 (boot [0xEA, 0x02] [])).2.deviceAt 0x0201 = none ∧
      freeRun 5 powered = (some .notReset, powered) := by decide

end Sys2Proof.Tests
end

section
/-! PROOFS. The state's statements (10_state.md): the status byte, the reset state, which instructions write which register and
flag, and that the live B flag influences nothing but itself. -/

namespace Sys2Proof.Machine

open Sys2Proof.Claims

/-! ## The status byte -/

theorem flagBit_getElem (f : Bool) (k : Nat) {j : Nat} (hj : j < 8) : (flagBit f k)[j] = (f && decide (j = k)) := by
  cases f with
  | false => simp [flagBit]
  | true => exact BitVec.getElem_twoPow hj

/-- The bits of `PackP` (R42). -/
theorem packP_getLsbD (b : Bool) (p : Status) :
    let q := packP b p
    q.getLsbD 7 = p.n ∧ q.getLsbD 6 = p.v ∧ q.getLsbD 5 = true ∧ q.getLsbD 4 = b ∧ q.getLsbD 3 = p.d ∧
      q.getLsbD 2 = p.i ∧ q.getLsbD 1 = p.z ∧ q.getLsbD 0 = p.c := by
  simp [packP, flagBit_getElem]

/-- Unpacking a packed status restores every flag but B, which is the forced bit. -/
theorem unpackP_packP (b : Bool) (p : Status) : unpackP (packP b p) = { p with b := b } := by
  obtain ⟨hn, hv, -, hb, hd, hi, hz, hc⟩ := packP_getLsbD b p
  simp only [unpackP, hn, hv, hb, hd, hi, hz, hc]

/-- Settles O34, bit by bit. -/
theorem statusByteLayout : Obligations.StatusByteLayout :=
  fun b p _ => ⟨packP_getLsbD b p, rfl, unpackP_packP b p⟩

/-! ## The reset state -/

/-- Settles O3: both sides are closed, and the reset sequence computes to the record of `State.reset`. -/
theorem resetStateIsResetOfZeroPowerOn : Obligations.ResetStateIsResetOfZeroPowerOn :=
  ⟨rfl, rfl, rfl⟩

/-! ## The registers and the flags that each operand shape writes -/

theorem accumulate_registers (i : Instr) (o : ReadOperand) (f : Byte → Byte → Byte) (s : State) :
    let u := accumulate i o f s
    u.x = s.x ∧ u.y = s.y ∧ u.s = s.s ∧ u.p = s.p.setZN (f s.a (loadOperand o s).value) := by
  simp [accumulate]

theorem accumulateCarry_registers (i : Instr) (o : ReadOperand) (f : Bool → Byte → Byte → Bool → AluResult) (s : State) :
    let u := accumulateCarry i o f s
    u.x = s.x ∧ u.y = s.y ∧ u.s = s.s ∧ u.p = s.p.setNVZC (f s.p.d s.a (loadOperand o s).value s.p.c) := by
  simp [accumulateCarry]

theorem compareWith_registers (i : Instr) (o : ReadOperand) (register : State → Byte) (s : State) :
    let u := compareWith i o register s
    u.a = s.a ∧ u.x = s.x ∧ u.y = s.y ∧ u.s = s.s ∧
      u.p = s.p.setNZC (compareBytes (register (loadOperand o s).st) (loadOperand o s).value) := by
  simp [compareWith]

theorem storeRegister_registers (i : Instr) (m : MemOperand) (v : Byte) (s : State) :
    let u := storeRegister i m v s
    u.a = s.a ∧ u.x = s.x ∧ u.y = s.y ∧ u.s = s.s ∧ u.p = s.p := by
  simp [storeRegister]

theorem modifyMem_registers (i : Instr) (m : MemOperand) (f : Byte → Bool → Byte) (flags : Status → Byte → Status)
    (s : State) :
    let u := modifyMem i m f flags s
    u.a = s.a ∧ u.x = s.x ∧ u.y = s.y ∧ u.s = s.s ∧ u.p = flags s.p (loadMem m s).value := by
  simp [modifyMem, loadMem]

theorem branchOn_registers (i : Instr) (cond : Bool) (off : Byte) (s : State) :
    let u := branchOn i cond off s
    u.a = s.a ∧ u.x = s.x ∧ u.y = s.y ∧ u.s = s.s ∧ u.p = s.p := by
  cases cond <;> simp [branchOn]

/-- An undefined byte that goes on, under `Nop`, adds its cycles and does nothing else (R254). -/
theorem exec_undefined_next {op : Byte} {s t : State} (h : exec (.undefined op) s = .next t) :
    t = s.addCycles (Config.undefNopCycles op) := by
  simp only [exec, execUndefined] at h
  split at h
  · cases h
  · cases h; rfl

/-- One case per operand shape serves both statements: what the shape leaves of A, X, Y and S, and the flags its update of `P`
copies. A shift writes A in its accumulator form only. -/
theorem registersAndFlagsChangeOnlyByTheirWriters :
    Obligations.RegistersChangeOnlyByTheirWriters ∧ Obligations.FlagsChangeOnlyByTheirWriters := by
  simp only [Obligations.RegistersChangeOnlyByTheirWriters, Obligations.FlagsChangeOnlyByTheirWriters, ← forall_and]
  intro i s t h
  cases i with
  | adc o | sbc o => cases h; simp [accumulateCarry_registers]
  | and o | ora o | eor o | lda o => cases h; simp [accumulate_registers]
  | cmp o | cpx o | cpy o => cases h; simp [compareWith_registers]
  | asl o | lsr o | rol o | ror o =>
    cases h
    cases o with
    | acc => simp [shiftOperand]
    | mem m => simp [shiftOperand, modifyMem_registers]
  | inc m | dec m => cases h; simp [stepMem, modifyMem_registers]
  | sta m | stx m | sty m => cases h; simp [storeRegister_registers]
  | bpl d | bmi d | bvc d | bvs d | bcc d | bcs d | bne d | beq d => cases h; simp [branchOn_registers]
  | clc | sec | cli | sei | clv | cld | sed => cases h; simp [changeFlags]
  | brk => cases h; simp [enterHandler_registers]
  | rti => cases h; simp [returnFromHandler_registers]
  | undefined op => rw [exec_undefined_next h]; simp
  | bit m | ldx o | ldy o | jmp o | jsr w | tax | tay | txa | tya | tsx | txs | inx | iny | dex | dey | rts | pha | php
  | pla | plp | nop => cases h; simp

/-- Settles O54, by the split over the operand shapes above. -/
theorem registersChangeOnlyByTheirWriters : Obligations.RegistersChangeOnlyByTheirWriters :=
  registersAndFlagsChangeOnlyByTheirWriters.1

/-- Settles O53, by the split over the operand shapes above. -/
theorem flagsChangeOnlyByTheirWriters : Obligations.FlagsChangeOnlyByTheirWriters :=
  registersAndFlagsChangeOnlyByTheirWriters.2

/-! ## The live B flag

Every operation commutes with setting B, since none reads it: the value it answers is the same, and B is carried along. Only
PLP and RTI, which load all of `P`, forget it. -/

section
variable {b : Bool} {s : State}

theorem busRead_withB (w : Word) : busRead w (withB b s) = ((busRead w s).1, withB b (busRead w s).2) := rfl

theorem busWrite_withB (w : Word) (v : Byte) : busWrite w v (withB b s) = withB b (busWrite w v s) := rfl

theorem interruptEntry_withB (vector : Word) :
    interruptEntry vector (withB b s) = withB b (interruptEntry vector s) := rfl

theorem resolve_withB (m : MemOperand) :
    resolve m (withB b s) = ⟨(resolve m s).ea, (resolve m s).crossed, withB b (resolve m s).st⟩ := by
  cases m <;> rfl

theorem resolveJump_withB (o : JumpOperand) :
    resolveJump o (withB b s) = ((resolveJump o s).1, withB b (resolveJump o s).2) := by
  cases o <;> rfl

theorem loadMem_withB (m : MemOperand) :
    loadMem m (withB b s) = ⟨(loadMem m s).value, (loadMem m s).crossed, withB b (loadMem m s).st⟩ := by
  simp only [loadMem, resolve_withB, busRead_withB]

theorem loadOperand_withB (o : ReadOperand) :
    loadOperand o (withB b s) = ⟨(loadOperand o s).value, (loadOperand o s).crossed, withB b (loadOperand o s).st⟩ := by
  cases o with
  | imm v => rfl
  | mem m => exact loadMem_withB m

theorem storeMem_withB (m : MemOperand) (v : Byte) : storeMem m v (withB b s) = withB b (storeMem m v s) := by
  simp only [storeMem, resolve_withB, busWrite_withB]

theorem accumulate_withB (i : Instr) (o : ReadOperand) (f : Byte → Byte → Byte) :
    accumulate i o f (withB b s) = withB b (accumulate i o f s) := by
  simp only [accumulate, loadOperand_withB]
  rfl

theorem accumulateCarry_withB (i : Instr) (o : ReadOperand) (f : Bool → Byte → Byte → Bool → AluResult) :
    accumulateCarry i o f (withB b s) = withB b (accumulateCarry i o f s) := by
  simp only [accumulateCarry, loadOperand_withB]
  rfl

theorem compareWith_withB (i : Instr) (o : ReadOperand) (register : State → Byte)
    (hr : ∀ t, register (withB b t) = register t) :
    compareWith i o register (withB b s) = withB b (compareWith i o register s) := by
  simp only [compareWith, loadOperand_withB, hr]
  rfl

theorem storeRegister_withB (i : Instr) (m : MemOperand) (v : Byte) :
    storeRegister i m v (withB b s) = withB b (storeRegister i m v s) := by
  simp only [storeRegister, storeMem_withB]
  rfl

theorem modifyMem_withB (i : Instr) (m : MemOperand) (f : Byte → Bool → Byte) (flags : Status → Byte → Status)
    (hf : ∀ p x, flags { p with b := b } x = { flags p x with b := b }) :
    modifyMem i m f flags (withB b s) = withB b (modifyMem i m f flags s) := by
  simp only [modifyMem, resolve_withB, busRead_withB]
  simp only [withB, hf]
  rfl

theorem stepMem_withB (i : Instr) (m : MemOperand) (f : Byte → Byte) :
    stepMem i m f (withB b s) = withB b (stepMem i m f s) :=
  modifyMem_withB i m _ _ fun _ _ => rfl

theorem shiftOperand_withB (i : Instr) (o : ShiftOperand) (f : Byte → Bool → AluResult) :
    shiftOperand i o f (withB b s) = withB b (shiftOperand i o f s) := by
  cases o with
  | acc => rfl
  | mem m =>
    simp only [shiftOperand]
    exact modifyMem_withB i m _ _ fun _ _ => rfl

theorem branchOn_withB (i : Instr) (cond : Bool) (off : Byte) :
    branchOn i cond off (withB b s) = withB b (branchOn i cond off s) := by
  cases cond <;> rfl

/-- Every instruction but PLP and RTI carries the live B flag along. -/
theorem exec_withB (i : Instr) (hi : ¬ (i = .plp ∨ i = .rti)) :
    exec i (withB b s) = onLeft (withB b) (exec i s) := by
  cases i with
  | adc o | sbc o => exact congrArg _ (accumulateCarry_withB _ o _)
  | and o | ora o | eor o | lda o => exact congrArg _ (accumulate_withB _ o _)
  | cmp o | cpx o | cpy o => exact congrArg _ (compareWith_withB _ o _ fun _ => rfl)
  | asl o | lsr o | rol o | ror o => exact congrArg _ (shiftOperand_withB _ o _)
  | inc m | dec m => exact congrArg _ (stepMem_withB _ m _)
  | sta m | stx m | sty m => exact congrArg _ (storeRegister_withB _ m _)
  | bpl d | bmi d | bvc d | bvs d | bcc d | bcs d | bne d | beq d => exact congrArg _ (branchOn_withB _ _ d)
  | bit m => simp only [exec, execBit, loadMem_withB]; rfl
  | ldx o => simp only [exec, execLdx, loadOperand_withB]; rfl
  | ldy o => simp only [exec, execLdy, loadOperand_withB]; rfl
  | jmp o => simp only [exec, execJmp, resolveJump_withB]; rfl
  | plp | rti => simp at hi
  | undefined op =>
    simp only [exec, execUndefined, withB]
    cases s.params.undefinedPolicy <;> rfl
  | tax | tay | txa | tya | tsx | txs | inx | iny | dex | dey | jsr w | rts | pha | php | pla | clc | sec | cli | sei
  | clv | cld | sed | brk | nop => rfl

/-- PLP and RTI load the whole of `P` from the stack, so the live B flag before them is forgotten. -/
theorem exec_withB_of_loadsStatus (i : Instr) (hi : i = .plp ∨ i = .rti) : exec i (withB b s) = exec i s := by
  rcases hi with rfl | rfl <;> rfl

theorem onLeft_withB_onLeft_withB (c : Bool) (r : Result) :
    onLeft (withB c) (onLeft (withB b) r) = onLeft (withB c) r := by
  cases r with
  | next t => rfl
  | fault f => cases f <;> rfl
  | refused f => rfl

/-- Up to B an instruction's outcome does not depend on B. -/
theorem onLeft_withB_exec_withB (i : Instr) (c : Bool) :
    onLeft (withB c) (exec i (withB b s)) = onLeft (withB c) (exec i s) := by
  by_cases hi : i = .plp ∨ i = .rti
  · rw [exec_withB_of_loadsStatus i hi]
  · rw [exec_withB i hi, onLeft_withB_onLeft_withB]

theorem fetchBytes_withB (n : Nat) (w : Word) (s : State) :
    fetchBytes n w (withB b s) = ((fetchBytes n w s).1, withB b (fetchBytes n w s).2) := by
  induction n generalizing w s with
  | zero => rfl
  | succ n ih => simp only [fetchBytes, busRead_withB, ih]

theorem fetch_withB : fetch (withB b s) = ⟨(fetch s).instr, withB b (fetch s).st⟩ := by
  have hpc : (withB b s).pc = s.pc := rfl
  have hparams : (withB b s).params = s.params := rfl
  simp only [fetch, hpc, hparams, busRead_withB, fetchBytes_withB]
  rfl

/-- The interrupt check reads `P.I` of the flags, never B. -/
theorem interruptCheck_withB : interruptCheck (withB b s) = (interruptCheck s).map (withB b) := by
  have hclear : (withB b s).clearNmi = withB b s.clearNmi := rfl
  simp only [interruptCheck, hclear, interruptEntry_withB, apply_ite (Option.map (withB b))]
  rfl

end

/-- Settles O58: the fetch and an interrupt entry carry B along, and up to B no instruction's outcome depends on it. -/
theorem breakFlagInfluencesNothing : Obligations.BreakFlagInfluencesNothing := by
  intro b s
  cases hf : s.fsm with
  | powerOn => rw [step_powerOn s hf, step_powerOn (withB b s) hf]
  | ready =>
    rw [step_ready s hf, step_ready (withB b s) hf, interruptCheck_withB, fetch_withB]
    cases interruptCheck s with
    | some t => rfl
    | none => exact onLeft_withB_exec_withB _ _

end Sys2Proof.Machine
end

section
/-! PROOFS. The memory statements (20_memory.md): a write reads back, where the word reads take their bytes, and the bus
accesses of a step: how many they are, and that they are all that changes ordinary memory. -/

namespace Sys2Proof.Machine

open Sys2Proof.Claims

/-! ## Bus writes and word reads -/

/-- Settles O41: outside the device windows the bus write is a memory write and the bus read a memory read. -/
theorem writtenByteReadsBack : Obligations.WrittenByteReadsBack := by
  intro w v s hw
  constructor
  · have hw' : (busWrite w v s).deviceAt w = none := hw
    rw [busRead_ordinary w _ hw', busWrite_ordinary w v s hw]
    exact memRead_memWrite_same s.mem w.toNat v
  · intro k hk
    rw [busWrite_ordinary w v s hw]
    exact memRead_memWrite_other s.mem v (hk w List.mem_cons_self)

/-- What every word read does, whatever answers it: two bus reads, the low byte's first, whose bytes make the word, and no
register changes. -/
theorem readPair_reads (lo hi : Word) (s : State) :
    SameButBus s (readPair lo hi s).2 ∧
      ∃ l h, (readPair lo hi s).1 = wordOf h l ∧
        (readPair lo hi s).2.history = .read hi h :: .read lo l :: s.history :=
  ⟨rfl, _, _, rfl, rfl⟩

/-- Settles O42: each word read is the read of a pair of bytes at the two addresses it names. -/
theorem wordReadsWrap : Obligations.WordReadsWrap := by
  intro w z s second
  obtain ⟨sameWord, readsWord⟩ := readPair_reads w (w + 1) s
  obtain ⟨sameZP, readsZP⟩ := readPair_reads (zext z) (zext (z + 1)) s
  obtain ⟨samePage, readsPage⟩ := readPair_reads w second s
  exact ⟨⟨sameWord, sameZP, samePage⟩, readsWord, readsZP, readsPage,
    readPair_plain _ _ s, readPair_plain _ _ s, readPair_plain _ _ s⟩

/-! ## The bus accesses of a step -/

/-- An interrupt makes the five accesses of an entry. -/
theorem interruptCheck_accesses {s t : State} (h : interruptCheck s = some t) :
    ∃ es, es.length = 5 ∧ Accesses es s t := by
  unfold interruptCheck at h
  split at h
  · cases h
    obtain ⟨es, hl, ha⟩ := enterHandler_accesses s.params.nmiVector s.params.intPushB s.clearNmi
    exact ⟨es, hl, ha.congr rfl rfl rfl rfl rfl rfl⟩
  · split at h
    · cases h
      obtain ⟨es, hl, ha⟩ := enterHandler_accesses irqBrkVector s.params.intPushB s
      exact ⟨es, hl, ha.congr rfl rfl rfl rfl rfl rfl⟩
    · cases h

/-- No instruction is longer than three bytes, so the fetch unit reads at most two after the opcode byte. -/
theorem fetchCount_le_two (op : Byte) (policy : UndefinedPolicy) : fetchCount (decodeEntry op) policy ≤ 2 := by
  have h : ∀ n : Fin 256, fetchCount (decodeEntry (BitVec.ofFin n)) .report ≤ 2 ∧
      fetchCount (decodeEntry (BitVec.ofFin n)) .nop ≤ 2 := by decide +kernel
  cases policy with
  | report => exact (h op.toFin).1
  | nop => exact (h op.toFin).2

/-- The accesses of a step: five of an interrupt entry; or up to three of a fetch and up to five of the instruction; or the one
opcode read of a report. They are all that a step adds to the history, and where no device answers, all that changes memory. -/
theorem leaves_accesses {s t : State} (h : Leaves s t) :
    ∃ es, Accesses es s t ∧ 1 ≤ es.length ∧ es.length ≤ 8 ∧ ((∀ u, step s ≠ .next u) → es.length = 1) := by
  obtain ⟨hready, hint | ⟨hfetches, hexec⟩ | ⟨-, -, -, -, rfl⟩⟩ := leaves_cases s t h
  · have hstep : step s = .next t := by rw [step_ready s hready, hint]
    obtain ⟨es, hl, ha⟩ := interruptCheck_accesses hint
    exact ⟨es, ha, by omega, by omega, fun hno => absurd hstep (hno t)⟩
  · have hstep : step s = .next t := (step_fetches s hfetches).trans hexec
    obtain ⟨fetched, hfl, hfa⟩ := fetch_accesses s
    obtain ⟨executed, hel, hea⟩ := exec_accesses _ _ _ hexec
    have hcount := fetchCount_le_two (busRead s.pc s).1 s.params.undefinedPolicy
    have hl : (executed ++ fetched).length = executed.length + fetched.length := List.length_append
    exact ⟨executed ++ fetched, hfa.trans hea, by omega, by omega, fun hno => absurd hstep (hno t)⟩
  · exact ⟨_, busRead_accesses s.pc s, by simp, by simp, fun _ => rfl⟩

/-- Settles O44: where no device answers, the accesses of a step are all that changes memory. -/
theorem memoryIsReplayOfBusWrites : Obligations.MemoryIsReplayOfBusWrites := by
  intro s t h
  obtain ⟨es, ⟨hhistory, -, hreplay⟩, -⟩ := leaves_accesses h
  exact ⟨es, hhistory, hreplay⟩

/-- Settles O59: the accesses of a step are all that it adds to the history. -/
theorem stepMakesBoundedBusAccesses : Obligations.StepMakesBoundedBusAccesses := by
  intro s t h
  obtain ⟨es, ⟨hhistory, -, -⟩, hbounds⟩ := leaves_accesses h
  exact ⟨es, hhistory, hbounds⟩

end Sys2Proof.Machine
end

section
/-! PROOFS. The statements of the encoding (30_encoding.md): the shape of the decode table, and words written out from the
opcode map. -/

namespace Sys2Proof

open Sys2Proof.Claims

/-! ## The decode table -/

/-- The table has one entry per opcode byte (R105). -/
theorem decodeTable_length : decodeTable.length = 256 := by decide +kernel

/-- The lookup never takes its default. -/
theorem decodeTable_getElem? (op : Byte) : decodeTable[op.toNat]? = some (decodeEntry op) := by
  have hlt : op.toNat < decodeTable.length := by rw [decodeTable_length]; exact op.isLt
  rw [decodeEntry, List.getElem?_eq_getElem hlt, Option.getD_some]

/-- The opcode bytes whose entries satisfy `p`, in ascending order, from one pass over the table. -/
def bytesWhere (p : DecodeEntry → Bool) : List Byte :=
  (decodeTable.zipIdx.filter fun entry => p entry.1).map fun entry => BitVec.ofNat 8 entry.2

theorem mem_bytesWhere {p : DecodeEntry → Bool} {op : Byte} : op ∈ bytesWhere p ↔ p (decodeEntry op) = true := by
  simp only [bytesWhere, List.mem_map, List.mem_filter, Prod.exists, List.mem_zipIdx_iff_getElem?]
  constructor
  · rintro ⟨e, k, ⟨hk, hp⟩, rfl⟩
    have hlt : k < 256 := decodeTable_length ▸ (List.getElem?_eq_some_iff.mp hk).1
    have he := decodeTable_getElem? (BitVec.ofNat 8 k)
    rw [BitVec.toNat_ofNat, Nat.mod_eq_of_lt hlt, hk, Option.some_inj] at he
    rwa [← he]
  · exact fun hp => ⟨_, op.toNat, ⟨decodeTable_getElem? op, hp⟩, BitVec.ofNat_toNat 8 op⟩

/-- The bytes with undefined entries are those of R111. -/
theorem decodeEntry_undefined_iff (op : Byte) : (decodeEntry op).defined = false ↔ op ∈ undefinedBytes := by
  have h : bytesWhere (fun e => !e.defined) = undefinedBytes := by decide +kernel
  rw [← h, mem_bytesWhere, Bool.not_eq_true']

theorem decodeEntry_defined (op : Byte) : (decodeEntry op).defined = !undefinedBytes.contains op := by
  rw [Bool.eq_iff_iff, Bool.not_eq_true', ← Bool.not_eq_true, List.contains_iff_mem, ← decodeEntry_undefined_iff,
    Bool.not_eq_false]

/-- The length of an instruction of the mode (R100), BRK's aside. -/
def Mode.instrLength : Mode → Nat
  | .implied | .accumulator => 1
  | .immediate | .zeroPage | .zeroPageX | .zeroPageY | .indexedIndirect | .indirectIndexed | .relative => 2
  | .absolute | .absoluteX | .absoluteY | .indirect => 3

/-- BRK is the one byte whose length is not its mode's (R100). -/
theorem decodeEntry_length_ne_iff (op : Byte) :
    (decodeEntry op).length ≠ (decodeEntry op).mode.instrLength ↔ op = 0x00 := by
  have h : bytesWhere (fun e => e.length ≠ e.mode.instrLength) = [0x00] := by decide +kernel
  rw [← List.mem_singleton, ← h, mem_bytesWhere, decide_eq_true_iff]

theorem decodeEntry_length (op : Byte) :
    (decodeEntry op).length = if op = 0x00 then 2 else (decodeEntry op).mode.instrLength := by
  split
  · next hbrk => subst hbrk; rfl
  · next hbrk => exact not_not.mp (mt (decodeEntry_length_ne_iff op).mp hbrk)

/-- The bytes of a nominal mode have the mode's length: BRK, the exception to R100, is not undefined. -/
theorem undefinedShape_of_bytesWhere {mode : Mode} {ops : List Byte}
    (h : bytesWhere (fun e => !e.defined && e.mode = mode) = ops) : UndefinedShape mode mode.instrLength ops := by
  intro op
  have hmem : ((decodeEntry op).defined = false ∧ (decodeEntry op).mode = mode) ↔ op ∈ ops := by
    rw [← h, mem_bytesWhere, Bool.and_eq_true, Bool.not_eq_true', decide_eq_true_iff]
  refine ⟨hmem, fun hop => ?_⟩
  obtain ⟨hundefined, hmode⟩ := hmem.mpr hop
  have hbrk : op ≠ 0x00 := by
    rintro rfl
    exact absurd hundefined (by decide)
  rw [decodeEntry_length, if_neg hbrk, hmode]

/-- Settles O48: each clause says which bytes' entries satisfy a condition, and one pass over the table lists them. -/
theorem decodeTableShape : Obligations.DecodeTableShape := by
  have hofficial : (decodeTable.filter fun e => e.defined).length = 151 := by decide +kernel
  refine ⟨decodeTable_length, hofficial, decodeEntry_defined, decodeEntry_length, ?_, ?_, ?_, ?_, ?_, ?_, ?_, ?_, ?_, ?_⟩
  all_goals exact undefinedShape_of_bytesWhere (by decide +kernel)

/-! ## Words of the opcode map -/

/-- Settles O49: each word is closed, and decoding it computes to the instruction named. -/
theorem chosenWordsDecode : Obligations.ChosenWordsDecode := by
  unfold Obligations.ChosenWordsDecode
  decide

end Sys2Proof
end

section
/-! PROOFS. The execution cycle's statements (40_execution_cycle.md): what a step before reset answers, the instruction a step
fetches, that every step keeps the invariant, which instructions write `PC`, and where `free_run()` stops. -/

namespace Sys2Proof.Machine

open Sys2Proof.Claims

/-! ## What a step keeps -/

theorem Inv.of_keeps {s t : State} (hs : Inv s) (h : Keeps s t) : Inv t := by
  obtain ⟨hready, hwf⟩ := hs
  obtain ⟨hfsm, -, -, -, -, hmem⟩ := h
  exact ⟨hfsm.trans hready, hmem hwf⟩

theorem busRead_keeps (w : Word) (s : State) : Keeps s (busRead w s).2 :=
  ⟨rfl, rfl, rfl, rfl, rfl, busRead_memWf w s⟩

theorem fetch_keeps (s : State) : Keeps s (fetch s).st := by
  obtain ⟨-, -, -, -, -, -, hfsm, hnmi, hirq, -, hwindows, hparams⟩ := fetch_registers s
  exact ⟨hfsm, hnmi, hirq, hwindows, hparams, fetch_memWf s⟩

theorem interruptEntry_keeps (vector : Word) (s : State) : Keeps s (interruptEntry vector s) :=
  keeps_of_fields (enterHandler_keeps vector s.params.intPushB s) rfl rfl rfl rfl rfl rfl

/-- The two entries of `IntCheck` (R261). -/
theorem interruptCheck_cases {s t : State} (h : interruptCheck s = some t) :
    (s.nmiPending = true ∧ t = interruptEntry s.params.nmiVector s.clearNmi) ∨
      (s.nmiPending = false ∧ s.irqLine = true ∧ s.p.i = false ∧ t = interruptEntry irqBrkVector s) := by
  unfold interruptCheck at h
  split at h
  · next hnmi => exact .inl ⟨hnmi, (Option.some.inj h).symm⟩
  · next hnmi =>
    split at h
    · next hirq =>
      simp only [Bool.and_eq_true, Bool.not_eq_true'] at hirq
      exact .inr ⟨Bool.eq_false_iff.mpr hnmi, hirq.1, hirq.2, (Option.some.inj h).symm⟩
    · cases h

/-- Settles O51, by the three ways a step leaves a state: each is made of operations that keep the FSM and canonical memory, and
clearing the NMI latch touches neither. -/
theorem stepKeepsInvariant : Obligations.StepKeepsInvariant := by
  intro s t hs h
  obtain ⟨-, hint | ⟨-, hexec⟩ | ⟨-, -, -, -, rfl⟩⟩ := leaves_cases s t h
  · obtain ⟨-, rfl⟩ | ⟨-, -, -, rfl⟩ := interruptCheck_cases hint
    · have hcleared : Inv s.clearNmi := hs
      exact hcleared.of_keeps (interruptEntry_keeps _ _)
    · exact hs.of_keeps (interruptEntry_keeps _ s)
  · exact (hs.of_keeps (fetch_keeps s)).of_keeps (exec_keeps _ _ _ hexec)
  · exact hs.of_keeps (busRead_keeps s.pc s)

/-! ## The instructions that write `PC` -/

@[simp] theorem accumulate_pc (i : Instr) (o : ReadOperand) (f : Byte → Byte → Byte) (s : State) :
    (accumulate i o f s).pc = s.pc := by
  simp [accumulate]

@[simp] theorem accumulateCarry_pc (i : Instr) (o : ReadOperand) (f : Bool → Byte → Byte → Bool → AluResult) (s : State) :
    (accumulateCarry i o f s).pc = s.pc := by
  simp [accumulateCarry]

@[simp] theorem compareWith_pc (i : Instr) (o : ReadOperand) (register : State → Byte) (s : State) :
    (compareWith i o register s).pc = s.pc := by
  simp [compareWith]

@[simp] theorem storeRegister_pc (i : Instr) (m : MemOperand) (v : Byte) (s : State) :
    (storeRegister i m v s).pc = s.pc := by
  simp [storeRegister]

@[simp] theorem modifyMem_pc (i : Instr) (m : MemOperand) (f : Byte → Bool → Byte) (flags : Status → Byte → Status)
    (s : State) : (modifyMem i m f flags s).pc = s.pc := by
  simp [modifyMem]

@[simp] theorem shiftOperand_pc (i : Instr) (o : ShiftOperand) (f : Byte → Bool → AluResult) (s : State) :
    (shiftOperand i o f s).pc = s.pc := by
  cases o with
  | acc => rfl
  | mem m => exact modifyMem_pc i m _ _ s

@[simp] theorem stepMem_pc (i : Instr) (m : MemOperand) (f : Byte → Byte) (s : State) : (stepMem i m f s).pc = s.pc :=
  modifyMem_pc i m _ _ s

/-- A branch writes `PC` only when its condition holds (R220). -/
theorem branchOn_pc_ne {i : Instr} {cond : Bool} {off : Byte} {s : State} (h : (branchOn i cond off s).pc ≠ s.pc) :
    cond = true := by
  cases cond with
  | false => exact absurd rfl h
  | true => rfl

/-- Settles O55, by the split over the operand shapes: none of them writes `PC`, a branch does only when it is taken, and the
other control transfers are in the list. -/
theorem pcChangesOnlyByControlTransfer : Obligations.PcChangesOnlyByControlTransfer := by
  intro i s t h hpc
  cases i with
  | adc o | sbc o => cases h; exact absurd (accumulateCarry_pc _ o _ s) hpc
  | and o | ora o | eor o | lda o => cases h; exact absurd (accumulate_pc _ o _ s) hpc
  | cmp o | cpx o | cpy o => cases h; exact absurd (compareWith_pc _ o _ s) hpc
  | asl o | lsr o | rol o | ror o => cases h; exact absurd (shiftOperand_pc _ o _ s) hpc
  | inc m | dec m => cases h; exact absurd (stepMem_pc _ m _ s) hpc
  | sta m | stx m | sty m => cases h; exact absurd (storeRegister_pc _ m _ s) hpc
  | bpl d | bmi d | bvc d | bvs d | bcc d | bcs d | bne d | beq d =>
    cases h
    simpa using branchOn_pc_ne hpc
  | jmp o | jsr w | rts | brk | rti => simp
  | undefined op => rw [exec_undefined_next h] at hpc; exact absurd rfl hpc
  | bit m | ldx o | ldy o | tax | tay | txa | tya | tsx | txs | inx | iny | dex | dey | pha | php | pla | plp | clc | sec
  | cli | sei | clv | cld | sed | nop => cases h; simp [changeFlags] at hpc

/-! ## What the host sees of a step -/

theorem hostStep_next {s t : State} (h : step s = .next t) : hostStep s = (.ok (t.cycleTotal - s.cycleTotal), t) := by
  simp only [hostStep, h]

theorem hostStep_notReset {s : State} (h : step s = .fault .notReset) : hostStep s = (.notReset, s) := by
  simp only [hostStep, h]

theorem hostStep_illegalOpcode {op : Byte} {pc : Word} {s t : State} (h : step s = .fault (.illegalOpcode op pc t)) :
    hostStep s = (.illegalOpcode op pc, t) := by
  simp only [hostStep, h]

/-- Settles O4: the report carries no state, and the host keeps the one it had. -/
theorem stepBeforeResetReportsNotReset : Obligations.StepBeforeResetReportsNotReset :=
  fun s h => ⟨step_powerOn s h, hostStep_notReset (step_powerOn s h)⟩

/-- An IllegalOpcode report is of an undefined byte at `PC` under `Report`, and leaves the state after the opcode read (R253). -/
theorem step_illegalOpcode {op : Byte} {pc : Word} {s t : State} (h : step s = .fault (.illegalOpcode op pc t)) :
    Fetches s ∧ s.params.undefinedPolicy = .report ∧ (decodeEntry op).defined = false ∧ pc = s.pc ∧
      busRead s.pc s = (op, t) := by
  obtain ⟨hready, hint | ⟨hfetches, hexec⟩ | ⟨hfetches, hpolicy, hundefined, hstep, rfl⟩⟩ :=
    leaves_cases s t (.inr ⟨op, pc, h⟩)
  · rw [step_ready s hready, hint] at h
    cases h
  · rw [step_fetches s hfetches, hexec] at h
    cases h
  · rw [hstep] at h
    injection h with h
    injection h with hop hpc
    subst hop
    exact ⟨hfetches, hpolicy, hundefined, hpc.symm, rfl⟩

/-! ## Where `free_run()` stops -/

/-- A free run that stops has made a last step, whose report and state are its own. -/
theorem freeRun_stops {n : Nat} {s t : State} {r : StepResult} (h : freeRun n s = (some r, t)) :
    ∃ u, hostStep u = (r, t) ∧ ∀ cycles, r ≠ .ok cycles := by
  induction n generalizing s with
  | zero => cases h
  | succ n ih =>
    unfold freeRun at h
    split at h
    · exact ih h
    · next hnotOk hstep =>
      cases h
      exact ⟨s, hstep, hnotOk⟩

/-- The host's results that are not `Ok`, with the step that gives each. -/
theorem hostStep_report {s t : State} {r : StepResult} (h : hostStep s = (r, t)) (hr : ∀ cycles, r ≠ .ok cycles) :
    (r = .notReset ∧ t = s) ∨ ∃ op pc, r = .illegalOpcode op pc ∧ step s = .fault (.illegalOpcode op pc t) := by
  cases hstep : step s with
  | next u => rw [hostStep_next hstep] at h; cases h; exact absurd rfl (hr _)
  | fault f =>
    cases f with
    | notReset => rw [hostStep_notReset hstep] at h; cases h; exact .inl ⟨rfl, rfl⟩
    | illegalOpcode op pc u => rw [hostStep_illegalOpcode hstep] at h; cases h; exact .inr ⟨op, pc, rfl, rfl⟩
  | refused reason => exact absurd hstep (step_not_refused s reason)

theorem fetches_busRead (w : Word) {s : State} (h : Fetches s) : Fetches (busRead w s).2 := h

/-- Where no device answers, reading a byte again gives it again and adds one event. -/
theorem busRead_again {w : Word} {s : State} (h : s.deviceAt w = none) :
    busRead w (busRead w s).2 = ((busRead w s).1, (busRead w s).2.record (.read w (busRead w s).1)) := by
  have h' : (busRead w s).2.deviceAt w = none := h
  rw [busRead_ordinary w _ h', busRead_ordinary w s h]
  rfl

/-- Settles O60: the last step of the run reports. NotReset leaves the state as it was; IllegalOpcode leaves `PC` at the
undefined byte, which ordinary memory gives again. -/
theorem freeRunStopsAtARepeatingReport : Obligations.FreeRunStopsAtARepeatingReport := by
  intro n s t r h
  obtain ⟨u, hstep, hr⟩ := freeRun_stops h
  obtain ⟨rfl, rfl⟩ | ⟨op, pc, rfl, hreport⟩ := hostStep_report hstep hr
  · exact .inl ⟨rfl, hstep⟩
  · obtain ⟨hfetches, hpolicy, hundefined, rfl, hread⟩ := step_illegalOpcode hreport
    obtain ⟨rfl, rfl⟩ := Prod.mk.inj hread
    have hfetches' := fetches_busRead u.pc hfetches
    refine .inr ⟨_, _, rfl, rfl, hfetches', ⟨u.history, rfl⟩, fun hordinary => ?_⟩
    have hdevice : u.deviceAt u.pc = none := hordinary u.pc List.mem_cons_self
    have hagain := busRead_again hdevice
    have hstep' := step_report _ hfetches' hpolicy (by rw [busRead_pc, hagain]; exact hundefined)
    rw [busRead_pc, hagain] at hstep'
    exact hostStep_illegalOpcode hstep'

/-! ## The instruction a step fetches -/

/-- The bytes the fetch unit reads after the opcode byte, and the state after those reads. -/
def fetchOperands (s : State) : List Byte × State :=
  fetchBytes (fetchCount (decodeEntry (busRead s.pc s).1) s.params.undefinedPolicy) (s.pc + 1) (busRead s.pc s).2

/-- How many bytes the fetch unit reads after the opcode byte (R122, R253): all of the instruction's but BRK's padding and a
reported byte's operand. -/
theorem fetchCount_eq (op : Byte) (policy : UndefinedPolicy) :
    fetchCount (decodeEntry op) policy =
      if op = 0x00 ∨ ((decodeEntry op).defined = false ∧ policy = .report) then 0 else (decodeEntry op).length - 1 := by
  have h : ∀ n : Fin 256, ∀ policy ∈ [UndefinedPolicy.report, .nop], fetchCount (decodeEntry (BitVec.ofFin n)) policy =
      if BitVec.ofFin n = (0x00 : Byte) ∨ ((decodeEntry (BitVec.ofFin n)).defined = false ∧ policy = .report) then 0
      else (decodeEntry (BitVec.ofFin n)).length - 1 := by decide +kernel
  exact h op.toFin policy (by cases policy <;> decide)

/-- The bytes fetched decode to the instruction fetched, whatever answers the reads. -/
theorem fetch_decodes (s : State) :
    ∃ rest, decode ((busRead s.pc s).1 :: (fetchOperands s).1) = .ok (fetch s).instr rest := by
  have henough : (decodeEntry (busRead s.pc s).1).operandCount ≤ (fetchOperands s).1.length := by
    rw [fetchOperands, fetchBytes_length]
    exact operandCount_le_fetchCount _ _
  have hinstr : (fetch s).instr =
      (decode ((busRead s.pc s).1 :: (fetchOperands s).1)).instr?.getD (.undefined (busRead s.pc s).1) := rfl
  have hsome := decode_isSome _ _ henough
  rw [hinstr]
  cases hdecode : decode ((busRead s.pc s).1 :: (fetchOperands s).1) with
  | ok i rest => exact ⟨rest, rfl⟩
  | rejected e => rw [hdecode] at hsome; cases hsome

/-- A fetch's events are the reads of the instruction's bytes in increasing address order (R124). -/
theorem fetch_history (s : State) :
    (fetch s).st.history = readsFrom s.pc ((busRead s.pc s).1 :: (fetchOperands s).1) ++ s.history := by
  have h : (fetch s).st.history = (fetchOperands s).2.history := rfl
  rw [h, fetchOperands, fetchBytes_history]
  simp [readsFrom, consecutive, fetchBytes_length]

/-- A fetch puts `PC` past the instruction and reads its bytes; beyond that only a device that answers a read changes
anything, and only in memory. -/
theorem fetch_st_eq (s : State) :
    (fetch s).st = { s with
      pc := s.pc + BitVec.ofNat 16 (decodeEntry (busRead s.pc s).1).length
      mem := (fetch s).st.mem
      history := readsFrom s.pc ((busRead s.pc s).1 :: (fetchOperands s).1) ++ s.history } := by
  obtain ⟨ha, hx, hy, hs, hpc, hp, hfsm, hnmi, hirq, hcycles, hwindows, hparams⟩ := fetch_registers s
  exact State.eq_of_fields ha hx hy hs hpc hp hfsm hnmi hirq hcycles rfl hwindows (fetch_history s) hparams

/-- Settles O5: a step that fetches executes what was fetched, in the state that the fetch leaves. -/
theorem stepRunsTheInstructionAtPc : Obligations.StepRunsTheInstructionAtPc := by
  constructor
  · intro s hfetches
    obtain ⟨rest, hdecode⟩ := fetch_decodes s
    refine ⟨_, _, _, rest, (fetch s).st.mem, ?_, hdecode, ?_⟩
    · exact (fetchBytes_length _ _ _).trans (fetchCount_eq _ _)
    · exact (step_fetches s hfetches).trans (congrArg _ (fetch_st_eq s))
  · intro s i rest hfetches hordinary hdecode
    rw [step_fetches s hfetches, fetch_plain s i rest hordinary hdecode]

end Sys2Proof.Machine
end

section
/-! PROOFS. The statements of the addressing modes (41_addressing_modes.md): the effective address, page cross and pointer reads
of each memory mode, and the cycle counts, with the page-cross cycle in the read class only. -/

namespace Sys2Proof.Machine

open Sys2Proof.Claims

/-! ## Effective addresses -/

/-- The direct and indexed modes leave the state as it is; the two indirect ones read their pointer pair, which changes no
register, whatever answers (R151, R152). -/
theorem resolve_sameButBus (m : MemOperand) (s : State) : SameButBus s (resolve m s).st := by
  cases m with
  | zp _ | zpx _ | zpy _ | abs _ | absx _ | absy _ => rfl
  | indx b => exact (readPair_reads (zext (b + s.x)) (zext (b + s.x + 1)) s).1
  | indy b => exact (readPair_reads (zext b) (zext (b + 1)) s).1

/-- Settles O43: each address is the resolver's own, and over ordinary memory an indirect mode's pointer reads are plain. -/
theorem effectiveAddresses : Obligations.EffectiveAddresses :=
  fun b _ s => ⟨fun m => resolve_sameButBus m s, rfl, rfl, rfl, rfl, rfl, rfl, rfl, rfl,
    resolve_plain (.indx b) s, resolve_plain (.indy b) s⟩

/-! ## Cycle counts -/

/-- A table entry's base count and page penalty make the cycle count (R128). -/
theorem cyclesOf_eq {i : Instr} {n : Nat} {penalty crossed : Bool}
    (h : (entryOf i).map (fun e => (e.baseCycles, e.pagePenalty)) = some (n, penalty)) :
    cyclesOf i crossed = n + if penalty && crossed then 1 else 0 := by
  obtain ⟨e, he, hcost⟩ := Option.map_eq_some_iff.mp h
  obtain ⟨hbase, hpenalty⟩ := Prod.mk.inj hcost
  simp only [cyclesOf, he, hbase, hpenalty]

/-- Without the page penalty, a page cross costs nothing. -/
theorem cyclesOf_fixed {i : Instr} {n : Nat} {crossed : Bool}
    (h : (entryOf i).map (fun e => (e.baseCycles, e.pagePenalty)) = some (n, false)) : cyclesOf i crossed = n :=
  cyclesOf_eq h

/-- With the page penalty, a page cross costs one cycle. -/
theorem cyclesOf_penalized {i : Instr} {n : Nat} {crossed : Bool}
    (h : (entryOf i).map (fun e => (e.baseCycles, e.pagePenalty)) = some (n, true)) :
    cyclesOf i crossed = n + if crossed then 1 else 0 :=
  cyclesOf_eq h

/-- Settles O50, class by class: an operation and its mode name one entry of the decode table, and only the entries of the
indexed reads have the page penalty. -/
theorem cycleCountsByClass : Obligations.CycleCountsByClass := by
  intro v b w x p
  refine ⟨?accumulatorReads, ?indexLoads, ?indexCompares, ?bitTest, ?accumulatorStore, ?indexStores, ?shifts, ?steps⟩
  case accumulatorReads =>
    rintro k (rfl | rfl | rfl | rfl | rfl | rfl | rfl) <;>
    refine ⟨?_, ?_, ?_, ?_, cyclesOf_penalized rfl, cyclesOf_penalized rfl, ?_, cyclesOf_penalized rfl⟩ <;>
    exact cyclesOf_fixed rfl
  case indexLoads =>
    refine ⟨?_, ?_, ?_, ?_, cyclesOf_penalized rfl, ?_, ?_, ?_, ?_, cyclesOf_penalized rfl⟩ <;>
    exact cyclesOf_fixed rfl
  case indexCompares => rintro k (rfl | rfl) <;> and_intros <;> exact cyclesOf_fixed rfl
  case bitTest => and_intros <;> exact cyclesOf_fixed rfl
  case accumulatorStore => and_intros <;> exact cyclesOf_fixed rfl
  case indexStores => and_intros <;> exact cyclesOf_fixed rfl
  case shifts => rintro k (rfl | rfl | rfl | rfl) <;> and_intros <;> exact cyclesOf_fixed rfl
  case steps => rintro k (rfl | rfl) <;> and_intros <;> exact cyclesOf_fixed rfl

end Sys2Proof.Machine
end

section
/-! PROOFS. The statements of the ALU (42_alu.md): the binary sum and difference against the integers. The subtraction is the
addition of the operand's complement, whose two integer values are 255 - b and -1 - b. -/

namespace Sys2Proof.Machine

/-! ## The two integer values of a byte -/

theorem isZero_iff (x : Byte) : isZero x = true ↔ x = 0 := beq_iff_eq

theorem isNegative_eq_msb (x : Byte) : isNegative x = x.msb := x.msb_eq_getLsbD_last.symm

/-- Masking bit 7 tests the sign. -/
theorem and_0x80_bne_zero (x : Byte) : (x &&& 0x80 != 0) = isNegative x := by
  rw [isNegative, show (0x80 : Byte) = BitVec.twoPow 8 7 from rfl, BitVec.and_twoPow]
  cases x.getLsbD 7 <;> rfl

theorem isNegative_eq_decide (x : Byte) : isNegative x = decide (128 ≤ x.toNat) := by
  rw [isNegative_eq_msb, BitVec.msb_eq_decide]

/-- Two's complement: a negative byte's signed value is 256 below its unsigned one. -/
theorem byte_toInt_eq (x : Byte) : x.toInt = if 128 ≤ x.toNat then (x.toNat : Int) - 256 else x.toNat := by
  rw [x.toInt_eq_msb_cond, ← isNegative_eq_msb, isNegative_eq_decide]
  simp only [decide_eq_true_iff]
  rfl

theorem byte_toNat_not (x : Byte) : (~~~x).toNat = 255 - x.toNat := BitVec.toNat_not

theorem byte_toInt_not (x : Byte) : (~~~x).toInt = -1 - x.toInt := by
  have hx := x.isLt
  rw [byte_toInt_eq, byte_toInt_eq, byte_toNat_not]
  split <;> split <;> omega

/-! ## Addition -/

/-- The result byte of the binary sum (R162). -/
theorem addBinary_toNat (a b : Byte) (c : Bool) :
    (addBinary a b c).r.toNat = (a.toNat + b.toNat + carryNat c) % 256 := BitVec.toNat_ofNat _ _

theorem addBinary_c_iff (a b : Byte) (c : Bool) :
    (addBinary a b c).c = true ↔ 0xFF < a.toNat + b.toNat + carryNat c := decide_eq_true_iff

theorem addBinary_n (a b : Byte) (c : Bool) : (addBinary a b c).n = isNegative (addBinary a b c).r := rfl

theorem addBinary_z_iff (a b : Byte) (c : Bool) : (addBinary a b c).z = true ↔ (addBinary a b c).r = 0 := isZero_iff _

/-- The overflow formula is bit 7 of `(a ^ r) & (b ^ r)`: the result's sign differs from both operands' (R162). -/
theorem addBinary_v (a b : Byte) (c : Bool) :
    let r := (addBinary a b c).r
    (addBinary a b c).v = ((isNegative a ^^ isNegative r) && (isNegative b ^^ isNegative r)) := by
  intro r
  calc (addBinary a b c).v = isNegative ((a ^^^ r) &&& (b ^^^ r)) := and_0x80_bne_zero _
    _ = _ := by simp only [isNegative, BitVec.getLsbD_and, BitVec.getLsbD_xor]

/-- The sign reading of the overflow. -/
theorem addBinary_v_iff_signs (a b : Byte) (c : Bool) :
    (addBinary a b c).v = true ↔ isNegative a = isNegative b ∧ isNegative (addBinary a b c).r ≠ isNegative a := by
  rw [addBinary_v]
  cases isNegative a <;> cases isNegative b <;> cases isNegative (addBinary a b c).r <;> decide

/-- The range reading of the overflow: two operands of one sign have a sum of the other sign exactly when the signed sum
leaves the byte's range. -/
theorem addBinary_v_iff_range (a b : Byte) (c : Bool) :
    (addBinary a b c).v = true ↔
      a.toInt + b.toInt + carryNat c < -128 ∨ 127 < a.toInt + b.toInt + carryNat c := by
  have ha := a.isLt
  have hb := b.isLt
  have hc : carryNat c ≤ 1 := by cases c <;> decide
  simp only [addBinary_v_iff_signs, isNegative_eq_decide, ne_eq, decide_eq_decide, addBinary_toNat, byte_toInt_eq]
  split <;> split <;> omega

/-- Settles O13, output by output; `carryNat` is the statement's carry. -/
theorem binaryAddMeetsIntegerSum : Obligations.BinaryAddMeetsIntegerSum := fun a b c =>
  ⟨addBinary_toNat a b c, addBinary_c_iff a b c, addBinary_v_iff_signs a b c, addBinary_v_iff_range a b c,
    addBinary_n a b c, addBinary_z_iff a b c⟩

/-! ## Subtraction -/

theorem subBinary_eq_addBinary_not (a b : Byte) (c : Bool) : subBinary a b c = addBinary a (~~~b) c :=
  congrArg (addBinary a · c) BitVec.xor_allOnes

/-- The borrow that a carry in stands for: 1 without the carry (R163). -/
def borrowInt (c : Bool) : Int := if c then 0 else 1

theorem carryNat_eq_one_sub_borrowInt (c : Bool) : (carryNat c : Int) = 1 - borrowInt c := by cases c <;> rfl

/-- The unsigned sum with the complement is the difference with the borrow, moved up by 256. -/
theorem unsigned_add_not (a b : Byte) (c : Bool) :
    ((a.toNat + (~~~b).toNat + carryNat c : Nat) : Int) = (a.toNat : Int) - b.toNat - borrowInt c + 256 := by
  have hb := b.isLt
  have hc := carryNat_eq_one_sub_borrowInt c
  rw [byte_toNat_not]
  omega

/-- The signed sum with the complement is the difference with the borrow. -/
theorem signed_add_not (a b : Byte) (c : Bool) :
    a.toInt + (~~~b).toInt + carryNat c = a.toInt - b.toInt - borrowInt c := by
  rw [byte_toInt_not, carryNat_eq_one_sub_borrowInt]
  omega

/-- The result byte of the binary difference (R163). -/
theorem subBinary_toNat (a b : Byte) (c : Bool) :
    ((subBinary a b c).r.toNat : Int) = ((a.toNat : Int) - b.toNat - borrowInt c) % 256 := by
  rw [subBinary_eq_addBinary_not, addBinary_toNat, Int.natCast_emod, unsigned_add_not]
  exact Int.add_emod_right _ 256

/-- The carry out of the difference says that no borrow occurred (R163). -/
theorem subBinary_c_iff (a b : Byte) (c : Bool) :
    (subBinary a b c).c = true ↔ 0 ≤ (a.toNat : Int) - b.toNat - borrowInt c := by
  have hsum := unsigned_add_not a b c
  rw [subBinary_eq_addBinary_not, addBinary_c_iff]
  omega

theorem subBinary_v_iff_range (a b : Byte) (c : Bool) :
    (subBinary a b c).v = true ↔
      a.toInt - b.toInt - borrowInt c < -128 ∨ 127 < a.toInt - b.toInt - borrowInt c := by
  rw [subBinary_eq_addBinary_not, addBinary_v_iff_range, signed_add_not]

/-- Settles O14, output by output; `borrowInt` is the statement's borrow. -/
theorem binarySubMeetsIntegerDifference : Obligations.BinarySubMeetsIntegerDifference := fun a b c =>
  ⟨subBinary_toNat a b c, subBinary_c_iff a b c, subBinary_v_iff_range a b c,
    addBinary_n a (b ^^^ 0xFF) c, addBinary_z_iff a (b ^^^ 0xFF) c⟩

end Sys2Proof.Machine
end

section
/-! PROOFS. The statements of the arithmetic and logical instructions (43_arith_logic.md). Each reads its operand and then
changes registers only; what the read does besides giving the byte is said once, for any effect on the registers. -/

namespace Sys2Proof.Machine

open Sys2Proof.Claims

/-! ## Instructions that read one operand and then change registers -/

theorem sameButBus_trans {s t u : State} (hst : SameButBus s t) (htu : SameButBus t u) : SameButBus s u :=
  htu.trans (congrArg (fun r : State => { r with mem := u.mem, history := u.history }) hst)

theorem busRead_sameButBus (w : Word) (s : State) : SameButBus s (busRead w s).2 := rfl

/-- Reading an operand changes no register, whatever answers it (R156). -/
theorem loadOperand_sameButBus (o : ReadOperand) (s : State) : SameButBus s (loadOperand o s).st := by
  cases o with
  | imm v => rfl
  | mem m => exact sameButBus_trans (resolve_sameButBus m s) (busRead_sameButBus _ _)

/-- An effect on the registers: it neither reads nor changes memory and history, and leaves the cycle count as it is. -/
structure RegisterEffect (effect : Byte → State → State) : Prop where
  bus : ∀ v s mem history,
    effect v { s with mem := mem, history := history } = { effect v s with mem := mem, history := history }
  cycles : ∀ v s, (effect v s).cycleTotal = s.cycleTotal

theorem RegisterEffect.mem {effect : Byte → State → State} (h : RegisterEffect effect) (v : Byte) (s : State) :
    (effect v s).mem = s.mem := by
  have hsame : effect v s = { effect v s with mem := s.mem, history := s.history } := h.bus v s s.mem s.history
  rw [hsame]

/-- The shape that these instructions' meanings share: the operand's read, an effect of the byte read, and the cycles. -/
def readThen (effect : Byte → State → State) (i : Instr) (o : ReadOperand) (s : State) : State :=
  let q := loadOperand o s
  (effect q.value q.st).addCycles (cyclesOf i q.crossed)

section
variable {effect : Byte → State → State} (h : RegisterEffect effect) (i : Instr) (o : ReadOperand) (s : State)
include h

/-- Whatever answers the read: the effect on the state before it, with the cycles and the read's memory and history. -/
theorem readThen_eq : readThen effect i o s = { effect (loadOperand o s).value s with
    cycleTotal := s.cycleTotal + cyclesOf i (loadOperand o s).crossed
    mem := (loadOperand o s).st.mem
    history := (loadOperand o s).st.history } := by
  have hst : (loadOperand o s).st = { s with mem := _, history := _ } := loadOperand_sameButBus o s
  rw [readThen, hst, h.bus, State.addCycles, h.cycles]

/-- Over ordinary memory the byte, the page cross and the reads are the plain ones, and memory stays. -/
theorem readThen_plain (hordinary : Ordinary s (operandAddrs o s)) :
    readThen effect i o s = { effect (operandByte o s) s with
      cycleTotal := s.cycleTotal + cyclesOf i (operandCrosses o s)
      history := readEvents s (operandAddrs o s) ++ s.history } := by
  rw [readThen_eq h, loadOperand_plain o s hordinary, afterReads, ← h.mem (operandByte o s) s]

end

/-- An instruction of that shape completes as `ReadsOperand` says. -/
theorem readsOperand_of_readThen {k : ReadOperand → Instr} {effect : Byte → State → State} (h : RegisterEffect effect)
    (hexec : ∀ o s, exec (k o) s = .next (readThen effect (k o) o s)) : ReadsOperand k effect := fun o s =>
  ⟨(hexec o s).trans (congrArg _ (readThen_eq h (k o) o s)),
    fun hordinary => (hexec o s).trans (congrArg _ (readThen_plain h (k o) o s hordinary))⟩

/-! ## ADC and SBC -/

/-- The accumulator and N, V, Z, C take the result that `P.D` selects. -/
def carryEffect (f : Bool → Byte → Byte → Bool → AluResult) (m : Byte) (s : State) : State :=
  let q := f s.p.d s.a m s.p.c
  { s with a := q.r, p := s.p.setNVZC q }

theorem readsOperand_of_accumulateCarry {k : ReadOperand → Instr} {effect : Byte → State → State}
    {f : Bool → Byte → Byte → Bool → AluResult} (hexec : ∀ o s, exec (k o) s = .next (accumulateCarry (k o) o f s))
    (heffect : ∀ m s, effect m s = carryEffect f m s) : ReadsOperand k effect := by
  obtain rfl : effect = carryEffect f := funext₂ heffect
  exact readsOperand_of_readThen ⟨fun _ _ _ _ => rfl, fun _ _ => rfl⟩ hexec

/-- R181: `P.D` selects the result byte of the subtraction, and the flags are the binary ones in either mode. -/
theorem sbcResult_eq (d : Bool) (a m : Byte) (c : Bool) :
    sbcResult d a m c = { subBinary a m c with r := if d then (subDecimal a m c).r else (subBinary a m c).r } := by
  cases d <;> rfl

/-- Settles O9: ADC is `accumulateCarry` with the addition of R180. -/
theorem adcAddsOperandAndCarry : Obligations.AdcAddsOperandAndCarry := by
  refine ⟨fun b w => ?encodings, readsOperand_of_accumulateCarry (f := adcResult) (fun _ _ => rfl) fun _ _ => rfl⟩
  case encodings => and_intros <;> rfl

/-- Settles O10: SBC is `accumulateCarry` with the subtraction of R181. -/
theorem sbcSubtractsOperandAndBorrow : Obligations.SbcSubtractsOperandAndBorrow := by
  refine ⟨fun b w => ?encodings, readsOperand_of_accumulateCarry (f := sbcResult) (fun _ _ => rfl) fun m s => ?effect⟩
  case encodings => and_intros <;> rfl
  case effect => simp only [carryEffect, sbcResult_eq, Status.setNVZC]

/-! ## AND, ORA and EOR -/

/-- The accumulator takes a function of itself and the operand, with N and Z. -/
def accumulatorEffect (f : Byte → Byte → Byte) (m : Byte) (s : State) : State :=
  { s with a := f s.a m, p := flagsNZ (f s.a m) s.p }

theorem readsOperand_of_accumulate {k : ReadOperand → Instr} {f : Byte → Byte → Byte}
    (hexec : ∀ o s, exec (k o) s = .next (accumulate (k o) o f s)) : ReadsOperand k (accumulatorEffect f) :=
  readsOperand_of_readThen ⟨fun _ _ _ _ => rfl, fun _ _ => rfl⟩ hexec

/-- Settles O11: the three are `accumulate` with their operation. -/
theorem logicSetsAccumulatorNegativeZero : Obligations.LogicSetsAccumulatorNegativeZero := by
  refine ⟨fun b w => ?andEncodings, fun b w => ?oraEncodings, fun b w => ?eorEncodings,
    readsOperand_of_accumulate fun _ _ => rfl, readsOperand_of_accumulate fun _ _ => rfl,
    readsOperand_of_accumulate fun _ _ => rfl⟩
  all_goals and_intros <;> rfl

/-! ## BIT -/

/-- N, V and Z of `BitTest(A, m)` (R174). -/
def bitTestEffect (m : Byte) (s : State) : State := { s with p := s.p.setBitTest s.a m }

theorem bitTestEffect_registerEffect : RegisterEffect bitTestEffect := ⟨fun _ _ _ _ => rfl, fun _ _ => rfl⟩

theorem execBit_eq_readThen (m : MemOperand) (s : State) :
    exec (.bit m) s = .next (readThen bitTestEffect (.bit m) (.mem m) s) := rfl

/-- Settles O12: BIT reads its memory operand as the others read theirs, and changes flags only. -/
theorem bitTestsMemoryAgainstAccumulator : Obligations.BitTestsMemoryAgainstAccumulator := by
  refine ⟨fun _ _ => ⟨rfl, rfl⟩, fun m s => ?_⟩
  rw [execBit_eq_readThen]
  exact ⟨congrArg _ (readThen_eq bitTestEffect_registerEffect _ (.mem m) s),
    fun hordinary => congrArg _ (readThen_plain bitTestEffect_registerEffect _ (.mem m) s hordinary)⟩

end Sys2Proof.Machine
end

section
/-! PROOFS. The statements of the shifts and rotates (44_shift_rotate.md). What every read-modify-write of memory does is said
once, for any function of the byte and the carry; what the four operations share is their result with N, Z and a carry out. -/

namespace Sys2Proof.Machine

open Sys2Proof.Claims

/-! ## Read-modify-write of a memory byte -/

/-- Memory and history are all that a bus write changes, whatever answers it (R73). -/
theorem busWrite_sameButBus (w : Word) (v : Byte) (s : State) : SameButBus s (busWrite w v s) := rfl

theorem setP_addCycles_of_sameButBus {s t : State} (h : SameButBus s t) (p : Status) (n : Nat) :
    (t.setP p).addCycles n =
      { s with p := p, cycleTotal := s.cycleTotal + n, mem := t.mem, history := t.history } :=
  congrArg (fun r : State => (r.setP p).addCycles n) h

/-- The carry and the status that the operation finds after its reads are those from before them. -/
theorem modifyMem_eq_busWrite (i : Instr) (m : MemOperand) (f : Byte → Bool → Byte) (flags : Status → Byte → Status)
    (s : State) :
    let q := loadMem m s
    modifyMem i m f flags s =
      ((busWrite (resolve m s).ea (f q.value s.p.c) q.st).setP (flags s.p q.value)).addCycles (cyclesOf i false) := by
  rw [← loadMem_p m s]
  rfl

/-- Whatever answers the accesses: the flags and the cycles change, one read and then one write follow the pointer reads, and
memory and history aside all else is as it was. -/
theorem modifyMem_eq (i : Instr) (m : MemOperand) (f : Byte → Bool → Byte) (flags : Status → Byte → Status) (s : State) :
    let x := (loadMem m s).value
    modifyMem i m f flags s = { s with
      p := flags s.p x
      cycleTotal := s.cycleTotal + cyclesOf i false
      mem := (modifyMem i m f flags s).mem
      history := .write (resolve m s).ea (f x s.p.c) :: .read (resolve m s).ea x :: (resolve m s).st.history } := by
  have hread : SameButBus s (loadMem m s).st := loadOperand_sameButBus (.mem m) s
  rw [modifyMem_eq_busWrite]
  exact setP_addCycles_of_sameButBus (sameButBus_trans hread (busWrite_sameButBus _ _ _)) _ _

/-- Over ordinary memory the resolver's address is the plain one. -/
theorem resolve_ea_plain (m : MemOperand) (s : State) (h : Ordinary s (memAddrs m s)) : (resolve m s).ea = effAddr m s := by
  rw [resolve_plain m s (ordinary_append.mp h).1]

/-- An instruction of that shape completes as `ModifiesByte` says. -/
theorem modifiesByte_of_modifyMem {k : MemOperand → Instr} {f : Byte → Bool → Byte} {flags : Byte → Status → Status}
    (hexec : ∀ m s, exec (k m) s = .next (modifyMem (k m) m f (fun p x => flags x p) s)) : ModifiesByte k f flags := by
  intro m s
  refine ⟨⟨_, _, hexec m s, modifyMem_eq (k m) m f _ s⟩, fun hordinary => ?_⟩
  rw [resolve_ea_plain m s hordinary, hexec, modifyMem_plain _ _ _ _ _ hordinary]
  exact ⟨_, rfl, rfl, rfl, memRead_memWrite_same _ _ _,
    fun _ hk => memRead_memWrite_other _ _ (hk _ List.mem_cons_self)⟩

/-! ## ASL, LSR, ROL and ROR -/

/-- A shift or rotate whose result is `f` of its operand and the old carry, with N and Z of it and a carry out. -/
theorem shifts_of_shiftOperand {k : ShiftOperand → Instr} {operation : Byte → Bool → AluResult} {f : Byte → Bool → Byte}
    {carryOut : Byte → Bool} (hexec : ∀ o s, exec (k o) s = .next (shiftOperand (k o) o operation s))
    (hresult : ∀ x c, operation x c = resultNZC (f x c) (carryOut x)) :
    Shifts k f (fun x p => { flagsNZ (f x p.c) p with c := carryOut x }) := by
  obtain rfl : operation = fun x c => resultNZC (f x c) (carryOut x) := funext₂ hresult
  exact ⟨hexec .acc, modifiesByte_of_modifyMem fun m => hexec (.mem m)⟩

/-- R171: the old carry enters bit 7. -/
theorem rotateRight_eq (x : Byte) (c : Bool) :
    rotateRight x c = resultNZC ((x >>> 1) ||| (if c then 0x80 else 0)) (x.getLsbD 0) := by
  cases c <;> rfl

/-- Settles O18: the four are `shiftOperand` with their operation. -/
theorem shiftsAndRotates : Obligations.ShiftsAndRotates := by
  refine ⟨fun b w => ?asl, fun b w => ?lsr, fun b w => ?rol, fun b w => ?ror,
    shifts_of_shiftOperand (fun _ _ => rfl) fun _ _ => rfl, shifts_of_shiftOperand (fun _ _ => rfl) fun _ _ => rfl,
    shifts_of_shiftOperand (fun _ _ => rfl) fun _ _ => rfl, shifts_of_shiftOperand (fun _ _ => rfl) rotateRight_eq⟩
  all_goals and_intros <;> rfl

end Sys2Proof.Machine
end

section
/-! PROOFS. The statements of the loads, stores and transfers (45_load_store_transfer.md). The loads are operand reads with an
effect on one register; what every store does is said once, for any byte stored; a transfer is a register write and two
cycles. -/

namespace Sys2Proof.Machine

open Sys2Proof.Claims

/-! ## LDA, LDX and LDY -/

/-- Settles O19: LDA is `accumulate` with the operand alone; LDX and LDY read their operand and then set their register. -/
theorem loadsSetRegisterNegativeZero : Obligations.LoadsSetRegisterNegativeZero := by
  refine ⟨fun b w => ?accEncodings, fun b w => ?indexEncodings,
    readsOperand_of_accumulate (f := fun _ m => m) fun _ _ => rfl,
    readsOperand_of_readThen ⟨fun _ _ _ _ => rfl, fun _ _ => rfl⟩ fun _ _ => rfl,
    readsOperand_of_readThen ⟨fun _ _ _ _ => rfl, fun _ _ => rfl⟩ fun _ _ => rfl⟩
  all_goals and_intros <;> rfl

/-! ## STA, STX and STY -/

/-- Whatever answers the write: the cycles change, the one write follows the pointer reads, and memory and history aside all
else is as it was. -/
theorem storeRegister_eq (i : Instr) (m : MemOperand) (v : Byte) (s : State) :
    storeRegister i m v s = { s with
      cycleTotal := s.cycleTotal + cyclesOf i false
      mem := (storeRegister i m v s).mem
      history := .write (resolve m s).ea v :: (resolve m s).st.history } := by
  have hstore : SameButBus s (storeMem m v s) := sameButBus_trans (resolve_sameButBus m s) (busWrite_sameButBus _ _ _)
  exact congrArg (fun r : State => r.addCycles (cyclesOf i false)) hstore

/-- An instruction of that shape completes as `StoresByte` says. -/
theorem storesByte_of_storeRegister {k : MemOperand → Instr} {value : State → Byte}
    (hexec : ∀ m s, exec (k m) s = .next (storeRegister (k m) m (value s) s)) : StoresByte k value := by
  intro m s
  refine ⟨⟨_, hexec m s, storeRegister_eq (k m) m (value s) s⟩, fun hordinary => ?_⟩
  rw [resolve_ea_plain m s hordinary, hexec, storeRegister, storeMem_plain _ _ _ hordinary]
  exact ⟨_, rfl, rfl, rfl, memRead_memWrite_same _ _ _,
    fun _ hk => memRead_memWrite_other _ _ (hk _ List.mem_cons_self)⟩

/-- Settles O20: the three are `storeRegister` of their register. -/
theorem storesWriteRegister : Obligations.StoresWriteRegister := by
  refine ⟨fun b w => ?encodings, storesByte_of_storeRegister fun _ _ => rfl, storesByte_of_storeRegister fun _ _ => rfl,
    storesByte_of_storeRegister fun _ _ => rfl⟩
  case encodings => and_intros <;> rfl

/-! ## TAX, TAY, TXA, TYA, TSX and TXS -/

/-- What an instruction does before its cycles are added fixes its next state, when its table entry costs two cycles and has
no page penalty (R128). -/
theorem exec_eq_of_twoCycles {i : Instr} {s : State} (t : State)
    (hexec : exec i s = .next (t.addCycles (cyclesOf i false)))
    (hcost : (entryOf i).map (fun e => (e.baseCycles, e.pagePenalty)) = some (2, false)) :
    exec i s = .next { t with cycleTotal := t.cycleTotal + 2 } := by
  rw [hexec, cyclesOf_fixed hcost, State.addCycles]

/-- Settles O21: each transfer sets its register and, but for TXS, N and Z, and costs two cycles. -/
theorem transfersMoveRegisters : Obligations.TransfersMoveRegisters :=
  ⟨rfl, rfl, rfl, rfl, rfl, rfl, fun s =>
    ⟨exec_eq_of_twoCycles ((s.setX s.a).setZN s.a) rfl rfl, exec_eq_of_twoCycles ((s.setY s.a).setZN s.a) rfl rfl,
      exec_eq_of_twoCycles ((s.setA s.x).setZN s.x) rfl rfl, exec_eq_of_twoCycles ((s.setA s.y).setZN s.y) rfl rfl,
      exec_eq_of_twoCycles ((s.setX s.s).setZN s.s) rfl rfl, exec_eq_of_twoCycles (s.setS s.x) rfl rfl⟩⟩

end Sys2Proof.Machine
end

section
/-! PROOFS. The statements of the compares, increments and decrements (46_compare_incdec.md). The compares are operand reads
with an effect on the flags, said once for any register; INC and DEC are read-modify-writes of a memory byte; the index
register steps are a register write and two cycles. -/

namespace Sys2Proof.Machine

open Sys2Proof.Claims

/-! ## CMP, CPX and CPY -/

/-- N, Z and C of `Compare(register, m)` (R173). -/
def compareEffect (register : State → Byte) (m : Byte) (s : State) : State :=
  { s with p := s.p.setNZC (compareBytes (register s) m) }

/-- An instruction that compares a register, which the operand's read leaves alone, completes as `ReadsOperand` says. -/
theorem readsOperand_of_compareWith {k : ReadOperand → Instr} {register : State → Byte}
    (hregister : ∀ s mem history, register { s with mem := mem, history := history } = register s)
    (hexec : ∀ o s, exec (k o) s = .next (compareWith (k o) o register s)) : ReadsOperand k (compareEffect register) :=
  readsOperand_of_readThen ⟨fun m s mem history => by simp only [compareEffect, hregister], fun _ _ => rfl⟩ hexec

/-- Settles O22: the three are `compareWith` of their register. -/
theorem comparesSetNegativeZeroCarry : Obligations.ComparesSetNegativeZeroCarry := by
  refine ⟨fun b w => ?cmpEncodings, fun b w => ?cpxEncodings, fun b w => ?cpyEncodings,
    readsOperand_of_compareWith (register := State.a) (fun _ _ _ => rfl) fun _ _ => rfl,
    readsOperand_of_compareWith (register := State.x) (fun _ _ _ => rfl) fun _ _ => rfl,
    readsOperand_of_compareWith (register := State.y) (fun _ _ _ => rfl) fun _ _ => rfl⟩
  all_goals and_intros <;> rfl

/-! ## INC and DEC -/

/-- Settles O23: the two are read-modify-writes of one byte, whose function does not read the carry. -/
theorem incDecModifyMemory : Obligations.IncDecModifyMemory := by
  refine ⟨fun b w => ?incEncodings, fun b w => ?decEncodings, modifiesByte_of_modifyMem fun _ _ => rfl,
    modifiesByte_of_modifyMem fun _ _ => rfl⟩
  all_goals and_intros <;> rfl

/-! ## INX, INY, DEX and DEY -/

/-- Settles O24: each sets its register with N and Z, and costs two cycles. -/
theorem indexRegistersStep : Obligations.IndexRegistersStep :=
  ⟨rfl, rfl, rfl, rfl, fun s =>
    ⟨exec_eq_of_twoCycles ((s.setX (s.x + 1)).setZN (s.x + 1)) rfl rfl,
      exec_eq_of_twoCycles ((s.setY (s.y + 1)).setZN (s.y + 1)) rfl rfl,
      exec_eq_of_twoCycles ((s.setX (s.x - 1)).setZN (s.x - 1)) rfl rfl,
      exec_eq_of_twoCycles ((s.setY (s.y - 1)).setZN (s.y - 1)) rfl rfl⟩⟩

end Sys2Proof.Machine
end

section
/-! PROOFS. The statements of the branches, jumps, call and return (47_branch_jump_call.md). What the eight branches share is said
once, for any condition; a jump, the call and the return each set `PC` after what their bus accesses leave. -/

namespace Sys2Proof.Machine

open Sys2Proof.Claims

/-! ## The branches -/

/-- The extra cycles of R220 on top of the two base cycles: one when taken, one more for another page. -/
theorem takenCycles_eq (target next : Word) :
    2 + 1 + (if pagesDiffer target next then 1 else 0) = if hiByte target = hiByte next then 3 else 4 := by
  by_cases h : hiByte target = hiByte next
  · simp [pagesDiffer, h]
  · simp [pagesDiffer, h]

theorem branchOn_notTaken {i : Instr} (hcycles : cyclesOf i false = 2) (d : Byte) (s : State) :
    branchOn i false d s = { s with cycleTotal := s.cycleTotal + 2 } := by
  rw [← hcycles]
  rfl

theorem branchOn_taken {i : Instr} (hcycles : cyclesOf i false = 2) (d : Byte) (s : State) :
    branchOn i true d s = { s with
      pc := s.pc + d.signExtend 16
      cycleTotal := s.cycleTotal + (if hiByte (s.pc + d.signExtend 16) = hiByte s.pc then 3 else 4) } := by
  rw [← takenCycles_eq, ← hcycles]
  rfl

/-- An instruction that is `branchOn` of its condition, and whose table entry costs two cycles, completes as `Branches` says. -/
theorem branches_of_branchOn {k : Byte → Instr} {op : Byte} {cond : State → Bool}
    (hencode : ∀ d, encode (k d) = some [op, d])
    (hcost : ∀ d, (entryOf (k d)).map (fun e => (e.baseCycles, e.pagePenalty)) = some (2, false))
    (hexec : ∀ d s, exec (k d) s = .next (branchOn (k d) (cond s) d s)) : Branches k op cond := by
  intro d s
  have hcycles : cyclesOf (k d) false = 2 := cyclesOf_fixed (hcost d)
  refine ⟨hencode d, fun hcond => ?notTaken, fun hcond => ?taken⟩
  case notTaken => rw [hexec, hcond, branchOn_notTaken hcycles]
  case taken => rw [hexec, hcond, branchOn_taken hcycles]

/-- Settles O25: the eight are `branchOn` of their flag. -/
theorem branchesFollowTheirFlag : Obligations.BranchesFollowTheirFlag := by
  and_intros <;> exact branches_of_branchOn (fun _ => rfl) (fun _ => rfl) (fun _ _ => rfl)

/-! ## JMP -/

/-- Finding a jump's target changes no register, whatever answers the pointer reads (R147, R150). -/
theorem resolveJump_sameButBus (o : JumpOperand) (s : State) : SameButBus s (resolveJump o s).2 := by
  cases o with
  | abs w => rfl
  | ind p => exact (readPair_reads p (wordOf (hiByte p) (loByte p + 1)) s).1

/-- Whatever answers the pointer reads, a jump sets `PC` to its target and adds its cycles. -/
theorem exec_jmp_eq (o : JumpOperand) (s : State) :
    exec (.jmp o) s = .next { s with
      pc := (resolveJump o s).1
      cycleTotal := s.cycleTotal + cyclesOf (.jmp o) false
      mem := (resolveJump o s).2.mem
      history := (resolveJump o s).2.history } :=
  congrArg (fun r : State => Host.Outcome.next ((r.setPc (resolveJump o s).1).addCycles (cyclesOf (.jmp o) false)))
    (resolveJump_sameButBus o s)

/-- Settles O26: the absolute operand is the target, and the indirect one points at it, with plain reads over ordinary memory. -/
theorem jumpSetsPc : Obligations.JumpSetsPc := by
  intro w s
  have habs : cyclesOf (.jmp (.abs w)) false = 3 := cyclesOf_fixed rfl
  have hind : cyclesOf (.jmp (.ind w)) false = 5 := cyclesOf_fixed rfl
  refine ⟨rfl, rfl, ?absolute, ?indirect, fun hordinary => ?ordinary⟩
  case absolute => rw [exec_jmp_eq, habs]; rfl
  case indirect => rw [exec_jmp_eq, hind]; rfl
  case ordinary => rw [exec_jmp_eq, hind, resolveJump, readWordPageWrap, readPair_plain _ _ _ hordinary]; rfl

/-! ## JSR -/

/-- Whatever answers the two writes: `S` moves by two, the writes join the history, and memory aside all else is as it was. -/
theorem pushWord_eq (w : Word) (s : State) :
    pushWord w s = { s with
      s := s.s - 2
      mem := (pushWord w s).mem
      history := .write (stackAddr (s.s - 1)) (loByte w) :: .write (stackAddr s.s) (hiByte w) :: s.history } := by
  have hs : s.s - 2 = s.s - 1 - 1 := by bv_omega
  rw [hs]
  rfl

/-- In the memory that the push leaves, when it is ordinary, the two stack bytes, which are different bytes at every `S`, hold
the pushed word, and no other byte changes. -/
theorem pushWord_stores {w : Word} {s t : State} (hmem : t.mem = (pushWord w s).mem)
    (h : Ordinary s [stackAddr s.s, stackAddr (s.s - 1)]) :
    plainByte t (stackAddr s.s) = hiByte w ∧ plainByte t (stackAddr (s.s - 1)) = loByte w ∧
      SameMemoryBut [stackAddr s.s, stackAddr (s.s - 1)] s t := by
  have hdistinct : s.s ≠ s.s - 1 := by bv_omega
  rw [pushWord_ordinary w s (h _ (by simp)) (h _ (by simp))] at hmem
  rw [plainByte, plainByte, SameMemoryBut, hmem]
  refine ⟨?top, memRead_memWrite_same _ _ _, fun k hk => ?others⟩
  case top => exact (memRead_memWrite_other _ _ (stackAddr_ne hdistinct)).trans (memRead_memWrite_same _ _ _)
  case others =>
    exact (memRead_memWrite_other _ _ (hk _ (by simp))).trans (memRead_memWrite_other _ _ (hk _ (by simp)))

/-- Settles O27: JSR pushes the address of its last byte and then sets `PC`, which leaves the pushed bytes alone. -/
theorem jsrPushesReturnAddress : Obligations.JsrPushesReturnAddress := by
  intro w s top low
  have hcycles : cyclesOf (.jsr w) false = 6 := cyclesOf_fixed rfl
  refine ⟨rfl, _, rfl, ?registers, pushWord_stores rfl⟩
  case registers =>
    rw [← hcycles]
    exact congrArg (fun r : State => (r.setPc w).addCycles (cyclesOf (.jsr w) false)) (pushWord_eq (s.pc - 1) s)

/-! ## RTS -/

/-- Whatever answers the two reads: `S` moves by two, the reads join the history, and memory aside all else is as it was. -/
theorem pullWord_eq (s : State) :
    (pullWord s).2 = { s with
      s := s.s + 2
      mem := (pullWord s).2.mem
      history := .read (stackAddr (s.s + 2)) (pull (pull s).2).1 :: .read (stackAddr (s.s + 1)) (pull s).1 :: s.history } := by
  have hs : s.s + 2 = s.s + 1 + 1 := by bv_omega
  rw [hs]
  rfl

/-- Settles O28: RTS pulls a word and sets `PC` to the one after it; over ordinary memory the word is the plain one. -/
theorem rtsReturnsPastPulledWord : Obligations.RtsReturnsPastPulledWord := by
  refine ⟨rfl, fun s => ?_⟩
  intro lo hi
  have hcycles : cyclesOf .rts false = 6 := cyclesOf_fixed rfl
  refine ⟨⟨_, (pull s).1, (pull (pull s).2).1, rfl, ?anyAnswer⟩, fun hordinary => ?ordinary⟩
  case anyAnswer =>
    rw [← hcycles]
    exact congrArg (fun r : State => (r.setPc ((pullWord s).1 + 1)).addCycles (cyclesOf .rts false)) (pullWord_eq s)
  case ordinary =>
    have hexec : exec .rts s = .next (((pullWord s).2.setPc ((pullWord s).1 + 1)).addCycles (cyclesOf .rts false)) := rfl
    rw [hexec, hcycles, pullWord_ordinary s (hordinary lo (by simp)) (hordinary hi (by simp))]
    rfl

end Sys2Proof.Machine
end

section
/-! PROOFS. The statements of the stack and flag instructions (48_stack_flags.md). What one push and one pull do is said once,
whatever answers the access; each instruction adds its register writes and its cycles. -/

namespace Sys2Proof.Machine

open Sys2Proof.Claims

/-! ## PHA and PHP -/

/-- Whatever answers the write: `S` moves by one, the write joins the history, and memory aside all else is as it was (R82). -/
theorem push_eq (v : Byte) (s : State) :
    push v s = { s with
      s := s.s - 1
      mem := (push v s).mem
      history := .write (stackAddr s.s) v :: s.history } := rfl

/-- In the memory that the push leaves, when it is ordinary, the stack byte holds the pushed byte, and no other byte changes. -/
theorem push_stores {v : Byte} {s t : State} (hmem : t.mem = (push v s).mem) (h : Ordinary s [stackAddr s.s]) :
    plainByte t (stackAddr s.s) = v ∧ SameMemoryBut [stackAddr s.s] s t := by
  rw [push_ordinary v s (h _ List.mem_cons_self)] at hmem
  rw [plainByte, SameMemoryBut, hmem]
  exact ⟨memRead_memWrite_same _ _ _, fun k hk => memRead_memWrite_other _ _ (hk _ List.mem_cons_self)⟩

/-- An instruction that pushes a byte and costs three cycles. -/
theorem exec_of_push {i : Instr} {v : Byte} {s : State} (hexec : exec i s = .next ((push v s).addCycles (cyclesOf i false)))
    (hcycles : cyclesOf i false = 3) :
    ∃ t, exec i s = .next t ∧
      t = { s with
        s := s.s - 1
        cycleTotal := s.cycleTotal + 3
        mem := t.mem
        history := .write (stackAddr s.s) v :: s.history } ∧
      (Ordinary s [stackAddr s.s] → plainByte t (stackAddr s.s) = v ∧ SameMemoryBut [stackAddr s.s] s t) := by
  rw [hcycles] at hexec
  exact ⟨_, hexec, congrArg (fun r : State => r.addCycles 3) (push_eq v s), push_stores rfl⟩

/-- Settles O30: both instructions are one push. -/
theorem pushesWriteStack : Obligations.PushesWriteStack :=
  ⟨rfl, rfl, fun _ => ⟨exec_of_push rfl (cyclesOf_fixed rfl), exec_of_push rfl (cyclesOf_fixed rfl)⟩⟩

/-! ## PLA and PLP -/

/-- Whatever answers the read: `S` moves by one, the read joins the history, and A, N and Z take the byte (R83, R237). -/
theorem exec_pla_eq (s : State) :
    exec .pla s = .next { s with
      a := (pull s).1
      s := s.s + 1
      p := flagsNZ (pull s).1 s.p
      cycleTotal := s.cycleTotal + 4
      mem := (pull s).2.mem
      history := .read (stackAddr (s.s + 1)) (pull s).1 :: s.history } := by
  have hcycles : cyclesOf .pla false = 4 := cyclesOf_fixed rfl
  rw [← hcycles]
  rfl

/-- Whatever answers the read: `S` moves by one, the read joins the history, and `P` takes the byte (R83, R238). -/
theorem exec_plp_eq (s : State) :
    exec .plp s = .next { s with
      s := s.s + 1
      p := unpackP (pull s).1
      cycleTotal := s.cycleTotal + 4
      mem := (pull s).2.mem
      history := .read (stackAddr (s.s + 1)) (pull s).1 :: s.history } := by
  have hcycles : cyclesOf .plp false = 4 := cyclesOf_fixed rfl
  rw [← hcycles]
  rfl

/-- Settles O31: both instructions are one pull; over ordinary memory the byte pulled is the plain one and memory stays. -/
theorem pullsReadStack : Obligations.PullsReadStack := by
  refine ⟨rfl, rfl, fun s => ⟨⟨_, _, exec_pla_eq s, rfl⟩, ⟨_, _, exec_plp_eq s, rfl⟩, fun hordinary => ?_⟩⟩
  have hpull := pull_ordinary s (hordinary _ List.mem_cons_self)
  rw [exec_pla_eq, exec_plp_eq, hpull]
  exact ⟨rfl, rfl⟩

/-! ## A pull after a push -/

/-- Settles O32: the pull reads the address that the push wrote, at every `S`. -/
theorem pullUndoesPush : Obligations.PullUndoesPush := by
  intro v s hordinary
  obtain ⟨hstored, -⟩ := push_stores rfl hordinary
  have hs : (push v s).s + 1 = s.s := by rw [push_s, BitVec.sub_add_cancel]
  have hdevice : (push v s).deviceAt (stackAddr ((push v s).s + 1)) = none := by
    rw [hs]
    exact hordinary _ List.mem_cons_self
  have hpull := pull_ordinary (push v s) hdevice
  rw [hs] at hpull
  refine ⟨stackAddr_toNat s.s, hstored, push_s v s, ?_⟩
  rw [hpull]
  exact ⟨hstored, by simp, by simp⟩

/-! ## CLC, SEC, CLI, SEI, CLV, CLD and SED -/

/-- Settles O33: each sets `P` with the one flag changed, and costs two cycles. -/
theorem flagInstructionsChangeOneFlag : Obligations.FlagInstructionsChangeOneFlag :=
  ⟨rfl, rfl, rfl, rfl, rfl, rfl, rfl, fun s =>
    ⟨exec_eq_of_twoCycles (s.setP { s.p with c := false }) rfl rfl,
      exec_eq_of_twoCycles (s.setP { s.p with c := true }) rfl rfl,
      exec_eq_of_twoCycles (s.setP { s.p with i := false }) rfl rfl,
      exec_eq_of_twoCycles (s.setP { s.p with i := true }) rfl rfl,
      exec_eq_of_twoCycles (s.setP { s.p with v := false }) rfl rfl,
      exec_eq_of_twoCycles (s.setP { s.p with d := false }) rfl rfl,
      exec_eq_of_twoCycles (s.setP { s.p with d := true }) rfl rfl⟩⟩

end Sys2Proof.Machine
end

section
/-! PROOFS. The statements of BRK, RTI, NOP and the undefined bytes (49_brk_rti_nop_undefined.md). The entry that BRK shares with
IRQ and NMI is said once, for any vector, pushed bit 4 and cycle count. -/

namespace Sys2Proof.Machine

open Sys2Proof.Claims

/-! ## The entry into a handler -/

/-- Over an ordinary stack and vector: the three stack bytes, which are different bytes at every `S`, hold what was pushed, the
vector is read after the pushes, and no other byte changes. -/
theorem enterHandler_stores {vector : Word} {b : Bool} {s t : State} (hpc : t.pc = (enterHandler vector b s).pc)
    (hmem : t.mem = (enterHandler vector b s).mem)
    (h : Ordinary s [stackAddr s.s, stackAddr (s.s - 1), stackAddr (s.s - 2), vector, vector + 1]) :
    plainByte t (stackAddr s.s) = hiByte s.pc ∧ plainByte t (stackAddr (s.s - 1)) = loByte s.pc ∧
      plainByte t (stackAddr (s.s - 2)) = packP b s.p ∧ t.pc = plainWord t vector (vector + 1) ∧
      SameMemoryBut [stackAddr s.s, stackAddr (s.s - 1), stackAddr (s.s - 2)] s t := by
  have hmid : s.s ≠ s.s - 1 := by bv_omega
  have hlow : s.s ≠ s.s - 2 := by bv_omega
  have hmidLow : s.s - 1 ≠ s.s - 2 := by bv_omega
  rw [enterHandler_ordinary vector b s (h _ (by simp)) (h _ (by simp)) (h _ (by simp)) (h _ (by simp))
    (h _ (by simp))] at hpc hmem
  rw [hpc, plainWord, plainByte, plainByte, plainByte, plainByte, plainByte, SameMemoryBut, hmem]
  refine ⟨?top, ?mid, memRead_memWrite_same _ _ _, rfl, fun k hk => ?others⟩
  case top =>
    rw [memRead_memWrite_other _ _ (stackAddr_ne hlow), memRead_memWrite_other _ _ (stackAddr_ne hmid),
      memRead_memWrite_same]
  case mid => rw [memRead_memWrite_other _ _ (stackAddr_ne hmidLow), memRead_memWrite_same]
  case others =>
    rw [memRead_memWrite_other _ _ (hk _ (by simp)), memRead_memWrite_other _ _ (hk _ (by simp)),
      memRead_memWrite_other _ _ (hk _ (by simp))]

/-- The shared entry, with its cycles, is what `EntersHandler` says. -/
theorem enterHandler_entersHandler (vector : Word) (b : Bool) (cycles : Nat) (s : State) :
    EntersHandler vector b cycles s ((enterHandler vector b s).addCycles cycles) := by
  obtain ⟨ha, hx, hy, hs, hp, hfsm, hnmi, hirq, hcycles, hwindows, hparams⟩ := enterHandler_registers vector b s
  refine ⟨?registers, enterHandler_history vector b s, enterHandler_stores rfl rfl⟩
  exact State.eq_of_fields ha hx hy hs rfl hp hfsm hnmi hirq (congrArg (· + cycles) hcycles) rfl hwindows rfl hparams

/-! ## BRK -/

/-- Over ordinary memory an instruction without operand bytes is fetched with the one opcode read. -/
theorem fetch_opcodeOnly {s : State} {op : Byte} {i : Instr} (hordinary : Ordinary s [s.pc]) (hbyte : plainByte s s.pc = op)
    (hcount : ∀ policy, fetchCount (decodeEntry op) policy = 0)
    (hassemble : ∀ b1 b2, assemble (decodeEntry op) op b1 b2 = some i) :
    fetch s = ⟨i, { s with
      pc := s.pc + BitVec.ofNat 16 (decodeEntry op).length
      history := .read s.pc op :: s.history }⟩ := by
  subst hbyte
  have haddrs : fetchAddrs s = [s.pc] := by rw [fetchAddrs, hcount]; rfl
  have hnone : (decodeEntry (plainByte s s.pc)).operandCount = 0 :=
    Nat.le_zero.mp (hcount .report ▸ operandCount_le_fetchCount _ _)
  rw [fetch_plain s i _ (haddrs ▸ hordinary) (decode_eq _ _ i (hnone ▸ Nat.zero_le _) (hassemble _ _)), haddrs]
  rfl

/-- BRK's decode entry takes no operand byte, and its length covers the padding byte (R124). -/
theorem decode_brk (next : List Byte) : decode (0x00 :: next) = .ok .brk (next.drop 1) :=
  decode_eq 0x00 next .brk (Nat.zero_le _) rfl

/-- Settles O35: the fetch of BRK reads the opcode byte alone, and BRK is the entry through 0xFFFE. -/
theorem brkEntersBreakHandler : Obligations.BrkEntersBreakHandler := by
  refine ⟨fun s next hordinary hbyte => ?fetched, fun s => ?entry⟩
  case fetched =>
    rw [fetch_opcodeOnly hordinary hbyte (fun policy => by cases policy <;> rfl) fun _ _ => rfl]
    exact ⟨decode_brk next, rfl, rfl⟩
  case entry =>
    have hcycles : cyclesOf .brk false = 7 := cyclesOf_fixed rfl
    exact ⟨_, rfl, hcycles ▸ enterHandler_entersHandler irqBrkVector true _ s⟩

/-! ## RTI -/

/-- Settles O36: RTI is the shared return and six cycles. -/
theorem rtiRestoresStatusAndPc : Obligations.RtiRestoresStatusAndPc := by
  refine ⟨rfl, fun s => ?_⟩
  intro p1 p2 p3
  have hexec : exec .rti s = .next ((returnFromHandler s).addCycles 6) := by
    have hcycles : cyclesOf .rti false = 6 := cyclesOf_fixed rfl
    rw [← hcycles]
    rfl
  rw [hexec]
  refine ⟨?anyAnswer, fun hordinary => ?ordinary⟩
  case anyAnswer =>
    obtain ⟨v, vl, vh, hp, hpc, hhistory⟩ := returnFromHandler_history s
    obtain ⟨ha, hx, hy, hs, -, hfsm, hnmi, hirq, hcycles, hwindows, hparams⟩ := returnFromHandler_registers s
    exact ⟨_, v, vl, vh, rfl, State.eq_of_fields ha hx hy hs hpc hp hfsm hnmi hirq (congrArg (· + 6) hcycles) rfl hwindows
      hhistory hparams⟩
  case ordinary =>
    rw [returnFromHandler_ordinary s (hordinary p1 (by simp)) (hordinary p2 (by simp)) (hordinary p3 (by simp))]
    rfl

/-! ## NOP -/

theorem exec_nop_eq (s : State) : exec .nop s = .next { s with cycleTotal := s.cycleTotal + 2 } :=
  exec_eq_of_twoCycles s rfl rfl

/-- Settles O38: NOP's meaning is its two cycles, and its fetch reads the opcode byte alone. -/
theorem nopAdvancesPcOnly : Obligations.NopAdvancesPcOnly := by
  refine ⟨rfl, exec_nop_eq, fun s hfetches hordinary hbyte => ?_⟩
  rw [step_fetches s hfetches, fetch_opcodeOnly hordinary hbyte (fun policy => by cases policy <;> rfl) fun _ _ => rfl]
  exact exec_nop_eq _

/-! ## Undefined bytes -/

/-- Settles O39: the step makes the one opcode read, which changes no register. -/
theorem undefinedByteIsReported : Obligations.UndefinedByteIsReported := by
  intro s hfetches hpolicy hundefined op
  have hstep := step_report s hfetches hpolicy hundefined
  refine ⟨_, hstep, hostStep_illegalOpcode hstep, rfl, fun hordinary => ?_⟩
  have hread := busRead_ordinary s.pc s (hordinary _ List.mem_cons_self)
  exact ⟨congrArg Prod.fst hread, congrArg Prod.snd hread⟩

/-- R254: under `Nop` the meaning of an undefined byte is its cycles. -/
theorem exec_undefined_nop (op : Byte) {s : State} (h : s.params.undefinedPolicy = .nop) :
    exec (.undefined op) s = .next { s with cycleTotal := s.cycleTotal + Config.undefNopCycles op } := by
  simp only [exec, execUndefined, h]
  rfl

/-- BRK's byte is official, so no undefined byte is the exception to the fetch unit's count. -/
theorem fetchCount_undefined_nop {op : Byte} (h : (decodeEntry op).defined = false) :
    fetchCount (decodeEntry op) .nop = (decodeEntry op).length - 1 := by
  have hbrk : op ≠ 0x00 := by
    rintro rfl
    exact absurd h (by decide)
  rw [fetchCount_eq, if_neg (not_or.mpr ⟨hbrk, by simp⟩)]

theorem decodeEntry_length_bounds (op : Byte) : 1 ≤ (decodeEntry op).length ∧ (decodeEntry op).length ≤ 3 := by
  rw [decodeEntry_length]
  split
  · decide
  · cases (decodeEntry op).mode <;> decide

/-- Settles O40: the fetch reads the nominal bytes, and the meaning adds the cycles. -/
theorem undefinedByteIsSkipped : Obligations.UndefinedByteIsSkipped := by
  refine ⟨fun op s hpolicy => exec_undefined_nop op hpolicy, ?anyAnswer, ?ordinary⟩
  case anyAnswer =>
    intro s hfetches hpolicy hundefined op
    refine ⟨(fetchOperands s).1, (fetch s).st.mem, ?_, ?_⟩
    · rw [fetchOperands, fetchBytes_length, hpolicy, fetchCount_undefined_nop hundefined]
    · rw [step_fetches s hfetches, fetch_undefined s hundefined, fetch_st_eq]
      exact exec_undefined_nop op hpolicy
  case ordinary =>
    intro s hfetches hpolicy op e hundefined hordinary
    obtain ⟨hcount, hassemble⟩ := assemble_undefined op hundefined
    have haddrs : fetchAddrs s = consecutive s.pc e.length := by
      rw [fetchAddrs, hpolicy, fetchCount_undefined_nop hundefined, Nat.add_sub_cancel' (decodeEntry_length_bounds op).1]
    have hdecode := decode_eq op [plainByte s (s.pc + 1), plainByte s (s.pc + 2)] (.undefined op)
      (hcount ▸ Nat.zero_le _) (hassemble _ _)
    rw [stepRunsTheInstructionAtPc.2 s _ _ hfetches (haddrs ▸ hordinary) hdecode, haddrs]
    exact exec_undefined_nop op hpolicy

end Sys2Proof.Machine
end

section
/-! PROOFS. The statements of the exceptions (60_exceptions.md): the order of the interrupt check, what an entry saves, that an RTI
undoes it, when a step stops, and that the host's inputs are the host's. -/

namespace Sys2Proof.Machine

open Sys2Proof.Claims

/-! ## The interrupt entry -/

/-- Settles O7: the entry of IRQ and NMI is the shared one, with `INT_PUSH_B` as bit 4. -/
theorem interruptEntrySavesAndVectors : Obligations.InterruptEntrySavesAndVectors :=
  fun vector s => enterHandler_entersHandler vector s.params.intPushB interruptCycles s

/-! ## The order of the interrupt check -/

/-- The NMI is taken first, whatever `P.I` is, and its latch is cleared (R261). -/
theorem step_nmi {s : State} (hready : s.fsm = .ready) (hnmi : s.nmiPending = true) :
    step s = .next (interruptEntry s.params.nmiVector s.clearNmi) := by
  rw [step_ready s hready, interruptCheck, if_pos hnmi]

/-- The IRQ is taken when no NMI is pending and `P.I` is 0 (R261, R266). -/
theorem step_irq {s : State} (hready : s.fsm = .ready) (hnmi : s.nmiPending = false) (hirq : s.irqLine = true)
    (hmask : s.p.i = false) : step s = .next (interruptEntry irqBrkVector s) := by
  simp [step_ready s hready, interruptCheck, hnmi, hirq, hmask]

/-- Without an NMI, an absent or masked IRQ leaves the step to the fetch. -/
theorem fetches_of_noInterrupt {s : State} (hready : s.fsm = .ready) (hnmi : s.nmiPending = false)
    (hirq : s.irqLine = false ∨ s.p.i = true) : Fetches s := by
  refine ⟨hready, ?_⟩
  rintro (hpending | ⟨hline, hmask⟩)
  · exact Bool.noConfusion (hnmi.symm.trans hpending)
  · rcases hirq with hirq | hirq
    · exact Bool.noConfusion (hirq.symm.trans hline)
    · exact Bool.noConfusion (hmask.symm.trans hirq)

/-- Settles O6, case by case of the check. -/
theorem interruptCheckOrder : Obligations.InterruptCheckOrder := fun s hready =>
  ⟨fun hnmi => ⟨_, step_nmi hready hnmi, interruptEntrySavesAndVectors s.params.nmiVector s.clearNmi⟩,
    fun hnmi hirq hmask => ⟨_, step_irq hready hnmi hirq hmask, interruptEntrySavesAndVectors irqBrkVector s⟩,
    fun hnmi hirq => step_fetches s (fetches_of_noInterrupt hready hnmi hirq)⟩

/-- Settles O8: no instruction changes the FSM or the host's inputs, so the next boundary is the check's second or third case. -/
theorem interruptMaskActsAtNextBoundary : Obligations.InterruptMaskActsAtNextBoundary := by
  intro i s t hready hnmi hirq _ hexec
  obtain ⟨hfsm, hpending, hline, -, -, -⟩ := exec_keeps i s t hexec
  obtain ⟨-, irqEntry, fetches⟩ := interruptCheckOrder t (hfsm.trans hready)
  refine ⟨irqEntry (hpending.trans hnmi) (hline.trans hirq), fun hmask => fetches (hpending.trans hnmi) (.inr hmask),
    ?cli, ?sei⟩
  case cli => rintro rfl; cases hexec; rfl
  case sei => rintro rfl; cases hexec; rfl

/-! ## An RTI after an entry -/

/-- Settles O37: the entry leaves the status byte and `PC` in the three stack bytes below the old `S`, and RTI, whose pulls start
where the pushes ended, reads them back. -/
theorem rtiAfterEntryRestores : Obligations.RtiAfterEntryRestores := by
  intro vector s hordinary
  obtain ⟨hregisters, -, hstores⟩ := interruptEntrySavesAndVectors vector s
  obtain ⟨htop, hmid, hlow, -, -⟩ := hstores hordinary
  generalize interruptEntry vector s = t at *
  have hs : t.s = s.s - 3 := by rw [hregisters]
  have hlowAddr : t.s + 1 = s.s - 2 := by bv_omega
  have hmidAddr : t.s + 2 = s.s - 1 := by bv_omega
  have htopAddr : t.s + 3 = s.s := by bv_omega
  have hdevice : ∀ w, t.deviceAt w = s.deviceAt w := fun w => by rw [hregisters]; rfl
  have hreturn := (rtiRestoresStatusAndPc.2 t).2
  rw [hlowAddr, hmidAddr, htopAddr] at hreturn
  have ha : t.a = s.a := by rw [hregisters]
  have hx : t.x = s.x := by rw [hregisters]
  have hy : t.y = s.y := by rw [hregisters]
  refine ⟨_, hreturn fun w hw => ?ordinary, ?counter, rfl, ?status, ha, hx, hy⟩
  case ordinary => exact (hdevice w).trans (hordinary w (by simp at hw ⊢; tauto))
  case counter => rw [plainWord, htop, hmid, wordOf_halves]
  case status => rw [hlow, unpackP_packP]

/-! ## Where a step stops -/

/-- Every instruction but an undefined byte completes. -/
theorem exec_official_next {i : Instr} (hofficial : ∀ op, i ≠ .undefined op) (s : State) : ∃ t, exec i s = .next t := by
  cases hexec : exec i s with
  | next t => exact ⟨t, rfl⟩
  | fault r =>
    obtain ⟨op, rfl, -⟩ := exec_fault i s r hexec
    exact absurd rfl (hofficial op)
  | refused r => exact absurd hexec (exec_not_refused i s r)

/-- NotReset is reported before the first reset only (R121). -/
theorem powerOn_of_step_notReset {s : State} (h : step s = .fault .notReset) : s.fsm = .powerOn := by
  cases hfsm : s.fsm with
  | powerOn => rfl
  | ready =>
    rw [step_ready s hfsm] at h
    split at h
    · cases h
    · obtain ⟨op, -, -, hreport⟩ := exec_fault _ _ _ h
      cases hreport

/-- Settles O52: an official instruction completes, and the two reports are those of R121 and R253. -/
theorem officialInstructionsNeverFail : Obligations.OfficialInstructionsNeverFail := by
  refine ⟨fun i s hofficial => exec_official_next hofficial s, fun s => ?_⟩
  cases hstep : step s with
  | next t => exact .inl ⟨t, hstep⟩
  | refused r => exact absurd hstep (step_not_refused s r)
  | fault r =>
    cases r with
    | notReset => exact .inr (.inl ⟨powerOn_of_step_notReset hstep, rfl⟩)
    | illegalOpcode op pc t =>
      obtain ⟨hfetches, hpolicy, hundefined, rfl, hread⟩ := step_illegalOpcode hstep
      obtain ⟨rfl, rfl⟩ := Prod.mk.inj hread
      exact .inr (.inr ⟨hfetches, hpolicy, hundefined, rfl⟩)

/-! ## The host's inputs -/

/-- What `Keeps` says of the host's inputs. -/
theorem hostInputs_of_keeps {s t : State} (h : Keeps s t) (hnmi : s.nmiPending = false) :
    t.irqLine = s.irqLine ∧ t.windows = s.windows ∧ t.params = s.params ∧ t.nmiPending = false := by
  obtain ⟨-, hpending, hirq, hwindows, hparams, -⟩ := h
  exact ⟨hirq, hwindows, hparams, hpending.trans hnmi⟩

theorem nmiPending_of_fetches {s : State} (h : Fetches s) : s.nmiPending = false :=
  Bool.eq_false_iff.mpr fun hnmi => h.2 (.inl hnmi)

theorem keeps_trans {s t u : State} (h : Keeps s t) (k : Keeps t u) : Keeps s u := by
  obtain ⟨h1, h2, h3, h4, h5, h6⟩ := h
  obtain ⟨k1, k2, k3, k4, k5, k6⟩ := k
  exact ⟨k1.trans h1, k2.trans h2, k3.trans h3, k4.trans h4, k5.trans h5, k6 ∘ h6⟩

/-- Settles O56: the NMI entry clears the latch; every other way a step leaves a state starts with the latch clear, and is made of
operations that keep the host's inputs. -/
theorem hostInputsChangeOnlyByHost : Obligations.HostInputsChangeOnlyByHost := by
  intro s t h
  obtain ⟨hready, hways⟩ := leaves_cases s t h
  have hinputs : t.irqLine = s.irqLine ∧ t.windows = s.windows ∧ t.params = s.params ∧ t.nmiPending = false := by
    obtain hint | ⟨hfetches, hexec⟩ | ⟨hfetches, -, -, -, rfl⟩ := hways
    · obtain ⟨-, rfl⟩ | ⟨hnmi, -, -, rfl⟩ := interruptCheck_cases hint
      · exact hostInputs_of_keeps (s := s.clearNmi) (interruptEntry_keeps _ s.clearNmi) rfl
      · exact hostInputs_of_keeps (interruptEntry_keeps _ s) hnmi
    · exact hostInputs_of_keeps (keeps_trans (fetch_keeps s) (exec_keeps _ _ _ hexec)) (nmiPending_of_fetches hfetches)
    · exact hostInputs_of_keeps (busRead_keeps s.pc s) (nmiPending_of_fetches hfetches)
  obtain ⟨hirq, hwindows, hparams, hnmi⟩ := hinputs
  exact ⟨hirq, hwindows, hparams, hnmi, step_nmi hready⟩

end Sys2Proof.Machine
end

section
/-! PROOFS. Two laws of the machine as a whole: that an RTS undoes a JSR (47_branch_jump_call.md), and that a memory in canonical
form is determined by what it reads as (20_memory.md). -/

namespace Sys2Proof.Machine

open Sys2Proof.Claims

/-! ## An RTS after a JSR -/

/-- Settles O29: JSR leaves the address before the return address in the two stack bytes below the old `S`, and RTS, whose pulls
start where the pushes ended, reads it back and adds 1. -/
theorem rtsAfterJsrReturns : Obligations.RtsAfterJsrReturns := by
  intro w s t hordinary hexec
  obtain ⟨-, t', hexec', hregisters, hstores⟩ := jsrPushesReturnAddress w s
  obtain rfl : t = t' := by rw [hexec] at hexec'; injection hexec'
  obtain ⟨htop, hlow, -⟩ := hstores hordinary
  have hs : t.s = s.s - 2 := by rw [hregisters]
  have hlowAddr : t.s + 1 = s.s - 1 := by bv_omega
  have htopAddr : t.s + 2 = s.s := by bv_omega
  have hdevice : ∀ w, t.deviceAt w = s.deviceAt w := fun w => by rw [hregisters]; rfl
  have ha : t.a = s.a := by rw [hregisters]
  have hx : t.x = s.x := by rw [hregisters]
  have hy : t.y = s.y := by rw [hregisters]
  have hp : t.p = s.p := by rw [hregisters]
  have hreturn := (rtsReturnsPastPulledWord.2 t).2
  rw [hlowAddr, htopAddr] at hreturn
  refine ⟨_, hreturn fun v hv => ?ordinary, ?counter, rfl, ha, hx, hy, hp, rfl⟩
  case ordinary => exact (hdevice v).trans (hordinary v (by simp at hv ⊢; tauto))
  case counter => rw [plainWord, htop, hlow, wordOf_halves, BitVec.sub_add_cancel]

/-! ## Canonical memories -/

/-- An address that no pair of the list has reads as unlisted. -/
theorem memRead_absent {m : Memory} {k : Nat} (h : ∀ c ∈ m, c.1 ≠ k) : memRead m k = unlistedByte := by
  induction m with
  | nil => rfl
  | cons c rest ih =>
    rw [memRead, if_neg (h c List.mem_cons_self)]
    exact ih fun d hd => h d (List.mem_cons_of_mem c hd)

theorem memRead_head (c : Host.Cell) (rest : Memory) : memRead (c :: rest) c.1 = c.2 := if_pos rfl

/-- In the canonical form no pair is below the first. -/
theorem le_of_memRead_ne {c : Host.Cell} {rest : Memory} {k : Nat} (hwf : Memory.wf (c :: rest) = true)
    (h : memRead (c :: rest) k ≠ unlistedByte) : c.1 ≤ k := by
  obtain ⟨-, -, habove, -⟩ := (memWf_cons c rest).mp hwf
  by_contra hlt
  refine h (memRead_absent fun d hd => ?_)
  rcases List.mem_cons.mp hd with rfl | hd
  · omega
  · have := habove d hd
    omega

/-- The rest of a canonical list reads as the list does, but for the first pair's address, which is unlisted there. -/
theorem memRead_tail {c : Host.Cell} {rest : Memory} (hwf : Memory.wf (c :: rest) = true) (k : Nat) :
    memRead rest k = if k = c.1 then unlistedByte else memRead (c :: rest) k := by
  obtain ⟨-, -, habove, -⟩ := (memWf_cons c rest).mp hwf
  split
  · next hk => exact memRead_absent fun d hd => hk ▸ (habove d hd).ne'
  · next hk => rw [memRead, if_neg (Ne.symm hk)]

/-- A canonical list that reads as unlisted everywhere is empty. -/
theorem eq_nil_of_memRead {m : Memory} (hwf : Memory.wf m = true) (h : ∀ k, memRead m k = unlistedByte) : m = [] := by
  cases m with
  | nil => rfl
  | cons c rest =>
    obtain ⟨-, hlisted, -, -⟩ := (memWf_cons c rest).mp hwf
    exact absurd ((memRead_head c rest).symm.trans (h c.1)) hlisted

/-- Settles O45, by induction on the list: the first pairs have the same address, since each list reads as listed at its own
first address, and then the same byte; the rests read alike. -/
theorem canonicalMemoriesEqualIfReadAlike : Obligations.CanonicalMemoriesEqualIfReadAlike := by
  intro m
  induction m with
  | nil => exact fun n _ hn h => (eq_nil_of_memRead hn fun k => (h k).symm).symm
  | cons c ms ih =>
    intro n hm hn h
    cases n with
    | nil => exact eq_nil_of_memRead hm h
    | cons d ns =>
      obtain ⟨-, hc, -, hms⟩ := (memWf_cons c ms).mp hm
      obtain ⟨-, hd, -, hns⟩ := (memWf_cons d ns).mp hn
      have hdc : d.1 ≤ c.1 := le_of_memRead_ne hn (by rw [← h, memRead_head]; exact hc)
      have hcd : c.1 ≤ d.1 := le_of_memRead_ne hm (by rw [h, memRead_head]; exact hd)
      have haddr : c.1 = d.1 := le_antisymm hcd hdc
      have hbyte : c.2 = d.2 := by rw [← memRead_head c ms, h, haddr, memRead_head]
      have hrest : ms = ns := ih ns hms hns fun k => by rw [memRead_tail hm, memRead_tail hn, h, haddr]
      rw [Prod.ext haddr hbyte, hrest]

end Sys2Proof.Machine
end

section
/-! PROOFS. The statements of reset (70_reset_and_hazards.md): what `reset()` sets and reads, that a
second one changes nothing, and that no rule reads `cycle_total`. -/

namespace Sys2Proof.Machine

open Sys2Proof.Claims

/-! ## Reset -/

/-- The registers that reset writes before it reads its vector. -/
def resetRegisters (s : State) : State := (s.clearNmi.setS 0xFF).setP { s.p with i := true }

/-- Reset is the read of the vector, which `PC` takes, after its other register writes (R290). -/
theorem hostReset_eq_readPair (s : State) :
    let vector := readPair 0xFFFC 0xFFFD (resetRegisters s)
    hostReset s = { vector.2 with pc := vector.1, fsm := .ready } := rfl

/-- Over an ordinary vector `PC` is the word there, and memory stays. -/
theorem hostReset_plain (s : State) (h : Ordinary s [0xFFFC, 0xFFFD]) :
    hostReset s = { s with
      s := 0xFF
      pc := plainWord s 0xFFFC 0xFFFD
      p := { s.p with i := true }
      fsm := .ready
      nmiPending := false
      history := readEvents s [0xFFFC, 0xFFFD] ++ s.history } := by
  rw [hostReset_eq_readPair, readPair_plain 0xFFFC 0xFFFD (resetRegisters s) h]
  rfl

/-- Settles O1: reset writes its registers around the one word read, which changes no register, whatever answers it. -/
theorem hostResetSetsResetState : Obligations.HostResetSetsResetState := by
  intro s t
  obtain ⟨hread, lo, hi, hword, hhistory⟩ := readPair_reads 0xFFFC 0xFFFD (resetRegisters s)
  refine ⟨?registers, ⟨lo, hi, hword, hhistory⟩, fun hordinary => ?ordinary⟩
  case registers => exact congrArg (fun r : State => { r with pc := t.pc, fsm := .ready }) hread
  case ordinary =>
    rw [show t = _ from hostReset_plain s hordinary]
    exact ⟨rfl, rfl⟩

/-- Settles O2: the first reset leaves memory and the windows, so the second reads the same vector. -/
theorem secondResetChangesNothing : Obligations.SecondResetChangesNothing := by
  intro s hordinary
  have hagain : Ordinary (hostReset s) [0xFFFC, 0xFFFD] := by
    rw [hostReset_plain s hordinary]
    exact hordinary
  rw [hostReset_plain _ hagain, hostReset_plain s hordinary]
  rfl

/-! ## The cycle count

Every operation commutes with adding cycles, since none reads the count, and an instruction's own addition swaps with it. -/


section
variable {n : Nat} {s : State}

/-- The two additions to the cycle count swap. -/
theorem moreCycles_addCycles (k : Nat) : (moreCycles n s).addCycles k = moreCycles n (s.addCycles k) := by
  rw [State.addCycles, moreCycles, moreCycles, State.addCycles, Nat.add_right_comm]

/-- An instruction whose effect, before its cycles are added, commutes with more cycles. -/
theorem next_addCycles_moreCycles {t u : State} (h : t = moreCycles n u) (k : Nat) :
    (.next (t.addCycles k) : Result) = onLeft (moreCycles n) (.next (u.addCycles k)) := by
  rw [h, moreCycles_addCycles]
  rfl

theorem moreCycles_pc : (moreCycles n s).pc = s.pc := rfl

theorem moreCycles_p : (moreCycles n s).p = s.p := rfl

theorem moreCycles_params : (moreCycles n s).params = s.params := rfl

theorem moreCycles_setP (p : Status) : (moreCycles n s).setP p = moreCycles n (s.setP p) := rfl

theorem moreCycles_setPc (w : Word) : (moreCycles n s).setPc w = moreCycles n (s.setPc w) := rfl

theorem busRead_moreCycles (w : Word) :
    busRead w (moreCycles n s) = ((busRead w s).1, moreCycles n (busRead w s).2) := rfl

theorem busWrite_moreCycles (w : Word) (v : Byte) : busWrite w v (moreCycles n s) = moreCycles n (busWrite w v s) := rfl

theorem push_moreCycles (v : Byte) : push v (moreCycles n s) = moreCycles n (push v s) := rfl

theorem pull_moreCycles : pull (moreCycles n s) = ((pull s).1, moreCycles n (pull s).2) := rfl

theorem pushWord_moreCycles (w : Word) : pushWord w (moreCycles n s) = moreCycles n (pushWord w s) := by
  simp only [pushWord, push_moreCycles]

theorem pullWord_moreCycles : pullWord (moreCycles n s) = ((pullWord s).1, moreCycles n (pullWord s).2) := by
  simp only [pullWord, pull_moreCycles]

theorem resolve_moreCycles (m : MemOperand) :
    resolve m (moreCycles n s) = ⟨(resolve m s).ea, (resolve m s).crossed, moreCycles n (resolve m s).st⟩ := by
  cases m <;> rfl

theorem resolveJump_moreCycles (o : JumpOperand) :
    resolveJump o (moreCycles n s) = ((resolveJump o s).1, moreCycles n (resolveJump o s).2) := by
  cases o <;> rfl

theorem loadOperand_moreCycles (o : ReadOperand) :
    loadOperand o (moreCycles n s) =
      ⟨(loadOperand o s).value, (loadOperand o s).crossed, moreCycles n (loadOperand o s).st⟩ := by
  cases o with
  | imm v => rfl
  | mem m =>
    simp only [loadOperand, loadMem, resolve_moreCycles, busRead_moreCycles]

/-- Instructions that read one operand, with an effect that commutes with more cycles. -/
theorem readThen_moreCycles (effect : Byte → State → State)
    (h : ∀ v t, effect v (moreCycles n t) = moreCycles n (effect v t)) (i : Instr) (o : ReadOperand) :
    readThen effect i o (moreCycles n s) = moreCycles n (readThen effect i o s) := by
  simp only [readThen, loadOperand_moreCycles, h, moreCycles_addCycles]

theorem storeRegister_moreCycles (i : Instr) (m : MemOperand) (v : Byte) :
    storeRegister i m v (moreCycles n s) = moreCycles n (storeRegister i m v s) := by
  simp only [storeRegister, storeMem, resolve_moreCycles, busWrite_moreCycles, moreCycles_addCycles]

theorem modifyMem_moreCycles (i : Instr) (m : MemOperand) (f : Byte → Bool → Byte) (flags : Status → Byte → Status) :
    modifyMem i m f flags (moreCycles n s) = moreCycles n (modifyMem i m f flags s) := by
  simp only [modifyMem, resolve_moreCycles, busRead_moreCycles, moreCycles_p, busWrite_moreCycles, moreCycles_setP,
    moreCycles_addCycles]

theorem shiftOperand_moreCycles (i : Instr) (o : ShiftOperand) (f : Byte → Bool → AluResult) :
    shiftOperand i o f (moreCycles n s) = moreCycles n (shiftOperand i o f s) := by
  cases o with
  | acc => exact moreCycles_addCycles (s := (s.setA (f s.a s.p.c).r).setP (s.p.setNZC (f s.a s.p.c))) _
  | mem m =>
    simp only [shiftOperand]
    exact modifyMem_moreCycles i m _ _

theorem branchOn_moreCycles (i : Instr) (cond : Bool) (off : Byte) :
    branchOn i cond off (moreCycles n s) = moreCycles n (branchOn i cond off s) := by
  cases cond with
  | true => exact moreCycles_addCycles (s := s.setPc (branchTarget off s)) _
  | false => exact moreCycles_addCycles _

theorem enterHandler_moreCycles (vector : Word) (b : Bool) :
    enterHandler vector b (moreCycles n s) = moreCycles n (enterHandler vector b s) := by
  simp only [enterHandler, pushWord_moreCycles, push_moreCycles, moreCycles_pc, moreCycles_p, moreCycles_setP, readWord,
    readPair, busRead_moreCycles, moreCycles_setPc]

theorem returnFromHandler_moreCycles :
    returnFromHandler (moreCycles n s) = moreCycles n (returnFromHandler s) := by
  simp only [returnFromHandler, pullWord_moreCycles, pull_moreCycles, moreCycles_setP, moreCycles_setPc]

/-- No instruction reads the cycle count. -/
theorem exec_moreCycles (i : Instr) : exec i (moreCycles n s) = onLeft (moreCycles n) (exec i s) := by
  cases i with
  | adc o => exact congrArg _ (readThen_moreCycles (carryEffect adcResult) (fun _ _ => rfl) _ o)
  | sbc o => exact congrArg _ (readThen_moreCycles (carryEffect sbcResult) (fun _ _ => rfl) _ o)
  | and o => exact congrArg _ (readThen_moreCycles (accumulatorEffect fun a m => a &&& m) (fun _ _ => rfl) _ o)
  | ora o => exact congrArg _ (readThen_moreCycles (accumulatorEffect fun a m => a ||| m) (fun _ _ => rfl) _ o)
  | eor o => exact congrArg _ (readThen_moreCycles (accumulatorEffect fun a m => a ^^^ m) (fun _ _ => rfl) _ o)
  | lda o => exact congrArg _ (readThen_moreCycles (accumulatorEffect fun _ m => m) (fun _ _ => rfl) _ o)
  | ldx o => exact congrArg _ (readThen_moreCycles (fun v t => (t.setX v).setZN v) (fun _ _ => rfl) _ o)
  | ldy o => exact congrArg _ (readThen_moreCycles (fun v t => (t.setY v).setZN v) (fun _ _ => rfl) _ o)
  | cmp o => exact congrArg _ (readThen_moreCycles (compareEffect State.a) (fun _ _ => rfl) _ o)
  | cpx o => exact congrArg _ (readThen_moreCycles (compareEffect State.x) (fun _ _ => rfl) _ o)
  | cpy o => exact congrArg _ (readThen_moreCycles (compareEffect State.y) (fun _ _ => rfl) _ o)
  | bit m => exact congrArg _ (readThen_moreCycles bitTestEffect (fun _ _ => rfl) _ (.mem m))
  | asl o | lsr o | rol o | ror o => exact congrArg _ (shiftOperand_moreCycles _ o _)
  | inc m | dec m => exact congrArg _ (modifyMem_moreCycles _ m _ _)
  | sta m | stx m | sty m => exact congrArg _ (storeRegister_moreCycles _ m _)
  | bpl d | bmi d | bvc d | bvs d | bcc d | bcs d | bne d | beq d => exact congrArg _ (branchOn_moreCycles _ _ d)
  | jmp o =>
    simp only [exec, execJmp, resolveJump_moreCycles]
    exact next_addCycles_moreCycles (moreCycles_setPc _) _
  | jsr w =>
    simp only [exec, execJsr, pushWord_moreCycles]
    exact next_addCycles_moreCycles (moreCycles_setPc _) _
  | rts =>
    simp only [exec, execRts, pullWord_moreCycles]
    exact next_addCycles_moreCycles (moreCycles_setPc _) _
  | brk => exact next_addCycles_moreCycles (enterHandler_moreCycles _ _) _
  | rti => exact next_addCycles_moreCycles returnFromHandler_moreCycles _
  | undefined op =>
    simp only [exec, execUndefined, moreCycles]
    cases s.params.undefinedPolicy with
    | report => rfl
    | nop => exact next_addCycles_moreCycles (by rfl) _
  | tax | tay | txa | tya | tsx | txs | inx | iny | dex | dey | pha | php | pla | plp | clc | sec | cli | sei
  | clv | cld | sed | nop => exact next_addCycles_moreCycles (by rfl) _

theorem fetchBytes_moreCycles (k : Nat) (w : Word) (s : State) :
    fetchBytes k w (moreCycles n s) = ((fetchBytes k w s).1, moreCycles n (fetchBytes k w s).2) := by
  induction k generalizing w s with
  | zero => rfl
  | succ k ih => simp only [fetchBytes, busRead_moreCycles, ih]

theorem fetch_moreCycles : fetch (moreCycles n s) = ⟨(fetch s).instr, moreCycles n (fetch s).st⟩ := by
  simp only [fetch, moreCycles_pc, moreCycles_params, busRead_moreCycles, fetchBytes_moreCycles, moreCycles_setPc]

theorem interruptEntry_moreCycles (vector : Word) :
    interruptEntry vector (moreCycles n s) = moreCycles n (interruptEntry vector s) :=
  (congrArg (·.addCycles interruptCycles) (enterHandler_moreCycles _ _)).trans (moreCycles_addCycles _)

theorem interruptCheck_moreCycles : interruptCheck (moreCycles n s) = (interruptCheck s).map (moreCycles n) := by
  have hclear : (moreCycles n s).clearNmi = moreCycles n s.clearNmi := rfl
  simp only [interruptCheck, hclear, interruptEntry_moreCycles, apply_ite (Option.map (moreCycles n))]
  rfl

end

/-- Settles O57: the interrupt check, the fetch and every instruction commute with more cycles. -/
theorem cycleTotalInfluencesNothing : Obligations.CycleTotalInfluencesNothing := by
  intro n s
  cases hf : s.fsm with
  | powerOn => rw [step_powerOn s hf, step_powerOn (moreCycles n s) hf]; rfl
  | ready =>
    rw [step_ready s hf, step_ready (moreCycles n s) hf, interruptCheck_moreCycles, fetch_moreCycles]
    cases interruptCheck s with
    | some t => rfl
    | none => exact exec_moreCycles _

end Sys2Proof.Machine
end

section
/-! PROOFS. The decimal statements of the ALU (42_alu.md section 3): every output of the addition and the subtraction on
integers, and from them the decimal sum and difference of valid digits. -/

namespace Sys2Proof.Machine

open Sys2Proof.Claims

/-! ## The two digits of a byte -/

theorem and_0x0F_toNat (x : Byte) : (x &&& 0x0F).toNat = x.toNat % 16 := by
  rw [BitVec.toNat_and]
  exact Nat.and_two_pow_sub_one_eq_mod x.toNat 4

theorem and_0xF0_toNat (x : Byte) : (x &&& 0xF0).toNat = x.toNat / 16 * 16 := by
  have h : ∀ n : Fin 256, (BitVec.ofFin n &&& 0xF0 : Byte).toNat = n.val / 16 * 16 := by decide +kernel
  exact h x.toFin

/-- The signed value of the high digit with the low digit cleared. -/
theorem and_0xF0_toInt (x : Byte) :
    (x &&& 0xF0).toInt = if ((x.toNat / 16 * 16 : Nat) : Int) < 128 then ((x.toNat / 16 * 16 : Nat) : Int)
      else ((x.toNat / 16 * 16 : Nat) : Int) - 256 := by
  rw [byte_toInt_eq, and_0xF0_toNat]
  split <;> split <;> omega

theorem carryNat_eq_ite (c : Bool) : (carryNat c : Int) = if c then 1 else 0 := by cases c <;> rfl

/-! ## Addition -/

/-- The low digits' sum with its correction (R165). -/
theorem addDecimalLow_eq (a b : Byte) (c : Bool) :
    let sum : Int := (a.toNat % 16 : Nat) + (b.toNat % 16 : Nat) + (carryNat c : Int)
    (addDecimalLow a b c : Int) = if 10 ≤ sum then (sum + 6) % 16 + 16 else sum := by
  intro sum
  simp only [addDecimalLow, and_0x0F_toNat]
  split <;> split <;> omega

/-- The sum of R165 before its last correction. -/
def addDecimalSum (a b : Byte) (c : Bool) : Nat := (a &&& 0xF0).toNat + (b &&& 0xF0).toNat + addDecimalLow a b c

/-- The sum of R165, whose low byte is the result. -/
def addDecimalCorrected (a b : Byte) (c : Bool) : Nat :=
  if 0xA0 ≤ addDecimalSum a b c then addDecimalSum a b c + 0x60 else addDecimalSum a b c

/-- The signed sum of R165, from which N and V come. -/
def addDecimalSigned (a b : Byte) (c : Bool) : Int := (a &&& 0xF0).toInt + (b &&& 0xF0).toInt + addDecimalLow a b c

theorem addDecimal_toNat (a b : Byte) (c : Bool) :
    ((addDecimal a b c).r.toNat : Int) = (addDecimalCorrected a b c : Int) % 256 :=
  (congrArg Nat.cast (BitVec.toNat_ofNat _ _)).trans (Int.natCast_emod _ _)

theorem addDecimal_c_iff (a b : Byte) (c : Bool) : (addDecimal a b c).c = true ↔ 256 ≤ (addDecimalCorrected a b c : Int) :=
  decide_eq_true_iff.trans Int.ofNat_le.symm

theorem addDecimal_n_iff (a b : Byte) (c : Bool) : (addDecimal a b c).n = true ↔ 128 ≤ addDecimalSigned a b c % 256 := by
  have hn : (addDecimal a b c).n = isNegative (BitVec.ofInt 8 (addDecimalSigned a b c)) := rfl
  rw [hn, isNegative_eq_decide, decide_eq_true_iff, BitVec.toNat_ofInt]
  omega

theorem addDecimal_v_iff (a b : Byte) (c : Bool) :
    (addDecimal a b c).v = true ↔ addDecimalSigned a b c < -128 ∨ 127 < addDecimalSigned a b c := by
  have hv : (addDecimal a b c).v =
    (decide (addDecimalSigned a b c < -128) || decide (127 < addDecimalSigned a b c)) := rfl
  rw [hv, Bool.or_eq_true, decide_eq_true_iff, decide_eq_true_iff]

theorem addDecimal_z (a b : Byte) (c : Bool) : (addDecimal a b c).z = (addBinary a b c).z := rfl

/-- Z is the binary sum's (R165). -/
theorem addDecimal_z_iff (a b : Byte) (c : Bool) :
    (addDecimal a b c).z = true ↔ ((a.toNat : Int) + b.toNat + carryNat c) % 256 = 0 := by
  rw [addDecimal_z, addBinary_z_iff, ← BitVec.toNat_inj, addBinary_toNat, show (0 : Byte).toNat = 0 from rfl]
  omega

/-! ## Subtraction -/

/-- The low digits' difference with its correction (R166). -/
theorem subDecimalLow_eq (a b : Byte) (c : Bool) :
    let difference : Int := (a.toNat % 16 : Nat) - (b.toNat % 16 : Nat) + (carryNat c : Int) - 1
    subDecimalLow a b c = if difference < 0 then (difference - 6) % 16 - 16 else difference := by
  simp only [subDecimalLow, and_0x0F_toNat]

/-- The difference of R166 before its last correction. -/
def subDecimalDifference (a b : Byte) (c : Bool) : Int :=
  ((a &&& 0xF0).toNat : Int) - (b &&& 0xF0).toNat + subDecimalLow a b c

theorem subDecimal_toNat (a b : Byte) (c : Bool) :
    ((subDecimal a b c).r.toNat : Int) =
      (if subDecimalDifference a b c < 0 then subDecimalDifference a b c - 96 else subDecimalDifference a b c) % 256 := by
  have hr : (subDecimal a b c).r = BitVec.ofInt 8
    (if subDecimalDifference a b c < 0 then subDecimalDifference a b c - 96 else subDecimalDifference a b c) := rfl
  rw [hr, BitVec.toNat_ofInt]
  omega

/-! ## The statements -/

/-- Settles O17, output by output; the low digits and the masked high digits are the statement's. -/
theorem decimalResultsFollowNmosAlgorithm : Obligations.DecimalResultsFollowNmosAlgorithm := by
  intro a b c k al bl ah bh signed
  have hk : (carryNat c : Int) = k := carryNat_eq_ite c
  refine ⟨?sum, ?difference⟩
  case sum =>
    intro lo t ts t' q
    have hlo : (addDecimalLow a b c : Int) = lo := by rw [addDecimalLow_eq, hk]
    have ht : (addDecimalSum a b c : Int) = t := by
      simp only [addDecimalSum, and_0xF0_toNat, Int.natCast_add, hlo]
      rfl
    have hts : addDecimalSigned a b c = ts := by
      rw [addDecimalSigned, and_0xF0_toInt, and_0xF0_toInt, hlo]
    have ht' : (addDecimalCorrected a b c : Int) = t' := by
      simp only [t', ← ht, addDecimalCorrected]
      split <;> split <;> omega
    rw [← ht', ← hts, ← hk]
    exact ⟨addDecimal_toNat a b c, addDecimal_c_iff a b c, addDecimal_n_iff a b c, addDecimal_v_iff a b c,
      addDecimal_z_iff a b c⟩
  case difference =>
    intro lo t q
    have ht : subDecimalDifference a b c = t := by
      rw [subDecimalDifference, subDecimalLow_eq, and_0xF0_toNat, and_0xF0_toNat, hk]
    rw [← ht]
    exact ⟨subDecimal_toNat a b c, rfl, rfl, rfl, rfl⟩

/-! ## Valid digits

Over valid digits the corrected values of R165 and R166 are the decimal sum and difference with their digits written in
hexadecimal, where the last correction makes of the hundreds a carry of the byte or a borrow. -/

/-- The tens and units of a number in hexadecimal, with a carry of 256 from 100 on and a borrow of 256 below 0. -/
def hexDigits (n : Int) : Int :=
  if n < 0 then n / 10 * 16 + n % 10 - 96 else if n < 100 then n / 10 * 16 + n % 10 else n / 10 * 16 + n % 10 + 96

theorem bcdValue_of_digits {v : Byte} {tens units : Int} (ht : 0 ≤ tens ∧ tens ≤ 9) (hu : 0 ≤ units ∧ units ≤ 9)
    (hv : (v.toNat : Int) = tens * 16 + units) : ValidBcd v ∧ (bcdValue v : Int) = 10 * tens + units := by
  rw [ValidBcd, bcdValue]
  omega

/-- A byte that is the hexadecimal form of a sum or a difference modulo 256 has its value modulo 100. -/
theorem bcdValue_of_hexDigits {v : Byte} {n : Int} (hlow : -100 ≤ n) (hhigh : n < 200)
    (hv : (v.toNat : Int) = hexDigits n % 256) : ValidBcd v ∧ (bcdValue v : Int) = n % 100 := by
  have digits : ∀ tens : Int, 0 ≤ tens ∧ tens ≤ 9 ∧ (v.toNat : Int) = tens * 16 + n % 10 ∧ 10 * tens + n % 10 = n % 100 →
      ValidBcd v ∧ (bcdValue v : Int) = n % 100 := fun tens ⟨h0, h9, hbyte, hvalue⟩ =>
    hvalue ▸ bcdValue_of_digits ⟨h0, h9⟩ (by omega) hbyte
  rw [hexDigits] at hv
  split at hv
  · exact digits (n / 10 + 10) (by omega)
  · split at hv
    · exact digits (n / 10) (by omega)
    · exact digits (n / 10 - 10) (by omega)

theorem hexDigits_carry_iff {n : Int} (hlow : 0 ≤ n) : 256 ≤ hexDigits n ↔ 100 ≤ n := by
  rw [hexDigits]
  split
  · omega
  · split <;> omega

theorem bcdValue_le {v : Byte} (h : ValidBcd v) : bcdValue v ≤ 99 := by
  obtain ⟨htens, hunits⟩ := h
  rw [bcdValue]
  omega

theorem borrowInt_bounds (c : Bool) : 0 ≤ borrowInt c ∧ borrowInt c ≤ 1 := by cases c <;> decide

theorem addDecimalCorrected_of_valid {a b : Byte} (c : Bool) (ha : ValidBcd a) (hb : ValidBcd b) :
    (addDecimalCorrected a b c : Int) = hexDigits ((bcdValue a : Int) + bcdValue b + carryNat c) := by
  obtain ⟨ha1, ha0⟩ := ha
  obtain ⟨hb1, hb0⟩ := hb
  have hlow := addDecimalLow_eq a b c
  have hk := carryNat_eq_one_sub_borrowInt c
  have hborrow := borrowInt_bounds c
  simp only [addDecimalCorrected, addDecimalSum, and_0xF0_toNat, bcdValue, hexDigits]
  split <;> omega

theorem subDecimalDifference_of_valid {a b : Byte} (c : Bool) (ha : ValidBcd a) (hb : ValidBcd b) :
    (if subDecimalDifference a b c < 0 then subDecimalDifference a b c - 96 else subDecimalDifference a b c) =
      hexDigits ((bcdValue a : Int) - bcdValue b - borrowInt c) := by
  obtain ⟨ha1, ha0⟩ := ha
  obtain ⟨hb1, hb0⟩ := hb
  have hk := carryNat_eq_one_sub_borrowInt c
  have hborrow := borrowInt_bounds c
  simp only [subDecimalDifference, subDecimalLow_eq, and_0xF0_toNat, bcdValue, hexDigits]
  split <;> omega

/-- Bytes of valid digits compare as their decimal values do, a borrow included. -/
theorem noBorrow_iff_of_valid {a b : Byte} (c : Bool) (ha : ValidBcd a) (hb : ValidBcd b) :
    0 ≤ (a.toNat : Int) - b.toNat - borrowInt c ↔ 0 ≤ (bcdValue a : Int) - bcdValue b - borrowInt c := by
  obtain ⟨ha1, ha0⟩ := ha
  obtain ⟨hb1, hb0⟩ := hb
  have hborrow := borrowInt_bounds c
  simp only [bcdValue]
  omega

/-- Settles O15: the corrected sum is the decimal sum in hexadecimal, and its carry is the decimal carry. -/
theorem decimalAddMeetsDecimalSum : Obligations.DecimalAddMeetsDecimalSum := by
  intro a b c ha hb k q
  have hk : carryNat c = k := rfl
  have hborrow := borrowInt_bounds c
  have hk' := carryNat_eq_one_sub_borrowInt c
  have ha' := bcdValue_le ha
  have hb' := bcdValue_le hb
  have hr := addDecimal_toNat a b c
  have hc := addDecimal_c_iff a b c
  rw [addDecimalCorrected_of_valid c ha hb] at hr hc
  obtain ⟨hvalid, hvalue⟩ := bcdValue_of_hexDigits (by omega) (by omega) hr
  rw [hexDigits_carry_iff (by omega)] at hc
  rw [← hk]
  exact ⟨hvalid, by exact_mod_cast hvalue, hc.trans (by omega), rfl⟩

/-- Settles O16: the corrected difference is the decimal difference in hexadecimal, and the binary carry, which compares the two
bytes, compares their decimal values. -/
theorem decimalSubMeetsDecimalDifference : Obligations.DecimalSubMeetsDecimalDifference := by
  intro a b c ha hb k q
  have hborrow := borrowInt_bounds c
  have ha' := bcdValue_le ha
  have hb' := bcdValue_le hb
  have hr := subDecimal_toNat a b c
  rw [subDecimalDifference_of_valid c ha hb] at hr
  obtain ⟨hvalid, hvalue⟩ := bcdValue_of_hexDigits (by omega) (by omega) hr
  exact ⟨hvalid, hvalue, (subBinary_c_iff a b c).trans (noBorrow_iff_of_valid c ha hb), rfl, rfl, rfl, rfl⟩

end Sys2Proof.Machine
end

section
/-! PROOFS. The statements of decoding and encoding together (30_encoding.md): an opcode byte's entry assembles the instruction
from exactly its own operand bytes, which both directions are read from. -/

namespace Sys2Proof.Laws.OpcodeExists

/-- The family of Laws/PerInstr.lean, over all instructions. -/
theorem every (i : Instr) : Statement i :=
  match i with
  | .adc o => adc o | .sbc o => sbc o | .and o => and o | .ora o => ora o | .eor o => eor o | .bit m => bit m
  | .asl o => asl o | .lsr o => lsr o | .rol o => rol o | .ror o => ror o | .lda o => lda o | .ldx o => ldx o
  | .ldy o => ldy o | .sta m => sta m | .stx m => stx m | .sty m => sty m | .tax => tax | .tay => tay | .txa => txa
  | .tya => tya | .tsx => tsx | .txs => txs | .cmp o => cmp o | .cpx o => cpx o | .cpy o => cpy o | .inc m => inc m
  | .dec m => dec m | .inx => inx | .iny => iny | .dex => dex | .dey => dey | .bpl d => bpl d | .bmi d => bmi d
  | .bvc d => bvc d | .bvs d => bvs d | .bcc d => bcc d | .bcs d => bcs d | .bne d => bne d | .beq d => beq d
  | .jmp o => jmp o | .jsr w => jsr w | .rts => rts | .pha => pha | .php => php | .pla => pla | .plp => plp
  | .clc => clc | .sec => sec | .cli => cli | .sei => sei | .clv => clv | .cld => cld | .sed => sed | .brk => brk
  | .rti => rti | .nop => nop | .undefined op => undefined op

end Sys2Proof.Laws.OpcodeExists

namespace Sys2Proof

open Sys2Proof.Machine Sys2Proof.Claims

/-! ## An entry assembles an instruction from its operand bytes -/

theorem wordOf_eq_iff (hi lo : Byte) (w : Word) : wordOf hi lo = w ↔ wordBytes w = [lo, hi] := by
  constructor
  · rintro rfl
    simp [wordBytes]
  · intro h
    obtain ⟨hlo, hhi⟩ : loByte w = lo ∧ hiByte w = hi := by simpa [wordBytes] using h
    rw [← hlo, ← hhi, wordOf_halves]

/-- A mode assembles an operand from the operand's bytes and no others. -/
theorem memOperand_eq_some_iff (m : MemOperand) (b1 b2 : Byte) :
    memOperand m.mode b1 b2 = some m ↔ m.bytes = [b1, b2].take (m.mode.instrLength - 1) := by
  cases m with
  | zp b | zpx b | zpy b | indx b | indy b =>
    simp [memOperand, MemOperand.mode, MemOperand.bytes, Mode.instrLength, eq_comm]
  | abs w | absx w | absy w =>
    simp [memOperand, MemOperand.mode, MemOperand.bytes, Mode.instrLength, wordOf_eq_iff]

theorem memOperand_bytes_length (m : MemOperand) : m.bytes.length = m.mode.instrLength - 1 := by cases m <;> rfl

/-- The entry has the operation, the mode and the mode's length. -/
def DecodeEntry.Has (e : DecodeEntry) (operation : OperandForm) (mode : Mode) : Prop :=
  e.operation = operation ∧ e.mode = mode ∧ e.length = mode.instrLength

/-- The entry assembles the instruction from the instruction's operand bytes, all that its length counts, and from no others. -/
def Assembles (e : DecodeEntry) (i : Instr) : Prop :=
  (operandBytes i).length = e.length - 1 ∧
    ∀ op b1 b2 : Byte, assemble e op b1 b2 = some i ↔ operandBytes i = [b1, b2].take (e.length - 1)

theorem assembles_implied {i : Instr} {e : DecodeEntry} (he : e.Has (.implied i) .implied) (hbytes : operandBytes i = []) :
    Assembles e i := by
  obtain ⟨hop, hmode, hlength⟩ := he
  simp [Assembles, assemble, hop, hmode, hlength, hbytes, Mode.instrLength]

theorem assembles_memory {k : MemOperand → Instr} {e : DecodeEntry} {m : MemOperand} (he : e.Has (.memory k) m.mode)
    (hinj : k.Injective) (hbytes : operandBytes (k m) = m.bytes) : Assembles e (k m) := by
  obtain ⟨hop, hmode, hlength⟩ := he
  rw [Assembles, hbytes, hlength]
  refine ⟨memOperand_bytes_length m, fun op b1 b2 => ?_⟩
  rw [← memOperand_eq_some_iff]
  simp [assemble, hop, hmode, hinj.eq_iff]

theorem assembles_read {k : ReadOperand → Instr} {e : DecodeEntry} {o : ReadOperand} (he : e.Has (.read k) o.mode)
    (hinj : k.Injective) (hbytes : operandBytes (k o) = o.bytes) : Assembles e (k o) := by
  obtain ⟨hop, hmode, hlength⟩ := he
  rw [Assembles, hbytes, hlength]
  cases o with
  | imm v => simp [assemble, hop, hmode, ReadOperand.mode, ReadOperand.bytes, Mode.instrLength, hinj.eq_iff, eq_comm]
  | mem m =>
    refine ⟨memOperand_bytes_length m, fun op b1 b2 => ?_⟩
    rw [ReadOperand.bytes, ReadOperand.mode, ← memOperand_eq_some_iff]
    cases m <;> simp [assemble, hop, hmode, ReadOperand.mode, MemOperand.mode, hinj.eq_iff, memOperand]

theorem assembles_shift {k : ShiftOperand → Instr} {e : DecodeEntry} {o : ShiftOperand} (he : e.Has (.shift k) o.mode)
    (hinj : k.Injective) (hbytes : operandBytes (k o) = o.bytes) : Assembles e (k o) := by
  obtain ⟨hop, hmode, hlength⟩ := he
  rw [Assembles, hbytes, hlength]
  cases o with
  | acc => simp [assemble, hop, hmode, ShiftOperand.mode, ShiftOperand.bytes, Mode.instrLength]
  | mem m =>
    refine ⟨memOperand_bytes_length m, fun op b1 b2 => ?_⟩
    rw [ShiftOperand.bytes, ShiftOperand.mode, ← memOperand_eq_some_iff]
    cases m <;> simp [assemble, hop, hmode, ShiftOperand.mode, MemOperand.mode, hinj.eq_iff, memOperand]

theorem assembles_jump {k : JumpOperand → Instr} {e : DecodeEntry} {o : JumpOperand} (he : e.Has (.jump k) o.mode)
    (hinj : k.Injective) (hbytes : operandBytes (k o) = o.bytes) : Assembles e (k o) := by
  obtain ⟨hop, hmode, hlength⟩ := he
  rw [Assembles, hbytes, hlength]
  cases o with
  | abs w | ind w =>
    refine ⟨rfl, fun op b1 b2 => ?_⟩
    simp [assemble, hop, hmode, JumpOperand.mode, JumpOperand.bytes, Mode.instrLength, hinj.eq_iff, wordOf_eq_iff]

theorem assembles_call {k : Word → Instr} {e : DecodeEntry} {w : Word} (he : e.Has (.call k) .absolute)
    (hinj : k.Injective) (hbytes : operandBytes (k w) = wordBytes w) : Assembles e (k w) := by
  obtain ⟨hop, hmode, hlength⟩ := he
  rw [Assembles, hbytes, hlength]
  refine ⟨rfl, fun op b1 b2 => ?_⟩
  simp [assemble, hop, hmode, Mode.instrLength, hinj.eq_iff, wordOf_eq_iff]

theorem assembles_branch {k : Byte → Instr} {e : DecodeEntry} {d : Byte} (he : e.Has (.branch k) .relative)
    (hinj : k.Injective) (hbytes : operandBytes (k d) = [d]) : Assembles e (k d) := by
  obtain ⟨hop, hmode, hlength⟩ := he
  simp [Assembles, assemble, hop, hmode, hlength, hbytes, Mode.instrLength, hinj.eq_iff, eq_comm]

/-! ## The entry of each instruction's opcode byte -/

/-- The entry at an official instruction's opcode byte assembles it; BRK, whose padding byte is free, aside. -/
theorem assembles_of_opcodeOf {i : Instr} {op : Byte} (h : opcodeOf i = some op) (hbrk : i ≠ .brk)
    (hofficial : ∀ u, i ≠ .undefined u) : Assembles (decodeEntry op) i := by
  cases i with
  | adc o | sbc o | and o | ora o | eor o | lda o | ldx o | ldy o | cmp o | cpx o | cpy o =>
    refine assembles_read ?_ (fun _ _ h => by injection h) rfl
    rcases o with v | m
    · cases h; exact ⟨rfl, rfl, rfl⟩
    · cases m <;> cases h <;> exact ⟨rfl, rfl, rfl⟩
  | bit m | sta m | stx m | sty m | inc m | dec m =>
    refine assembles_memory ?_ (fun _ _ h => by injection h) rfl
    cases m <;> cases h <;> exact ⟨rfl, rfl, rfl⟩
  | asl o | lsr o | rol o | ror o =>
    refine assembles_shift ?_ (fun _ _ h => by injection h) rfl
    rcases o with _ | m
    · cases h; exact ⟨rfl, rfl, rfl⟩
    · cases m <;> cases h <;> exact ⟨rfl, rfl, rfl⟩
  | jmp o =>
    refine assembles_jump ?_ (fun _ _ h => by injection h) rfl
    cases o <;> cases h <;> exact ⟨rfl, rfl, rfl⟩
  | jsr w => cases h; exact assembles_call ⟨rfl, rfl, rfl⟩ (fun _ _ h => by injection h) rfl
  | bpl d | bmi d | bvc d | bvs d | bcc d | bcs d | bne d | beq d =>
    cases h; exact assembles_branch ⟨rfl, rfl, rfl⟩ (fun _ _ h => by injection h) rfl
  | brk => exact absurd rfl hbrk
  | undefined u => exact absurd rfl (hofficial u)
  | tax | tay | txa | tya | tsx | txs | inx | iny | dex | dey | rts | pha | php | pla | plp | clc | sec | cli | sei | clv
  | cld | sed | rti | nop => cases h; exact assembles_implied ⟨rfl, rfl, rfl⟩ rfl

/-! ## Decoding an encoding -/

theorem encode_eq {i : Instr} {op : Byte} (h : opcodeOf i = some op) : encode i = some (op :: operandBytes i) :=
  congrArg (Option.map fun op => op :: operandBytes i) h

theorem operandCount_le (e : DecodeEntry) : e.operandCount ≤ e.length - 1 := by
  rw [DecodeEntry.operandCount]
  split <;> omega

/-- The first two bytes of a list hold as many of its bytes as an operand has. -/
theorem take_getD_pair {bytes : List Byte} {n : Nat} (hle : n ≤ bytes.length) (htwo : n ≤ 2) :
    [bytes.getD 0 0, bytes.getD 1 0].take n = bytes.take n := by
  match n, bytes, hle with
  | 0, _, _ => rfl
  | 1, b :: _, _ => rfl
  | 2, b1 :: b2 :: _, _ => rfl

/-- An instruction that its opcode byte's entry assembles from its operand bytes, all that the entry's length counts, is decoded
from its encoding. -/
theorem decode_encode {i : Instr} {op : Byte} {rest : List Byte} (hop : opcodeOf i = some op)
    (hlength : (operandBytes i).length = (decodeEntry op).length - 1)
    (hassemble : let bytes := operandBytes i ++ rest
      assemble (decodeEntry op) op (bytes.getD 0 0) (bytes.getD 1 0) = some i) :
    ∃ bytes, encode i = some bytes ∧ decode (bytes ++ rest) = .ok i rest := by
  refine ⟨op :: operandBytes i, encode_eq hop, ?_⟩
  have henough : (decodeEntry op).operandCount ≤ (operandBytes i ++ rest).length := by
    have := operandCount_le (decodeEntry op)
    rw [List.length_append]
    omega
  rw [List.cons_append, decode_eq op _ i henough hassemble, ← hlength, List.drop_left]

/-- Settles O46: an official instruction's operand bytes come first among the bytes after its opcode; BRK's padding and an
undefined byte's operand bytes are not looked at. -/
theorem decodeOfEncodeIsSame : Obligations.DecodeOfEncodeIsSame := by
  intro i rest hwf
  obtain ⟨op, hop⟩ := Option.isSome_iff_exists.mp ((Laws.OpcodeExists.every i).trans hwf)
  by_cases hbrk : i = .brk
  · subst hbrk
    cases hop
    exact decode_encode rfl rfl rfl
  by_cases hundefined : ∃ u, i = .undefined u
  · obtain ⟨u, rfl⟩ := hundefined
    have hu : undefinedBytes.contains u = true := hwf
    obtain ⟨-, hassemble⟩ := assemble_undefined u ((decodeEntry_undefined_iff u).mpr (List.contains_iff_mem.mp hu))
    exact decode_encode (if_pos hu) List.length_replicate (hassemble _ _)
  · obtain ⟨hlength, hassembles⟩ := assembles_of_opcodeOf hop hbrk (not_exists.mp hundefined)
    refine decode_encode hop hlength ((hassembles _ _ _).mpr ?_)
    have htwo := (decodeEntry_length_bounds op).2
    rw [take_getD_pair (by rw [List.length_append]; omega) (by omega), ← hlength, List.take_left]

/-! ## Encoding what was decoded -/

/-- The entry, at its place in the table, assembles an instruction whose opcode byte is that place. -/
def assemblesOwnOpcode (b1 b2 : Byte) (entry : DecodeEntry × Nat) : Bool :=
  (assemble entry.1 (BitVec.ofNat 8 entry.2) b1 b2).bind opcodeOf == some (BitVec.ofNat 8 entry.2)

theorem table_assemblesOwnOpcode (b1 b2 : Byte) : decodeTable.zipIdx.all (assemblesOwnOpcode b1 b2) = true := by
  simp only [decodeTable, List.zipIdx_append, List.all_append, Bool.and_eq_true]
  exact ⟨rfl, rfl, rfl, rfl, rfl, rfl, rfl, rfl, rfl, rfl, rfl, rfl, rfl, rfl, rfl, rfl⟩

/-- No two opcode bytes share an operation and a mode. -/
theorem opcodeOf_of_assemble {op b1 b2 : Byte} {i : Instr} (h : assemble (decodeEntry op) op b1 b2 = some i) :
    opcodeOf i = some op := by
  have hmem : (decodeEntry op, op.toNat) ∈ decodeTable.zipIdx :=
    List.mem_zipIdx_iff_getElem?.mpr (decodeTable_getElem? op)
  have hown := List.all_eq_true.mp (table_assemblesOwnOpcode b1 b2) _ hmem
  simpa [assemblesOwnOpcode, h] using hown

/-- What the decoder accepts: enough bytes for the operand, which assemble the instruction; the rest follows its length. -/
theorem decode_ok {op : Byte} {bytes rest : List Byte} {i : Instr} (h : decode (op :: bytes) = .ok i rest) :
    (decodeEntry op).operandCount ≤ bytes.length ∧
      assemble (decodeEntry op) op (bytes.getD 0 0) (bytes.getD 1 0) = some i ∧
      rest = bytes.drop ((decodeEntry op).length - 1) := by
  simp only [decode] at h
  split at h
  · cases h
  · next hcount =>
    split at h
    · next j hassemble =>
      cases h
      exact ⟨Nat.le_of_not_lt hcount, hassemble, rfl⟩
    · cases h

/-- All that the length counts is operand, but for BRK and the undefined bytes. -/
theorem operandCount_official {op : Byte} (hbrk : op ≠ 0x00) (hdefined : (decodeEntry op).defined = true) :
    (decodeEntry op).operandCount = (decodeEntry op).length - 1 := by
  have hcount := fetchCount_eq op .report
  rw [if_neg (not_or.mpr ⟨hbrk, by simp [hdefined]⟩)] at hcount
  rw [← hcount]
  cases h : (decodeEntry op).operation <;> simp [fetchCount, h]

/-- Settles O47: the opcode byte is the instruction's own, and the operand bytes taken are those it was assembled from. -/
theorem decodedBytesReencode : Obligations.DecodedBytesReencode := by
  intro bytes rest i hdecode hbrk hofficial
  cases bytes with
  | nil => cases hdecode
  | cons op bytes =>
    obtain ⟨hcount, hassemble, rfl⟩ := decode_ok hdecode
    have hop := opcodeOf_of_assemble hassemble
    have hopBrk : op ≠ 0x00 := by
      rintro rfl
      exact hbrk (Option.some.inj hassemble).symm
    have hdefined : (decodeEntry op).defined = true := by
      by_contra hundefined
      obtain ⟨-, hassembles⟩ := assemble_undefined op (Bool.eq_false_iff.mpr hundefined)
      exact hofficial op (Option.some.inj (hassemble.symm.trans (hassembles _ _)))
    rw [operandCount_official hopBrk hdefined] at hcount
    have htwo := (decodeEntry_length_bounds op).2
    have hbytes := ((assembles_of_opcodeOf hop hbrk hofficial).2 _ _ _).mp hassemble
    rw [take_getD_pair hcount (by omega)] at hbytes
    exact ⟨_, encode_eq hop, by rw [hbytes, List.cons_append, List.take_append_drop]⟩

end Sys2Proof
end
